-- ==== Sys2Proof/Word.lean ====
section
/-! DEFINITION. The word types of the MQTTPH block (10_state.md R20, 30_encoding.md R70). -/

namespace Sys2Proof

/-- One byte of PHMEM or CBMEM (20_memory.md R56). -/
abbrev Byte := BitVec 8

/-- A 16-bit register or field: `MQ_A`, `Qe`, `W`, `H`, `LEN`. -/
abbrev Half := BitVec 16

/-- A 32-bit register, address or field. -/
abbrev Word := BitVec 32

/-- A command word (30_encoding.md R70). -/
abbrev CommandWord := BitVec 64

end Sys2Proof
end

