-- ==== Sys2Proof/Syntax.lean ====
section
/-! DEFINITION. The commands of the block: one constructor per row of spec/opcode_table.json (30_encoding.md R73), with the
operand fields of R74 at their own widths. -/

namespace Sys2Proof

/-- The eighteen commands (30_encoding.md R73, R74). -/
inductive Instr where
  /-- R91. -/
  | nop
  /-- R92. -/
  | reset
  /-- R93: `REG` = A[7:0]. -/
  | regread (reg : BitVec 8)
  /-- R94. -/
  | clrwarn
  /-- R110. -/
  | mqInitctx
  /-- R111: `RAW` = A[0], `RST` = A[1], `ADDR` = B. -/
  | mqInitdec (raw rst : Bool) (addr : Word)
  /-- R112: `CXI` = A[4:0]. -/
  | mqDecode (cxi : BitVec 5)
  /-- R113: `EXP` = B. -/
  | mqCheckbp (expected : Word)
  /-- R145: `BASE` = A, `W` = B[31:16], `H` = B[15:0]. -/
  | ttInit (base : BitVec 24) (w h : Half)
  /-- R146: `NODE` = A, `THR` = B. -/
  | ttDecode (node : BitVec 24) (thr : Word)
  /-- R162: `END` = B. -/
  | brSetend (stop : Word)
  /-- R163: `POS` = B. -/
  | brStart (pos : Word)
  /-- R164: `N` = A[5:0]. -/
  | brGetbits (n : BitVec 6)
  /-- R165. -/
  | brFlush
  /-- R166. -/
  | brGetnpasses
  /-- R167. -/
  | brGetlblkinc
  /-- R168. -/
  | brEph
  /-- R169: `LEN` = A[15:0], `TERM` = A[16], `DST` = B. -/
  | brSegcopy (len : Half) (term : Bool) (dst : Word)
deriving DecidableEq, Repr

end Sys2Proof
end

