-- ==== Sys2Proof/Decode.lean ====
section
/-! DEFINITION. The decoder of a 64-bit command word and the encoder, both from 30_encoding.md R70, R73 and R74. The decoder
makes the opcode check (R75) and the zero checks of R74; the value checks of R74 are made by the command (log 11). -/

namespace Sys2Proof

/-- Why a word is no command. -/
inductive DecodeError where
  /-- `OPC` is reserved (30_encoding.md R75). -/
  | reservedOpcode
  /-- `OPC` is defined, and a bit that must be zero is not (30_encoding.md R76). -/
  | reservedBits
deriving DecidableEq, Repr

/-- A command word from its three fields (30_encoding.md R70). -/
def commandWord (opc : BitVec 8) (a : BitVec 24) (b : Word) : CommandWord := opc ++ a ++ b

/-- `OPC`, bits 63:56 (30_encoding.md R70). -/
def opcField (w : CommandWord) : BitVec 8 := w.extractLsb' 56 8

/-- `A`, bits 55:32 (30_encoding.md R70). -/
def aField (w : CommandWord) : BitVec 24 := w.extractLsb' 32 24

/-- `B`, bits 31:0 (30_encoding.md R70). -/
def bField (w : CommandWord) : Word := w.extractLsb' 0 32

/-- A command, given that its must-be-zero bits are zero (30_encoding.md R74, R76). -/
def zeroChecked (zeros : Bool) (i : Instr) : Except DecodeError Instr :=
  if zeros then .ok i else .error .reservedBits

/-- The command with opcode `opc` and operand fields `a` and `b` (30_encoding.md R73, R74). -/
def decodeFields (opc : BitVec 8) (a : BitVec 24) (b : Word) : Except DecodeError Instr :=
  if opc = 0x00 then zeroChecked (a == 0 && b == 0) .nop
  else if opc = 0x01 then zeroChecked (a == 0 && b == 0) .reset
  else if opc = 0x02 then zeroChecked (a.extractLsb' 8 16 == 0 && b == 0) (.regread (a.extractLsb' 0 8))
  else if opc = 0x03 then zeroChecked (a == 0 && b == 0) .clrwarn
  else if opc = 0x10 then zeroChecked (a == 0 && b == 0) .mqInitctx
  else if opc = 0x11 then zeroChecked (a.extractLsb' 2 22 == 0) (.mqInitdec (a.getLsbD 0) (a.getLsbD 1) b)
  else if opc = 0x12 then zeroChecked (a.extractLsb' 5 19 == 0 && b == 0) (.mqDecode (a.extractLsb' 0 5))
  else if opc = 0x13 then zeroChecked (a == 0) (.mqCheckbp b)
  else if opc = 0x20 then zeroChecked true (.ttInit a (b.extractLsb' 16 16) (b.extractLsb' 0 16))
  else if opc = 0x21 then zeroChecked true (.ttDecode a b)
  else if opc = 0x30 then zeroChecked (a == 0) (.brSetend b)
  else if opc = 0x31 then zeroChecked (a == 0) (.brStart b)
  else if opc = 0x32 then zeroChecked (a.extractLsb' 6 18 == 0 && b == 0) (.brGetbits (a.extractLsb' 0 6))
  else if opc = 0x33 then zeroChecked (a == 0 && b == 0) .brFlush
  else if opc = 0x34 then zeroChecked (a == 0 && b == 0) .brGetnpasses
  else if opc = 0x35 then zeroChecked (a == 0 && b == 0) .brGetlblkinc
  else if opc = 0x36 then zeroChecked (a == 0 && b == 0) .brEph
  else if opc = 0x37 then
    zeroChecked (a.extractLsb' 17 7 == 0) (.brSegcopy (a.extractLsb' 0 16) (a.getLsbD 16) b)
  else .error .reservedOpcode

/-- The decoder: total on the 2^64 words, and every refusal has a name. -/
def decode (w : CommandWord) : Except DecodeError Instr :=
  decodeFields (opcField w) (aField w) (bField w)

/-- The opcode of a command (30_encoding.md R73). -/
def opcodeOf : Instr → BitVec 8
  | .nop => 0x00
  | .reset => 0x01
  | .regread _ => 0x02
  | .clrwarn => 0x03
  | .mqInitctx => 0x10
  | .mqInitdec _ _ _ => 0x11
  | .mqDecode _ => 0x12
  | .mqCheckbp _ => 0x13
  | .ttInit _ _ _ => 0x20
  | .ttDecode _ _ => 0x21
  | .brSetend _ => 0x30
  | .brStart _ => 0x31
  | .brGetbits _ => 0x32
  | .brFlush => 0x33
  | .brGetnpasses => 0x34
  | .brGetlblkinc => 0x35
  | .brEph => 0x36
  | .brSegcopy _ _ _ => 0x37

/-- The `A` field of a command (30_encoding.md R74): its sub-fields, every other bit 0. -/
def operandA : Instr → BitVec 24
  | .nop => 0
  | .reset => 0
  | .regread reg => (0 : BitVec 16) ++ reg
  | .clrwarn => 0
  | .mqInitctx => 0
  | .mqInitdec raw rst _ => (0 : BitVec 22) ++ BitVec.ofBool rst ++ BitVec.ofBool raw
  | .mqDecode cxi => (0 : BitVec 19) ++ cxi
  | .mqCheckbp _ => 0
  | .ttInit base _ _ => base
  | .ttDecode node _ => node
  | .brSetend _ => 0
  | .brStart _ => 0
  | .brGetbits n => (0 : BitVec 18) ++ n
  | .brFlush => 0
  | .brGetnpasses => 0
  | .brGetlblkinc => 0
  | .brEph => 0
  | .brSegcopy len term _ => (0 : BitVec 7) ++ BitVec.ofBool term ++ len

/-- The `B` field of a command (30_encoding.md R74). -/
def operandB : Instr → Word
  | .nop => 0
  | .reset => 0
  | .regread _ => 0
  | .clrwarn => 0
  | .mqInitctx => 0
  | .mqInitdec _ _ addr => addr
  | .mqDecode _ => 0
  | .mqCheckbp expected => expected
  | .ttInit _ w h => w ++ h
  | .ttDecode _ thr => thr
  | .brSetend stop => stop
  | .brStart pos => pos
  | .brGetbits _ => 0
  | .brFlush => 0
  | .brGetnpasses => 0
  | .brGetlblkinc => 0
  | .brEph => 0
  | .brSegcopy _ _ dst => dst

/-- The word of a command (30_encoding.md R70, R73, R74). -/
def encode (i : Instr) : CommandWord := commandWord (opcodeOf i) (operandA i) (operandB i)

/-- The mask of a command's row in spec/opcode_table.json and 30_encoding.md R74. -/
def rowMask : Instr → CommandWord
  | .nop => 0xFFFFFFFFFFFFFFFF
  | .reset => 0xFFFFFFFFFFFFFFFF
  | .regread _ => 0xFFFFFF00FFFFFFFF
  | .clrwarn => 0xFFFFFFFFFFFFFFFF
  | .mqInitctx => 0xFFFFFFFFFFFFFFFF
  | .mqInitdec _ _ _ => 0xFFFFFFFC00000000
  | .mqDecode _ => 0xFFFFFFE0FFFFFFFF
  | .mqCheckbp _ => 0xFFFFFFFF00000000
  | .ttInit _ _ _ => 0xFF00000000000000
  | .ttDecode _ _ => 0xFF00000000000000
  | .brSetend _ => 0xFFFFFFFF00000000
  | .brStart _ => 0xFFFFFFFF00000000
  | .brGetbits _ => 0xFFFFFFC0FFFFFFFF
  | .brFlush => 0xFFFFFFFFFFFFFFFF
  | .brGetnpasses => 0xFFFFFFFFFFFFFFFF
  | .brGetlblkinc => 0xFFFFFFFFFFFFFFFF
  | .brEph => 0xFFFFFFFFFFFFFFFF
  | .brSegcopy _ _ _ => 0xFFFE000000000000

/-- The match value of a command's row: its opcode in bits 63:56, every other bit 0 (30_encoding.md R74). -/
def rowMatch (i : Instr) : CommandWord := commandWord (opcodeOf i) 0 0

/-- The command the decoder reads from a word given as spec/opcode_table.json numbers its bits: bit 0 is the least
significant bit of the one 64-bit word, and the bits from `nbits` up are 0. -/
def decodeTableWord (nbits w : Nat) : Option Instr :=
  match decode (BitVec.ofNat 64 (w % 2 ^ nbits)) with
  | .ok i => some i
  | .error _ => none

end Sys2Proof
end

