-- ==== Sys2Proof/Config.lean ====
section
/-! DEFINITION. What an implementation fixes (00_scope.md R7, 92_eei_decisions.md section 8) and the free values the
spec leaves unspecified (60_exceptions.md R225). No free value has a body: nothing can be proved of which value it is. -/

namespace Sys2Proof

/-- The parameters of one instance (00_scope.md R7). The three sizes are the constant registers `PHMEM_SIZE_R`,
`CBMEM_SIZE_R` and `TT_NODES_R` of 10_state.md R23, so they are 32-bit words. -/
structure Config where
  phmemSize : Word
  cbmemSize : Word
  ttNodes : Word
  ttStack : Nat
deriving DecidableEq, Repr

/-- The ranges of the open parameters (00_scope.md R7): a model may assume these and no more. -/
abbrev Config.Valid (c : Config) : Prop :=
  1 ≤ c.phmemSize.toNat ∧ 2 ≤ c.cbmemSize.toNat ∧ 1 ≤ c.ttNodes.toNat ∧ c.ttNodes.toNat ≤ 2 ^ 24 ∧ 17 ≤ c.ttStack

/-- DESIGN CHOICE (log 2), safe: the open parameters of the implementation at hand, free. -/
opaque Config.openPhmemSize : Nat
/-- See `Config.openPhmemSize`. -/
opaque Config.openCbmemSize : Nat
/-- See `Config.openPhmemSize`. -/
opaque Config.openTtNodes : Nat
/-- See `Config.openPhmemSize`. -/
opaque Config.openTtStack : Nat

/-- The instance that `State.reset` is the reset state of: every choice of the open parameters inside the ranges of
00_scope.md R7 is a value of it, and nothing else is known of it (log 2). -/
def Config.implemented : Config where
  phmemSize := BitVec.ofNat 32 (1 + Config.openPhmemSize % (2 ^ 32 - 1))
  cbmemSize := BitVec.ofNat 32 (2 + Config.openCbmemSize % (2 ^ 32 - 2))
  ttNodes := BitVec.ofNat 32 (1 + Config.openTtNodes % 2 ^ 24)
  ttStack := 17 + Config.openTtStack

/-- DESIGN CHOICE (log 3), unsafe only for claims about `State.reset` itself: what a byte of PHMEM or CBMEM that
nothing has written reads as. The spec leaves it unspecified (20_memory.md R68). -/
def Config.unlistedByte : Byte := 0

/-! The values that 60_exceptions.md R225 makes unspecified after an in-flight fault, one function each of the number of
the fault: "drawn once at the fault", of "the register's width", inside the legal range that rule gives (log 4). -/

/-- `BR_POS` after BR_EXHAUSTED number `k`. -/
opaque Config.freeBrPos : (k : Nat) → Word
/-- `BR_BITIDX` after BR_EXHAUSTED: 0 to 8. -/
opaque Config.freeBrBitidx : (k : Nat) → Fin 9
/-- `RESULT` after BR_EXHAUSTED, or after MQ_RANGE in `MQ_DECODE`. -/
opaque Config.freeResult : (k : Nat) → Word
/-- `TT.VAL` of node `n` on the walk, after BR_EXHAUSTED in `TT_DECODE`. -/
opaque Config.freeNodeVal : (k n : Nat) → Word
/-- `TT.VIS` of node `n` on the walk, after BR_EXHAUSTED in `TT_DECODE`. -/
opaque Config.freeNodeVis : (k n : Nat) → Bool
/-- `MQ_A` after MQ_RANGE. -/
opaque Config.freeMqA : (k : Nat) → Half
/-- `MQ_C` after MQ_RANGE. -/
opaque Config.freeMqC : (k : Nat) → Word
/-- `MQ_BP` after MQ_RANGE. -/
opaque Config.freeMqBp : (k : Nat) → Word
/-- `RAW` after MQ_RANGE in `MQ_INITDEC`. -/
opaque Config.freeRaw : (k : Nat) → Bool
/-- `MQINIT` after MQ_RANGE in `MQ_INITDEC`. -/
opaque Config.freeMqinit : (k : Nat) → Bool
/-- `CX[i]` after MQ_RANGE: 0 to 93. -/
opaque Config.freeCx : (k i : Nat) → Fin 94

end Sys2Proof
end

