-- ==== Sys2Proof/Machine/MqTables.lean ====
section
/-! DEFINITION. The constant tables of the MQ unit: the initial context states (10_state.md R30) and the Qe ROM
(41_mq_decoder.md R101), with the transition functions over it (R106). -/

namespace Sys2Proof.Machine

/-- The initial context states of 10_state.md R30, `CX[0]` first. -/
def initialContexts : Vector (BitVec 7) 19 :=
  #v[8, 0, 0, 0, 0, 0, 0, 0, 0, 0, 0, 0, 0, 0, 0, 0, 0, 92, 6]

/-- One row of the Qe ROM (41_mq_decoder.md R101). -/
structure QeRow where
  /-- `Qe[I]`, the LPS probability estimate. -/
  qe : Half
  /-- `NMPS[I]`, the next index after an MPS renormalization. -/
  nmps : Nat
  /-- `NLPS[I]`, the next index after an LPS. -/
  nlps : Nat
  /-- `SWITCH[I]`: an LPS in this state flips the context's MPS. -/
  switch : Bool
deriving DecidableEq, Repr

/-- Rows 0 to 15 of 41_mq_decoder.md R101. -/
def qeRomRows0 : List QeRow :=
  [⟨0x5601, 1, 1, true⟩, ⟨0x3401, 2, 6, false⟩, ⟨0x1801, 3, 9, false⟩, ⟨0x0AC1, 4, 12, false⟩,
   ⟨0x0521, 5, 29, false⟩, ⟨0x0221, 38, 33, false⟩, ⟨0x5601, 7, 6, true⟩, ⟨0x5401, 8, 14, false⟩,
   ⟨0x4801, 9, 14, false⟩, ⟨0x3801, 10, 14, false⟩, ⟨0x3001, 11, 17, false⟩, ⟨0x2401, 12, 18, false⟩,
   ⟨0x1C01, 13, 20, false⟩, ⟨0x1601, 29, 21, false⟩, ⟨0x5601, 15, 14, true⟩, ⟨0x5401, 16, 14, false⟩]

/-- Rows 16 to 31 of 41_mq_decoder.md R101. -/
def qeRomRows16 : List QeRow :=
  [⟨0x5101, 17, 15, false⟩, ⟨0x4801, 18, 16, false⟩, ⟨0x3801, 19, 17, false⟩, ⟨0x3401, 20, 18, false⟩,
   ⟨0x3001, 21, 19, false⟩, ⟨0x2801, 22, 19, false⟩, ⟨0x2401, 23, 20, false⟩, ⟨0x2201, 24, 21, false⟩,
   ⟨0x1C01, 25, 22, false⟩, ⟨0x1801, 26, 23, false⟩, ⟨0x1601, 27, 24, false⟩, ⟨0x1401, 28, 25, false⟩,
   ⟨0x1201, 29, 26, false⟩, ⟨0x1101, 30, 27, false⟩, ⟨0x0AC1, 31, 28, false⟩, ⟨0x09C1, 32, 29, false⟩]

/-- Rows 32 to 46 of 41_mq_decoder.md R101. -/
def qeRomRows32 : List QeRow :=
  [⟨0x08A1, 33, 30, false⟩, ⟨0x0521, 34, 31, false⟩, ⟨0x0441, 35, 32, false⟩, ⟨0x02A1, 36, 33, false⟩,
   ⟨0x0221, 37, 34, false⟩, ⟨0x0141, 38, 35, false⟩, ⟨0x0111, 39, 36, false⟩, ⟨0x0085, 40, 37, false⟩,
   ⟨0x0049, 41, 38, false⟩, ⟨0x0025, 42, 39, false⟩, ⟨0x0015, 43, 40, false⟩, ⟨0x0009, 44, 41, false⟩,
   ⟨0x0005, 45, 42, false⟩, ⟨0x0001, 45, 43, false⟩, ⟨0x5601, 46, 46, false⟩]

/-- The Qe ROM (41_mq_decoder.md R101), 47 rows. -/
def qeRom : List QeRow := qeRomRows0 ++ qeRomRows16 ++ qeRomRows32

/-- Row `I` of the ROM. The indices 47 to 63 that 7 bits could also name never occur (10_state.md R29); they read row 46
(DEDUCED, log 7). -/
def qeRow (index : Nat) : QeRow := qeRom.getD index ⟨0x5601, 46, 46, false⟩

/-- The row of a state byte: `I = s >> 1` (10_state.md R29). -/
def stateRow (s : BitVec 7) : QeRow := qeRow (s >>> 1).toNat

/-- `qe(s)` of 41_mq_decoder.md R106. -/
def qe (s : BitVec 7) : Half := (stateRow s).qe

/-- `mps(s)` of 41_mq_decoder.md R106. -/
def mps (s : BitVec 7) : Bool := s.getLsbD 0

/-- `nmps(s)` of 41_mq_decoder.md R106: the MPS is kept. -/
def nmps (s : BitVec 7) : BitVec 7 := BitVec.ofNat 7 (2 * (stateRow s).nmps + (mps s).toNat)

/-- `nlps(s)` of 41_mq_decoder.md R106: the MPS is flipped where `SWITCH` is 1. -/
def nlps (s : BitVec 7) : BitVec 7 :=
  BitVec.ofNat 7 (2 * (stateRow s).nlps + (mps s ^^ (stateRow s).switch).toNat)

end Sys2Proof.Machine
end

