-- ==== Sys2Proof/Machine/State.lean ====
section
/-! DEFINITION. The state of one MQTTPH instance (10_state.md R20), its reset state (10_state.md R42, 70_reset_and_hazards.md
R250, R251), and the two reason types of the host's interface. -/

namespace Sys2Proof.Machine

/-- The fault causes (60_exceptions.md R221). The codes 11 to 255 are never raised. -/
inductive Cause where
  | none
  | brExhausted
  | ttMissingNode
  | phSegOverrun
  | mqRange
  | ttCapacity
  | cbCapacity
  | illegalOpcode
  | illegalField
  | illegalState
  | ttDepth
deriving DecidableEq, Repr

/-- One tag-tree node (10_state.md R35). `NONE` is `Option.none` (log 17). -/
structure TagNode where
  /-- `VALID`: the node belongs to a tree built by `TT_INIT`. -/
  valid : Bool
  /-- `VAL`: a lower bound on the node's coded value, exact when `VIS` is 1. -/
  val : Word
  /-- `VIS`: the node's value is known exactly. -/
  vis : Bool
  /-- `PARENT`: the index of the parent, `none` for a root. -/
  parent : Option Nat
deriving DecidableEq, Repr

/-- A node at reset (10_state.md R35, R42): what a node that the list of nodes does not name is. -/
def TagNode.atReset : TagNode := ⟨false, 0, false, Option.none⟩

/-- The tag-tree node file: (index, node) pairs, indices strictly rising, no node as at reset (log 17). -/
abbrev NodeFile := List (Nat × TagNode)

/-- A byte memory: (address, byte) pairs, addresses strictly rising, no byte as an unlisted address reads (log 3). -/
abbrev Memory := List Host.Cell

/-- The two byte memories (20_memory.md R50). -/
inductive MemSpace where
  | phmem
  | cbmem
deriving DecidableEq, Repr

/-- What the host can present (30_encoding.md R71, 20_memory.md R55; log 1). -/
inductive PortEvent where
  /-- A command word on the command port. -/
  | command (w : CommandWord)
  /-- `HostWrite(space, a, v)`. -/
  | hostWrite (space : MemSpace) (a : Word) (v : Byte)
  /-- `HostRead(space, a)`. -/
  | hostRead (space : MemSpace) (a : Word)
deriving DecidableEq, Repr

/-- What the block presents to the host (30_encoding.md R71, 20_memory.md R55; log 13). -/
inductive PortReply where
  /-- The response to a command: `STATUS` and `RESULT` after it. -/
  | response (status result : Word)
  /-- The byte of a `HostRead`. -/
  | readData (v : Byte)
  /-- A `HostWrite` was made. -/
  | written
  /-- A host access at or beyond the memory's size was rejected. -/
  | rejected
deriving DecidableEq, Repr

/-- The state (10_state.md R20). The last three fields are the model's own (log 1, 5, 13). -/
structure State where
  /-- The parameters of this instance, three of them constant registers (10_state.md R23). No command writes it. -/
  cfg : Config
  /-- `STATUS.CAUSE`, of which `CLASS` and `FAULTED` are views (10_state.md R22). -/
  cause : Cause
  /-- `STATUS.WARN_EPH` (10_state.md R22). -/
  warnEph : Bool
  /-- `STATUS.WARN_BP` (10_state.md R22). -/
  warnBp : Bool
  /-- `RESULT` (10_state.md R21). -/
  result : Word
  /-- `MQ_A` (10_state.md R25). -/
  mqA : Half
  /-- `MQ_C` (10_state.md R26). -/
  mqC : Word
  /-- `MQ_BP` (10_state.md R27). -/
  mqBp : Word
  /-- `MQ_CTRL.RAW` (10_state.md R28). -/
  raw : Bool
  /-- `MQ_CTRL.MQINIT` (10_state.md R28). -/
  mqinit : Bool
  /-- `CX[0..18]` (10_state.md R29). -/
  cx : Vector (BitVec 7) 19
  /-- `BR_POS` (10_state.md R31). -/
  brPos : Word
  /-- `BR_END` (10_state.md R32). -/
  brEnd : Word
  /-- `BR_BITIDX` (10_state.md R33). -/
  brBitidx : BitVec 4
  /-- `BR_CTRL.BRINIT` (10_state.md R34). -/
  brinit : Bool
  /-- The tag-tree node file (10_state.md R35): the nodes that differ from `TagNode.atReset`, by rising index. -/
  nodes : NodeFile
  /-- PHMEM (20_memory.md R51): the bytes that differ from `Config.unlistedByte`, by rising address. -/
  phmem : Memory
  /-- CBMEM (20_memory.md R52), in the same form. -/
  cbmem : Memory
  /-- What the host presents next, oldest first. -/
  port : List PortEvent
  /-- What the block last presented. -/
  reply : Option PortReply
  /-- How many in-flight faults have drawn unspecified values (60_exceptions.md R225). -/
  draws : Nat
deriving DecidableEq, Repr

/-- Why a step stops with a fault: never. Every fault of the spec (60_exceptions.md R221) is a next state in which `CAUSE`
is recorded (R223), and every command gets its response (30_encoding.md R71), so no reason exists (log 12; safe: nothing
is stopped that the block would run). -/
inductive Fault where
deriving DecidableEq, Repr

/-- Why a command has no meaning. -/
inductive Refusal where
  /-- Raised by `exec` for a command that has no meaning yet (none is left). Safe: the run ends there. -/
  | notModelled (mnemonic : String)
deriving DecidableEq, Repr

/-- The state at power-on of the instance with parameters `cfg`, with memory contents `ph` and `cb`: "the state
`ResetAction()` leaves, with two arbitrary byte arrays for PHMEM and CBMEM" (70_reset_and_hazards.md R251). -/
def State.powerOn (cfg : Config) (ph cb : Memory) : State where
  cfg := cfg
  cause := .none
  warnEph := false
  warnBp := false
  result := 0
  mqA := 0
  mqC := 0
  mqBp := 0
  raw := false
  mqinit := false
  cx := initialContexts
  brPos := 0
  brEnd := 0
  brBitidx := 8
  brinit := false
  nodes := []
  phmem := ph
  cbmem := cb
  port := []
  reply := Option.none
  draws := 0

/-- The machine right after reset (10_state.md R42, 70_reset_and_hazards.md R251), with free parameters (log 2) and
nothing listed in either memory (log 3). -/
def State.reset : State := State.powerOn Config.implemented [] []

end Sys2Proof.Machine
end

