-- ==== Sys2Proof/Machine/Flags.lean ====
section
/-! DEFINITION. The flags of the block and the registers made of them: `STATUS` (10_state.md R22), `MQ_CTRL` (R28), `BR_CTRL`
(R34), the classes of causes (60_exceptions.md R222). The block has no condition codes (10_state.md R38). -/

namespace Sys2Proof.Machine

/-- The cause codes (60_exceptions.md R221). -/
def Cause.code : Cause → BitVec 8
  | .none => 0
  | .brExhausted => 1
  | .ttMissingNode => 2
  | .phSegOverrun => 3
  | .mqRange => 4
  | .ttCapacity => 5
  | .cbCapacity => 6
  | .illegalOpcode => 7
  | .illegalField => 8
  | .illegalState => 9
  | .ttDepth => 10

/-- The class of a cause (60_exceptions.md R222): 0 Ok, 1 InvalidData, 3 OutOfMemory, 4 IllegalCommand; 2, Unsupported, is
the class of no cause. -/
def Cause.cls : Cause → BitVec 3
  | .none => 0
  | .brExhausted => 1
  | .ttMissingNode => 1
  | .phSegOverrun => 1
  | .mqRange => 1
  | .ttCapacity => 3
  | .cbCapacity => 3
  | .illegalOpcode => 4
  | .illegalField => 4
  | .illegalState => 4
  | .ttDepth => 1

/-- `FAULTED`: "1 exactly when `CAUSE` != 0" (10_state.md R22). -/
def State.faulted (s : State) : Bool := s.cause != .none

/-- The value of `STATUS` (10_state.md R22). -/
def State.statusWord (s : State) : Word :=
  (0 : BitVec 13) ++ BitVec.ofBool s.warnBp ++ BitVec.ofBool s.warnEph ++ BitVec.ofBool s.faulted ++ (0 : BitVec 5) ++
    s.cause.cls ++ s.cause.code

/-- The value of `MQ_CTRL`: bit 0 `RAW`, bit 1 `MQINIT` (10_state.md R28). -/
def State.mqCtrlWord (s : State) : Word := (0 : BitVec 30) ++ BitVec.ofBool s.mqinit ++ BitVec.ofBool s.raw

/-- The value of `BR_CTRL`: bit 0 `BRINIT` (10_state.md R34). -/
def State.brCtrlWord (s : State) : Word := (0 : BitVec 31) ++ BitVec.ofBool s.brinit

/-- `WARN_EPH <- 1`, sticky (60_exceptions.md R229). -/
def State.setWarnEph (s : State) : State := { s with warnEph := true }

/-- `WARN_BP <- 1`, sticky (60_exceptions.md R229). -/
def State.setWarnBp (s : State) : State := { s with warnBp := true }

/-- Both warnings cleared (40_control.md R94). -/
def State.clearWarnings (s : State) : State := { s with warnEph := false, warnBp := false }

end Sys2Proof.Machine
end

