-- ==== Sys2Proof/Machine/Ops.lean ====
section
/-! DEFINITION. The operations every command is made of: the sparse stores (20_memory.md R50 to R53), the access primitives
(R64, R65), the header-bit cursor (43_bitstream.md R161), fault entry (60_exceptions.md R223 to R225) and, beside it, the
reset action, the only way back (R228; 70_reset_and_hazards.md R250). -/

namespace Sys2Proof.Machine

/-! ### Sparse stores -/

/-- What the store holds at `a`: the entry listed for it, or `d` where none is. -/
def sparseRead {α : Type} (d : α) : List (Nat × α) → Nat → α
  | [], _ => d
  | (b, v) :: rest, a => if a = b then v else sparseRead d rest a

/-- The store with `v` at `a`, in the canonical form: an entry equal to `d` is not listed. -/
def sparseWrite {α : Type} [DecidableEq α] (d : α) : List (Nat × α) → Nat → α → List (Nat × α)
  | [], a, v => if v = d then [] else [(a, v)]
  | (b, w) :: rest, a, v =>
    if a < b then (if v = d then (b, w) :: rest else (a, v) :: (b, w) :: rest)
    else if a = b then (if v = d then rest else (a, v) :: rest)
    else (b, w) :: sparseWrite d rest a v

/-- The canonical form of a store with `size` places: places strictly rising, none listed that holds `d`, none at or past
`size`. -/
abbrev sparseWf {α : Type} [DecidableEq α] (d : α) (size : Nat) (m : List (Nat × α)) : Prop :=
  m.Pairwise (fun x y => x.1 < y.1) ∧ (∀ c ∈ m, c.2 ≠ d) ∧ ∀ c ∈ m, c.1 < size

/-- One byte of a memory. -/
def Memory.read (m : Memory) (a : Nat) : Byte := sparseRead Config.unlistedByte m a

/-- One byte stored. -/
def Memory.write (m : Memory) (a : Nat) (v : Byte) : Memory := sparseWrite Config.unlistedByte m a v

/-- Bytes stored one after the other from `a` on, in address order. -/
def Memory.writeBytes (m : Memory) (a : Nat) : List Byte → Memory
  | [] => m
  | v :: vs => (m.write a v).writeBytes (a + 1) vs

/-- The canonical form of a memory of `size` bytes (log 3). -/
abbrev Memory.wf (size : Nat) (m : Memory) : Prop := sparseWf Config.unlistedByte size m

/-- One node of the node file. -/
def NodeFile.node (f : NodeFile) (n : Nat) : TagNode := sparseRead TagNode.atReset f n

/-- One node stored. -/
def NodeFile.setNode (f : NodeFile) (n : Nat) (v : TagNode) : NodeFile := sparseWrite TagNode.atReset f n v

/-- The canonical form of a node file of `size` nodes (log 17). -/
abbrev NodeFile.wf (size : Nat) (f : NodeFile) : Prop := sparseWf TagNode.atReset size f

/-- `TT.VALID[n]`, `TT.VAL[n]`, `TT.VIS[n]`, `TT.PARENT[n]` (00_scope.md R10). -/
def State.node (s : State) (n : Nat) : TagNode := s.nodes.node n

/-! ### Access primitives (20_memory.md R64, R65) -/

/-- `PHMEM[a]`. -/
def State.phByte (s : State) (a : Nat) : Byte := s.phmem.read a

/-- `CBMEM[a]`. -/
def State.cbByte (s : State) (a : Nat) : Byte := s.cbmem.read a

/-- `PhRead(a)`: `none` is BR_EXHAUSTED (20_memory.md R64). The window `[0, BR_END)` never reaches outside PHMEM
(10_state.md R32; log 10). -/
def State.phRead (s : State) (a : Nat) : Option Byte := if a < s.brEnd.toNat then some (s.phByte a) else none

/-- `CbRead(a)`: `none` is MQ_RANGE (20_memory.md R64). -/
def State.cbRead (s : State) (a : Nat) : Option Byte := if a < s.cfg.cbmemSize.toNat then some (s.cbByte a) else none

/-- `CbWrite` of consecutive bytes, already range-checked (20_memory.md R65). -/
def State.cbWriteBytes (s : State) (a : Nat) (bytes : List Byte) : State := { s with cbmem := s.cbmem.writeBytes a bytes }

/-- The size of a memory (20_memory.md R50). -/
def State.sizeOf (s : State) : MemSpace → Nat
  | .phmem => s.cfg.phmemSize.toNat
  | .cbmem => s.cfg.cbmemSize.toNat

/-- One byte of either memory. -/
def State.byteOf (s : State) : MemSpace → Nat → Byte
  | .phmem, a => s.phByte a
  | .cbmem, a => s.cbByte a

/-- One byte of either memory stored. -/
def State.storeByte (s : State) : MemSpace → Nat → Byte → State
  | .phmem, a, v => { s with phmem := s.phmem.write a v }
  | .cbmem, a, v => { s with cbmem := s.cbmem.write a v }

/-! ### Writing registers -/

/-- `RESULT <- v` (10_state.md R21). -/
def State.setResult (s : State) (v : Word) : State := { s with result := v }

/-- The position of the header-bit reader: `BR_POS` and `BR_BITIDX`. -/
structure Cursor where
  pos : Word
  bitidx : BitVec 4
deriving DecidableEq, Repr

/-- The cursor the registers hold. -/
def State.cursor (s : State) : Cursor := ⟨s.brPos, s.brBitidx⟩

/-- `BR_POS` and `BR_BITIDX` written. -/
def State.setCursor (s : State) (c : Cursor) : State := { s with brPos := c.pos, brBitidx := c.bitidx }

/-- The registers the MQ procedures work on: `MQ_A`, `MQ_C`, `MQ_BP`. -/
structure MqRegs where
  a : Half
  c : Word
  bp : Word
deriving DecidableEq, Repr

/-- The values the registers hold. -/
def State.mqRegs (s : State) : MqRegs := ⟨s.mqA, s.mqC, s.mqBp⟩

/-- `MQ_A`, `MQ_C` and `MQ_BP` written. -/
def State.setMqRegs (s : State) (r : MqRegs) : State := { s with mqA := r.a, mqC := r.c, mqBp := r.bp }

/-- `CX[i] <- v` (00_scope.md R10). -/
def State.setCx (s : State) (i : Fin 19) (v : BitVec 7) : State := { s with cx := s.cx.set i v }

/-! ### Refusal, fault entry, reset -/

/-- What a command does unless the block is faulted: a faulted block refuses it, with no effect (60_exceptions.md R224). -/
def State.unlessFaulted (s t : State) : State := if s.faulted then s else t

/-- Fault entry (60_exceptions.md R223): the first cause is recorded, and nothing else changes. -/
def State.raise (s : State) (c : Cause) : State := if s.cause = .none then { s with cause := c } else s

/-- The reset action (70_reset_and_hazards.md R250): every register at its reset value, both memories unchanged. The
model's own fields are no registers and stay (log 5). -/
def State.resetAction (s : State) : State :=
  { State.powerOn s.cfg s.phmem s.cbmem with port := s.port, reply := s.reply, draws := s.draws }

/-- The BR registers that BR_EXHAUSTED leaves unspecified (60_exceptions.md R225; log 4). -/
def State.loseCursor (s : State) : State :=
  { s with
    brPos := Config.freeBrPos s.draws
    brBitidx := BitVec.ofNat 4 (Config.freeBrBitidx s.draws).val
    draws := s.draws + 1 }

/-- BR_EXHAUSTED in `BR_FLUSH` (60_exceptions.md R225): `BR_POS` and `BR_BITIDX` unspecified. -/
def State.exhaustedInFlush (s : State) : State := s.loseCursor.raise .brExhausted

/-- BR_EXHAUSTED in a command that reads a field (60_exceptions.md R225): `RESULT` unspecified too. -/
def State.exhaustedInRead (s : State) : State :=
  (s.loseCursor.setResult (Config.freeResult s.draws)).raise .brExhausted

/-- The nodes from `n` to its root, at most `k` of them (42_tag_tree.md R146; `TT_NODES` is always enough, since a parent's
index is greater than its child's, R141). -/
def State.chainToRoot (s : State) : Nat → Nat → List Nat
  | 0, _ => []
  | k + 1, n =>
    n :: match (s.node n).parent with
      | none => []
      | some p => s.chainToRoot k p

/-- The node file with `VAL` and `VIS` of the listed nodes unspecified (60_exceptions.md R225; log 4). -/
def NodeFile.lose (f : NodeFile) (draw : Nat) : List Nat → NodeFile
  | [] => f
  | n :: ns =>
    (f.setNode n { f.node n with val := Config.freeNodeVal draw n, vis := Config.freeNodeVis draw n }).lose draw ns

/-- BR_EXHAUSTED in `TT_DECODE` (60_exceptions.md R225): `VAL` and `VIS` of every node from `NODE` to its root are
unspecified too (log 6). -/
def State.exhaustedInDecode (s : State) (n : Nat) : State :=
  { s.exhaustedInRead with nodes := s.nodes.lose s.draws (s.chainToRoot s.cfg.ttNodes.toNat n) }

/-- A context state drawn after MQ_RANGE: 0 to 93 (60_exceptions.md R225). -/
def freeContext (draw i : Nat) : BitVec 7 := BitVec.ofNat 7 (Config.freeCx draw i).val

/-- `MQ_A`, `MQ_C` and `MQ_BP` unspecified (60_exceptions.md R225; log 4). -/
def State.loseMqRegs (s : State) : State :=
  { s with
    mqA := Config.freeMqA s.draws
    mqC := Config.freeMqC s.draws
    mqBp := Config.freeMqBp s.draws
    draws := s.draws + 1 }

/-- MQ_RANGE in `MQ_INITDEC` (60_exceptions.md R225): the MQ unit's registers and all contexts unspecified. -/
def State.rangeInInitdec (s : State) : State :=
  State.raise
    { s.loseMqRegs with
      raw := Config.freeRaw s.draws
      mqinit := Config.freeMqinit s.draws
      cx := Vector.ofFn fun i => freeContext s.draws i.val }
    .mqRange

/-- MQ_RANGE in `MQ_DECODE` of context `i` (60_exceptions.md R225): `CX[i]` and `RESULT` unspecified too. -/
def State.rangeInDecode (s : State) (i : Fin 19) : State :=
  ((s.loseMqRegs.setCx i (freeContext s.draws i.val)).setResult (Config.freeResult s.draws)).raise .mqRange

/-! ### The header-bit cursor (43_bitstream.md R161) -/

/-- The step to the next byte when the current one is used up: it gives 7 bits after a 0xFF, 8 after any other byte. -/
def State.stepCursor (s : State) (c : Cursor) : Option Cursor :=
  if c.bitidx = 0 then
    match s.phRead c.pos.toNat with
    | none => none
    | some b => some ⟨c.pos + 1, if b = 0xFF then 7 else 8⟩
  else some c

/-- `GetBit()` (43_bitstream.md R161): `none` is BR_EXHAUSTED. -/
def State.getBit (s : State) (c : Cursor) : Option (Bool × Cursor) :=
  match s.stepCursor c with
  | none => none
  | some c' =>
    match s.phRead c'.pos.toNat with
    | none => none
    | some b => some (b.getLsbD (c'.bitidx - 1).toNat, ⟨c'.pos, c'.bitidx - 1⟩)

/-- `GetBits(n)` onto the bits `r` already read, most significant first (43_bitstream.md R164). -/
def State.getBits (s : State) : Nat → Nat → Cursor → Option (Nat × Cursor)
  | 0, r, c => some (r, c)
  | n + 1, r, c =>
    match s.getBit c with
    | none => none
    | some (bit, c') => s.getBits n (2 * r + bit.toNat) c'

/-- The end of a command that reads a field: the field in `RESULT` and the cursor moved, or BR_EXHAUSTED. -/
def State.finishRead (s : State) : Option (Nat × Cursor) → State
  | none => s.exhaustedInRead
  | some (r, c) => (s.setCursor c).setResult (BitVec.ofNat 32 r)

end Sys2Proof.Machine
end

