-- ==== Sys2Proof/Machine/Operands.lean ====
section
/-! DEFINITION. The operand forms of the commands: the register numbers of `REGREAD` (10_state.md R39), and the value and state
checks that stand before a command's effect (30_encoding.md R74, R78). -/

namespace Sys2Proof.Machine

/-- The constant `ID` register (10_state.md R23). -/
def idWord : Word := 0x4D515450

/-- The value of register number `reg`, zero-extended to 32 bits (10_state.md R39); `none` for a reserved number. -/
def State.readRegister (s : State) (reg : BitVec 8) : Option Word :=
  match reg.toNat with
  | 0x00 => some s.statusWord
  | 0x01 => some s.result
  | 0x02 => some idWord
  | 0x03 => some s.cfg.ttNodes
  | 0x04 => some s.cfg.phmemSize
  | 0x05 => some s.cfg.cbmemSize
  | 0x08 => some (s.mqA.setWidth 32)
  | 0x09 => some s.mqC
  | 0x0A => some s.mqBp
  | 0x0B => some s.mqCtrlWord
  | 0x30 => some s.brPos
  | 0x31 => some s.brEnd
  | 0x32 => some (s.brBitidx.setWidth 32)
  | 0x33 => some s.brCtrlWord
  | n => if 0x10 ≤ n ∧ n ≤ 0x22 then (s.cx[n - 0x10]?).map (·.setWidth 32) else none

/-- `require ok else ILLEGAL_FIELD` for a value check (30_encoding.md R74, R78 step 3), then `t`. -/
def State.requireField (s : State) (ok : Bool) (t : State) : State := if ok then t else s.raise .illegalField

/-- `require ok else ILLEGAL_STATE` (30_encoding.md R78 step 4), then `t`. -/
def State.requireState (s : State) (ok : Bool) (t : State) : State := if ok then t else s.raise .illegalState

/-- `CXI` as an index of `CX`, where it is at most 18 (30_encoding.md R74). -/
def contextIndex (cxi : BitVec 5) : Option (Fin 19) := if h : cxi.toNat < 19 then some ⟨cxi.toNat, h⟩ else none

/-- The cursor is byte-aligned: `BR_BITIDX` = 8 (20_memory.md R57). -/
def State.byteAligned (s : State) : Bool := s.brBitidx == 8

end Sys2Proof.Machine
end

