-- ==== Sys2Proof/Machine/BitReader.lean ====
section
/-! DEFINITION. The BR unit: its eight commands (43_bitstream.md R162 to R169). -/

namespace Sys2Proof.Machine

/-- `BR_SETEND` (43_bitstream.md R162). -/
def execBrSetend (stop : Word) (s : State) : Host.Outcome State Fault Refusal :=
  .next (s.unlessFaulted (s.requireField (stop ≤ s.cfg.phmemSize) { s with brEnd := stop }))

/-- `BR_START` (43_bitstream.md R163): no byte is read, so no address faults. -/
def execBrStart (pos : Word) (s : State) : Host.Outcome State Fault Refusal :=
  .next (s.unlessFaulted { s.setCursor ⟨pos, 8⟩ with brinit := true })

/-- `BR_GETBITS` (43_bitstream.md R164). -/
def execBrGetbits (n : BitVec 6) (s : State) : Host.Outcome State Fault Refusal :=
  .next (s.unlessFaulted (s.requireField (n ≤ 32) (s.requireState s.brinit
    (s.finishRead (s.getBits n.toNat 0 s.cursor)))))

/-- The data part of `BR_FLUSH` (43_bitstream.md R165): the current byte is left, and after a 0xFF the byte after it is
skipped. -/
def State.flushed (s : State) : Option Cursor :=
  match s.phRead s.brPos.toNat with
  | none => none
  | some b =>
    if b = 0xFF then
      if s.brPos.toNat + 1 < s.brEnd.toNat then some ⟨s.brPos + 2, 8⟩ else none
    else some ⟨s.brPos + 1, 8⟩

/-- `BR_FLUSH` (43_bitstream.md R165). -/
def execBrFlush (s : State) : Host.Outcome State Fault Refusal :=
  .next (s.unlessFaulted (s.requireState s.brinit
    (match s.flushed with
      | none => s.exhaustedInFlush
      | some c => s.setCursor c)))

/-- The number-of-new-passes code (43_bitstream.md R166). -/
def State.getNPasses (s : State) (c : Cursor) : Option (Nat × Cursor) :=
  match s.getBit c with
  | none => none
  | some (false, c1) => some (1, c1)
  | some (true, c1) =>
    match s.getBit c1 with
    | none => none
    | some (false, c2) => some (2, c2)
    | some (true, c2) =>
      match s.getBits 2 0 c2 with
      | none => none
      | some (v, c3) =>
        if v ≠ 3 then some (3 + v, c3)
        else
          match s.getBits 5 0 c3 with
          | none => none
          | some (v, c4) =>
            if v ≠ 31 then some (6 + v, c4)
            else
              match s.getBits 7 0 c4 with
              | none => none
              | some (v, c5) => some (37 + v, c5)

/-- `BR_GETNPASSES` (43_bitstream.md R166). -/
def execBrGetnpasses (s : State) : Host.Outcome State Fault Refusal :=
  .next (s.unlessFaulted (s.requireState s.brinit (s.finishRead (s.getNPasses s.cursor))))

/-- The run of 1 bits of the `Lblock` increment (43_bitstream.md R167), after `n` of them, with at most `k` more bits to
read: `none` is BR_EXHAUSTED. -/
def State.countOnes (s : State) : Nat → Nat → Cursor → Option (Nat × Cursor)
  | 0, _, _ => none
  | k + 1, n, c =>
    match s.getBit c with
    | none => none
    | some (false, c') => some (n, c')
    | some (true, c') => s.countOnes k (n + 1) c'

/-- The bound of 70_reset_and_hazards.md R256 on the bits a command can read before BR_EXHAUSTED. -/
def State.bitBound (s : State) : Nat := 8 * (s.brEnd.toNat - s.brPos.toNat) + s.brBitidx.toNat

/-- `BR_GETLBLKINC` (43_bitstream.md R167): the loop reads at most one bit more than the bound of R256, and that one is
BR_EXHAUSTED (log 9). -/
def execBrGetlblkinc (s : State) : Host.Outcome State Fault Refusal :=
  .next (s.unlessFaulted (s.requireState s.brinit (s.finishRead (s.countOnes (s.bitBound + 1) 0 s.cursor))))

/-- The EPH marker FF 92 stands at the cursor, inside the window (43_bitstream.md R168). -/
def State.ephAtCursor (s : State) : Bool :=
  s.brPos.toNat + 2 ≤ s.brEnd.toNat && s.phByte s.brPos.toNat == 0xFF && s.phByte (s.brPos.toNat + 1) == 0x92

/-- `BR_EPH` (43_bitstream.md R168): a mismatch is a warning, never a fault. -/
def execBrEph (s : State) : Host.Outcome State Fault Refusal :=
  .next (s.unlessFaulted (s.requireState (s.brinit && s.byteAligned)
    (if s.ephAtCursor then ({ s with brPos := s.brPos + 2 }).setResult 1 else s.setWarnEph.setResult 0)))

/-- The `len` packet-body bytes at the cursor (43_bitstream.md R169). -/
def State.bodyBytes (s : State) (len : Nat) : List Byte := (List.range len).map fun k => s.phByte (s.brPos.toNat + k)

/-- The end-marker FF FF, where `TERM` asks for it (43_bitstream.md R169). -/
def endMarker (term : Bool) : List Byte := if term then [0xFF, 0xFF] else []

/-- The data part of `BR_SEGCOPY` (43_bitstream.md R169): every check stands before the first write. -/
def State.segcopied (s : State) (len : Half) (term : Bool) (dst : Word) : State :=
  let e := dst.toNat + len.toNat + (endMarker term).length
  if s.brPos.toNat + len.toNat ≤ s.brEnd.toNat then
    if e ≤ s.cfg.cbmemSize.toNat then
      ({ s.cbWriteBytes dst.toNat (s.bodyBytes len.toNat ++ endMarker term) with
          brPos := s.brPos + len.setWidth 32 }).setResult (BitVec.ofNat 32 e)
    else s.raise .cbCapacity
  else s.raise .phSegOverrun

/-- `BR_SEGCOPY` (43_bitstream.md R169). -/
def execBrSegcopy (len : Half) (term : Bool) (dst : Word) (s : State) : Host.Outcome State Fault Refusal :=
  .next (s.unlessFaulted (s.requireState (s.brinit && s.byteAligned) (s.segcopied len term dst)))

end Sys2Proof.Machine
end

