-- ==== Sys2Proof/Machine/Control.lean ====
section
/-! DEFINITION. The control commands (40_control.md). -/

namespace Sys2Proof.Machine

/-- `NOP` (40_control.md R91): nothing changes. -/
def execNop (s : State) : Host.Outcome State Fault Refusal := .next (s.unlessFaulted s)

/-- `RESET` (40_control.md R92): the reset action, faulted or not. -/
def execReset (s : State) : Host.Outcome State Fault Refusal := .next s.resetAction

/-- `REGREAD` (40_control.md R93), accepted while faulted. A reserved number is ILLEGAL_FIELD, refused while faulted. -/
def execRegread (reg : BitVec 8) (s : State) : Host.Outcome State Fault Refusal :=
  .next
    (match s.readRegister reg with
      | some v => s.setResult v
      | none => s.unlessFaulted (s.raise .illegalField))

/-- `CLRWARN` (40_control.md R94). -/
def execClrwarn (s : State) : Host.Outcome State Fault Refusal := .next (s.unlessFaulted s.clearWarnings)

end Sys2Proof.Machine
end

