-- ==== Sys2Proof/Machine/Mq.lean ====
section
/-! DEFINITION. The MQ unit: the procedures of 41_mq_decoder.md R102 to R108 and its four commands (R110 to R113). In the
procedures `none` is MQ_RANGE. -/

namespace Sys2Proof.Machine

/-- `ByteIn()` (41_mq_decoder.md R104) on `MQ_C` and `MQ_BP`. -/
def State.byteIn (s : State) (c bp : Word) : Option (Word × Word) :=
  match s.cbRead bp.toNat with
  | none => none
  | some b =>
    match s.cbRead (bp.toNat + 1) with
    | none => none
    | some next =>
      if b = 0xFF then
        if 0x8F < next then some (c + 0x0001#32, bp)
        else some (c + 0x0002#32 + 0xFE00#32 - (next.setWidth 32 <<< 9), bp + 1)
      else some (c + 0x0001#32 + 0xFF00#32 - (next.setWidth 32 <<< 8), bp + 1)

/-- Byte input where the shift counter `MQ_C[7:0]` has run out (41_mq_decoder.md R102, R105): the spent counter bit is
removed, then `ByteIn()`. -/
def State.refill (s : State) (c bp : Word) : Option (Word × Word) :=
  if c.extractLsb' 0 8 = 0 then s.byteIn (c - 0x100#32) bp else some (c, bp)

/-- `Renormd()` (41_mq_decoder.md R102) with at most `k` doublings left. It is entered with 15, "at most 15 times" by that
rule for the values of `MQ_A` it is entered with (log 8). -/
def State.renormd (s : State) : Nat → MqRegs → Option MqRegs
  | 0, r => some r
  | k + 1, r =>
    match s.refill r.c r.bp with
    | none => none
    | some (c, bp) =>
      let r' : MqRegs := ⟨r.a <<< 1, c <<< 1, bp⟩
      if r'.a.getLsbD 15 then some r' else s.renormd k r'

/-- What a decision gives: the decision, the new state byte of its context, the registers. -/
structure Decision where
  bit : Bool
  context : BitVec 7
  regs : MqRegs
deriving DecidableEq, Repr

/-- `Exchange(cx, lps)` (41_mq_decoder.md R103) with `CX[cx]` = `st`. The MPS is decoded (`likely`) where the test
`MQ_A < q` comes out as `lps` says: "`(MQ_A < q) XOR (lps == 0)`". -/
def State.exchange (s : State) (st : BitVec 7) (lps : Bool) (r : MqRegs) : Option Decision :=
  let q := qe st
  let likely := decide (r.a < q) == lps
  match s.renormd 15 ⟨if lps then q else r.a, r.c, r.bp⟩ with
  | none => none
  | some r' => if likely then some ⟨mps st, nmps st, r'⟩ else some ⟨!mps st, nlps st, r'⟩

/-- `DecideArith(cx)` (41_mq_decoder.md R107) with `CX[cx]` = `st`. -/
def State.decideArith (s : State) (st : BitVec 7) (r : MqRegs) : Option Decision :=
  let a := r.a - qe st
  if r.c.extractLsb' 16 16 < a then
    if a.getLsbD 15 then some ⟨mps st, st, ⟨a, r.c, r.bp⟩⟩
    else s.exchange st false ⟨a, r.c, r.bp⟩
  else s.exchange st true ⟨a, r.c - (a.setWidth 32 <<< 16), r.bp⟩

/-- `RawBit()` (41_mq_decoder.md R105): `MQ_A` and the contexts are neither read nor written. -/
def State.rawBit (s : State) (r : MqRegs) : Option (Bool × MqRegs) :=
  match s.refill r.c r.bp with
  | none => none
  | some (c, bp) => some (!r.c.getLsbD 30, ⟨r.a, c <<< 1, bp⟩)

/-- `InitDec` (41_mq_decoder.md R108), the registers it sets up for a segment at `addr`. -/
def State.initDec (s : State) (addr : Word) : Option MqRegs :=
  match s.cbRead addr.toNat with
  | none => none
  | some b =>
    match s.byteIn ((b ^^^ 0xFF).setWidth 32 <<< 16) addr with
    | none => none
    | some (c, bp) => some ⟨0x8000, c <<< 7, bp⟩

/-- All 19 contexts at their initial states (10_state.md R30). -/
def State.initContexts (s : State) : State := { s with cx := initialContexts }

/-- `MQ_INITCTX` (41_mq_decoder.md R110). -/
def execMqInitctx (s : State) : Host.Outcome State Fault Refusal := .next (s.unlessFaulted s.initContexts)

/-- `MQ_INITDEC` (41_mq_decoder.md R111). -/
def execMqInitdec (raw rst : Bool) (addr : Word) (s : State) : Host.Outcome State Fault Refusal :=
  .next (s.unlessFaulted
    (match s.initDec addr with
      | none => s.rangeInInitdec
      | some r => { (if rst then s.initContexts else s).setMqRegs r with raw := raw, mqinit := true }))

/-- The data part of `MQ_DECODE` in context `i` (41_mq_decoder.md R112). -/
def State.mqDecide (s : State) (i : Fin 19) : State :=
  if s.raw then
    match s.rawBit s.mqRegs with
    | none => s.rangeInDecode i
    | some (bit, r) => (s.setMqRegs r).setResult ((BitVec.ofBool bit).setWidth 32)
  else
    match s.decideArith (s.cx.get i) s.mqRegs with
    | none => s.rangeInDecode i
    | some d => ((s.setMqRegs d.regs).setCx i d.context).setResult ((BitVec.ofBool d.bit).setWidth 32)

/-- `MQ_DECODE` (41_mq_decoder.md R112): `CXI` above 18 is ILLEGAL_FIELD, in raw mode too. -/
def execMqDecode (cxi : BitVec 5) (s : State) : Host.Outcome State Fault Refusal :=
  .next (s.unlessFaulted
    (match contextIndex cxi with
      | none => s.raise .illegalField
      | some i => s.requireState s.mqinit (s.mqDecide i)))

/-- `MQ_CHECKBP` (41_mq_decoder.md R113): a mismatch is a warning, never a fault. -/
def execMqCheckbp (expected : Word) (s : State) : Host.Outcome State Fault Refusal :=
  .next (s.unlessFaulted (s.requireState s.mqinit
    ((if s.mqBp = expected then s else s.setWarnBp).setResult (s.mqBp - expected))))

end Sys2Proof.Machine
end

