-- ==== Sys2Proof/Machine/TagTree.lean ====
section
/-! DEFINITION. The TT unit: the tree layout (42_tag_tree.md R141), the walk and the descent (R146), and its two commands. -/

namespace Sys2Proof.Machine

/-! ### Layout (42_tag_tree.md R141) -/

/-- The grid sizes (w, h) of the levels of a tree over `w` x `h` leaves, leaves first, the 1 x 1 root last, with at most `k`
levels above the first. With 16-bit `w` and `h`, 16 is always enough (R142). -/
def treeLevels : Nat → Nat → Nat → List (Nat × Nat)
  | 0, w, h => [(w, h)]
  | k + 1, w, h => if w = 1 ∧ h = 1 then [(1, 1)] else (w, h) :: treeLevels k ((w + 1) / 2) ((h + 1) / 2)

/-- `N`: the sum of w * h over the levels. -/
def treeSize (levels : List (Nat × Nat)) : Nat := (levels.map fun l => l.1 * l.2).sum

/-- The nodes of a level of width `w` and height `h` by rising index, where the next level begins at node `above` and has
width `wAbove`: row `i`, column `j` has the parent of row `i >> 1`, column `j >> 1`. -/
def levelNodes (w h above wAbove : Nat) : List TagNode :=
  (List.range h).flatMap fun i =>
    (List.range w).map fun j => ⟨true, 0, false, some (above + i / 2 * wAbove + j / 2)⟩

/-- The nodes of a tree whose first level begins at node `off`, by rising index (42_tag_tree.md R141, R145): built, value 0,
unvisited. -/
def treeNodes : Nat → List (Nat × Nat) → List TagNode
  | _, [] => []
  | _, [_] => [⟨true, 0, false, none⟩]
  | off, (w, h) :: (w', h') :: rest =>
    levelNodes w h (off + w * h) w' ++ treeNodes (off + w * h) ((w', h') :: rest)

/-- A run of nodes from index `n` on, as entries of the node file. -/
def indexed : Nat → List TagNode → NodeFile
  | _, [] => []
  | n, v :: vs => (n, v) :: indexed (n + 1) vs

/-- The node file with the built nodes `run` from index `base` on; every other node keeps what it holds. -/
def NodeFile.setRun (f : NodeFile) (base : Nat) (run : List TagNode) : NodeFile :=
  f.filter (fun c => c.1 < base) ++ indexed base run ++ f.filter (fun c => base + run.length ≤ c.1)

/-- `TT_INIT` (42_tag_tree.md R145). -/
def execTtInit (base : BitVec 24) (w h : Half) (s : State) : Host.Outcome State Fault Refusal :=
  .next (s.unlessFaulted (s.requireField (w != 0 && h != 0)
    (let levels := treeLevels 16 w.toNat h.toNat
     if base.toNat + treeSize levels ≤ s.cfg.ttNodes.toNat then
       ({ s with nodes := s.nodes.setRun base.toNat (treeNodes base.toNat levels) }).setResult
         (BitVec.ofNat 32 (treeSize levels))
     else s.raise .ttCapacity)))

/-! ### Decode (42_tag_tree.md R146) -/

/-- The walk up from `n` to the first visited node, with room for so many more nodes on the stack: the stack, top first, and
the visited node the walk stopped at, if any. `none` is TT_DEPTH. -/
def State.walkUp (s : State) : Nat → Option Nat → List Nat → Option (List Nat × Option Nat)
  | _, none, stack => some (stack, none)
  | 0, some n, stack => if (s.node n).vis then some (stack, some n) else none
  | room + 1, some n, stack =>
    if (s.node n).vis then some (stack, some n) else s.walkUp room (s.node n).parent (n :: stack)

/-- The value the descent starts from: that of the first visited ancestor, or of the root. -/
def State.startValue (s : State) : List Nat → Option Nat → Word
  | _, some n => (s.node n).val
  | t :: _, none => (s.node t).val
  | [], none => 0

/-- The unary code of one node (42_tag_tree.md R144, R146) from value `cur`, with `room` values left below the threshold: a
0 bit raises the value, a 1 bit ends the code. The value, whether a 1 was read, and the cursor; `none` is BR_EXHAUSTED. -/
def State.nodeCode (s : State) : Nat → Word → Cursor → Option (Word × Bool × Cursor)
  | 0, cur, c => some (cur, false, c)
  | room + 1, cur, c =>
    match s.getBit c with
    | none => none
    | some (true, c') => some (cur, true, c')
    | some (false, c') => s.nodeCode room (cur + 1) c'

/-- The way down the stack (42_tag_tree.md R146): the value reached, the node file and the cursor; `none` is
BR_EXHAUSTED. -/
def State.descend (s : State) (thr : Word) : List Nat → Word → NodeFile → Cursor → Option (Word × NodeFile × Cursor)
  | [], cur, f, c => some (cur, f, c)
  | t :: stack, cur, f, c =>
    if cur < thr then
      let node := f.node t
      let start := if cur < node.val then node.val else cur
      match s.nodeCode (thr.toNat - start.toNat) start c with
      | none => none
      | some (v, seen, c') => s.descend thr stack v (f.setNode t { node with val := v, vis := node.vis || seen }) c'
    else some (cur, f, c)

/-- The data part of `TT_DECODE` (42_tag_tree.md R146). -/
def State.ttDecide (s : State) (n : Nat) (thr : Word) : State :=
  if n < s.cfg.ttNodes.toNat ∧ (s.node n).valid = true then
    match s.walkUp s.cfg.ttStack (some n) [] with
    | none => s.raise .ttDepth
    | some (stack, top) =>
      match s.descend thr stack (s.startValue stack top) s.nodes s.cursor with
      | none => s.exhaustedInDecode n
      | some (v, f, c) => (({ s with nodes := f }).setCursor c).setResult v
  else s.raise .ttMissingNode

/-- `TT_DECODE` (42_tag_tree.md R146). -/
def execTtDecode (node : BitVec 24) (thr : Word) (s : State) : Host.Outcome State Fault Refusal :=
  .next (s.unlessFaulted (s.requireState s.brinit (s.ttDecide node.toNat thr)))

end Sys2Proof.Machine
end

