-- ==== Sys2Proof/Machine/Dispatch.lean ====
section
/-! DEFINITION. The meaning of every command (40_control.md R90, 30_encoding.md R73). -/

namespace Sys2Proof.Machine

def exec (i : Instr) (s : State) : Host.Outcome State Fault Refusal :=
  match i with
  -- control (40_control.md)
  | .nop => Sys2Proof.Machine.execNop s
  | .reset => Sys2Proof.Machine.execReset s
  | .regread reg => Sys2Proof.Machine.execRegread reg s
  | .clrwarn => Sys2Proof.Machine.execClrwarn s
  -- MQ unit (41_mq_decoder.md)
  | .mqInitctx => Sys2Proof.Machine.execMqInitctx s
  | .mqInitdec raw rst addr => Sys2Proof.Machine.execMqInitdec raw rst addr s
  | .mqDecode cxi => Sys2Proof.Machine.execMqDecode cxi s
  | .mqCheckbp expected => Sys2Proof.Machine.execMqCheckbp expected s
  -- TT unit (42_tag_tree.md)
  | .ttInit base w h => Sys2Proof.Machine.execTtInit base w h s
  | .ttDecode node thr => Sys2Proof.Machine.execTtDecode node thr s
  -- BR unit (43_bitstream.md)
  | .brSetend stop => Sys2Proof.Machine.execBrSetend stop s
  | .brStart pos => Sys2Proof.Machine.execBrStart pos s
  | .brGetbits n => Sys2Proof.Machine.execBrGetbits n s
  | .brFlush => Sys2Proof.Machine.execBrFlush s
  | .brGetnpasses => Sys2Proof.Machine.execBrGetnpasses s
  | .brGetlblkinc => Sys2Proof.Machine.execBrGetlblkinc s
  | .brEph => Sys2Proof.Machine.execBrEph s
  | .brSegcopy len term dst => Sys2Proof.Machine.execBrSegcopy len term dst s

end Sys2Proof.Machine
end

