-- ==== Sys2Proof/Machine/Port.lean ====
section
/-! DEFINITION. The command cycle (40_control.md R90) and the two ports of the block: the command port with its response
(30_encoding.md R71) and the host memory port (20_memory.md R55). -/

namespace Sys2Proof.Machine

/-- The cause of a word that is no command (30_encoding.md R75, R76). -/
def causeOfReject : DecodeError → Cause
  | .reservedOpcode => .illegalOpcode
  | .reservedBits => .illegalField

/-- `Execute(w)` up to its response (40_control.md R90, checks in the order of 30_encoding.md R78). A faulted block refuses
a word that is no command, whatever its opcode (60_exceptions.md R224). -/
def executeWord (w : CommandWord) (s : State) : Host.Outcome State Fault Refusal :=
  match decode w with
  | .ok i => exec i s
  | .error e => .next (s.unlessFaulted (s.raise (causeOfReject e)))

/-- `respond(STATUS, RESULT)` (40_control.md R90). -/
def State.respond (s : State) : State := { s with reply := some (.response s.statusWord s.result) }

/-- The response follows the command's effect, whatever it was: "every command gets exactly one response" (30_encoding.md
R71). -/
def responded : Host.Outcome State Fault Refusal → Host.Outcome State Fault Refusal
  | .next s => .next s.respond
  | .fault r => .fault r
  | .refused r => .refused r

/-- `HostWrite(space, a, v)` (20_memory.md R55). -/
def State.hostWrite (s : State) (space : MemSpace) (a : Word) (v : Byte) : State :=
  if a.toNat < s.sizeOf space then { s.storeByte space a.toNat v with reply := some .written }
  else { s with reply := some .rejected }

/-- `HostRead(space, a)` (20_memory.md R55). -/
def State.hostRead (s : State) (space : MemSpace) (a : Word) : State :=
  if a.toNat < s.sizeOf space then { s with reply := some (.readData (s.byteOf space a.toNat)) }
  else { s with reply := some .rejected }

/-- What the block does with the event the host presents (20_memory.md R61: one at a time). -/
def serve (e : PortEvent) (s : State) : Host.Outcome State Fault Refusal :=
  match e with
  | .command w => responded (executeWord w s)
  | .hostWrite space a v => .next (s.hostWrite space a v)
  | .hostRead space a => .next (s.hostRead space a)

/-- The next event taken from the port and served. A block to which nothing is presented waits, unchanged
(70_reset_and_hazards.md R252). -/
def serveNext (s : State) : Host.Outcome State Fault Refusal :=
  match s.port with
  | [] => .next s
  | e :: rest => serve e { s with port := rest }

/-- The state in which the host presents the word `w` next. -/
def State.present (s : State) (w : CommandWord) : State := { s with port := .command w :: s.port }

end Sys2Proof.Machine
end

