-- ==== Sys2Proof/Machine/Step.lean ====
section
/-! DEFINITION. One step: one command or one host memory access, taken from the port (20_memory.md R61,
70_reset_and_hazards.md R255). -/

namespace Sys2Proof.Machine

/-- One step. -/
def step (s : State) : Host.Outcome State Fault Refusal := serveNext s

/-- `s` with the command word `w`, whose bits from `nbits` up are 0, presented next on the command port: the block fetches
its commands there and nowhere else (20_memory.md R66; log 20). -/
def State.withFetchWord (s : State) (nbits w : Nat) : State := s.present (BitVec.ofNat 64 (w % 2 ^ nbits))

end Sys2Proof.Machine
end

