-- ==== Sys2Proof/Safety.lean ====
section
/-! DEFINITION. The terms claims are made in: the invariant of 10_state.md R43, the header-bit stream the BR cursor reads
(43_bitstream.md R161), the walk, descent and layout of a tag tree (42_tag_tree.md R141, R144, R146), the segments and byte
input of the MQ unit (41_mq_decoder.md R104, R115), the tables of causes (60_exceptions.md R225, R236). No definition of the
machine uses any of them. -/

namespace Sys2Proof

/-- The commands of the MQ unit (30_encoding.md R73). -/
def Instr.inMq : Instr → Bool
  | .mqInitctx => true
  | .mqInitdec _ _ _ => true
  | .mqDecode _ => true
  | .mqCheckbp _ => true
  | _ => false

/-- The commands of the TT and BR units (30_encoding.md R73). -/
def Instr.inTtBr : Instr → Bool
  | .ttInit _ _ _ => true
  | .ttDecode _ _ => true
  | .brSetend _ => true
  | .brStart _ => true
  | .brGetbits _ => true
  | .brFlush => true
  | .brGetnpasses => true
  | .brGetlblkinc => true
  | .brEph => true
  | .brSegcopy _ _ _ => true
  | _ => false

/-- The commands that read PHMEM as header bits, or leave a partly read byte (43_bitstream.md R161 to R167, 42_tag_tree.md
R143); `BR_EPH` and `BR_SEGCOPY` read whole bytes. -/
def Instr.readsHeader : Instr → Bool
  | .ttDecode _ _ => true
  | .brGetbits _ => true
  | .brFlush => true
  | .brGetnpasses => true
  | .brGetlblkinc => true
  | _ => false

/-- The commands that reset nodes (42_tag_tree.md R148). -/
def Instr.resetsNodes : Instr → Bool
  | .reset => true
  | .ttInit _ _ _ => true
  | _ => false

end Sys2Proof

namespace Sys2Proof.Machine

/-! ### The invariant -/

/-- The parent links of the node file (10_state.md R43): the parent of a built node has a greater index, is built, and is a
node of the file. -/
def State.ParentsOk (s : State) : Prop :=
  ∀ n p, (s.node n).valid = true → (s.node n).parent = some p →
    n < p ∧ (s.node p).valid = true ∧ p < s.cfg.ttNodes.toNat

/-- The invariant of 10_state.md R43, with the ranges of the parameters (00_scope.md R7) and the canonical form of the three
stores (log 3, 17). Its clause on `MQ_A` is asked only while `CAUSE` = 0, as R43 says. -/
structure State.Inv (s : State) : Prop where
  config : s.cfg.Valid
  contexts : ∀ i : Fin 19, (s.cx.get i).toNat ≤ 93
  bitidx : s.brBitidx.toNat ≤ 8
  window : s.brEnd.toNat ≤ s.cfg.phmemSize.toNat
  interval : s.cause = .none → s.mqinit = true → 0x8000 ≤ s.mqA.toNat
  parents : s.ParentsOk
  phmem : s.phmem.wf s.cfg.phmemSize.toNat
  cbmem : s.cbmem.wf s.cfg.cbmemSize.toNat
  nodes : s.nodes.wf s.cfg.ttNodes.toNat

/-! ### The header bits -/

/-- The lowest `k` bits of a byte, most significant first (00_scope.md R8). -/
def byteBits (b : Byte) (k : Nat) : List Bool := (List.range k).reverse.map fun i => b.getLsbD i

/-- The header bits of `k` bytes from address `a` on, after the byte `prev`: 7 bits of a byte after a 0xFF, else 8
(43_bitstream.md R161). -/
def State.laterBits (s : State) : Nat → Nat → Byte → List Bool
  | 0, _, _ => []
  | k + 1, a, prev => byteBits (s.phByte a) (if prev = 0xFF then 7 else 8) ++ s.laterBits k (a + 1) (s.phByte a)

/-- The header bits still to come at a cursor: those left of the current byte, then those of the later bytes of the window
`[0, BR_END)`. -/
def State.bitsFrom (s : State) (c : Cursor) : List Bool :=
  if c.pos.toNat < s.brEnd.toNat then
    byteBits (s.phByte c.pos.toNat) c.bitidx.toNat ++
      s.laterBits (s.brEnd.toNat - c.pos.toNat - 1) (c.pos.toNat + 1) (s.phByte c.pos.toNat)
  else []

/-- The header bits still to come. -/
def State.headerBits (s : State) : List Bool := s.bitsFrom s.cursor

/-- The cursor after `k` uses of `GetBit()` (43_bitstream.md R161). -/
def State.cursorAfter (s : State) : Nat → Cursor → Option Cursor
  | 0, c => some c
  | k + 1, c =>
    match s.getBit c with
    | none => none
    | some (_, c') => s.cursorAfter k c'

/-- The unsigned value of bits given most significant first. -/
def bitsValue (bits : List Bool) : Nat := bits.foldl (fun r b => 2 * r + b.toNat) 0

/-- `v` as `n` bits, most significant first. -/
def valueBits (n v : Nat) : List Bool := (List.range n).reverse.map fun i => v.testBit i

/-- The number-of-new-passes code of `p` passes, `1 ≤ p ≤ 164`, as the table of 43_bitstream.md R166 lists it. -/
def passesCode (p : Nat) : List Bool :=
  if p = 1 then [false]
  else if p = 2 then [true, false]
  else if p ≤ 5 then [true, true] ++ valueBits 2 (p - 3)
  else if p ≤ 36 then [true, true, true, true] ++ valueBits 5 (p - 6)
  else [true, true, true, true, true, true, true, true, true] ++ valueBits 7 (p - 37)

/-! ### Tag trees -/

/-- `path` is the walk up from `n`: the unvisited nodes met, lowest first, until `top`, the first visited node, or past the
root where `top` is `none` (42_tag_tree.md R146). -/
def State.IsWalk (s : State) : Option Nat → List Nat → Option Nat → Prop
  | n, [], top => n = top ∧ ∀ a, top = some a → (s.node a).vis = true
  | none, _ :: _, _ => False
  | some n, m :: path, top => m = n ∧ (s.node n).vis = false ∧ s.IsWalk (s.node n).parent path top

/-- The value the descent of a walk starts from: that of the visited node at its end, or of the root where there is none
(42_tag_tree.md R146). -/
def State.walkStart (s : State) (path : List Nat) : Option Nat → Word
  | some a => (s.node a).val
  | none =>
    match path.getLast? with
    | some r => (s.node r).val
    | none => 0

/-- The node `k` steps up from `n` (42_tag_tree.md R141). -/
def State.ancestor (s : State) (n : Nat) : Nat → Option Nat
  | 0 => some n
  | k + 1 => ((s.node n).parent).bind fun p => s.ancestor p k

/-- The unary code of one node from value `cur` under the threshold (42_tag_tree.md R144): the 0 bits each raise the value, a
1 bit ends the code, and the threshold ends it too. The value, whether a 1 was read, the bits left; `none` where the bits run
out. -/
def unaryCode (thr cur : Nat) (bits : List Bool) : Option (Nat × Bool × List Bool) :=
  let zeros := (bits.takeWhile (! ·)).length
  if thr - cur ≤ zeros then some (cur + (thr - cur), false, bits.drop (thr - cur))
  else if zeros < bits.length then some (cur + zeros, true, bits.drop (zeros + 1))
  else none

/-- The descent over the values of the walk's nodes, root first, from value `cur` (42_tag_tree.md R146): what each node met
before the threshold holds afterwards, the value reached, the bits left; `none` where the bits run out. -/
def tagDescent (thr : Nat) : List Nat → Nat → List Bool → Option (List (Nat × Bool) × Nat × List Bool)
  | [], cur, bits => some ([], cur, bits)
  | v :: vs, cur, bits =>
    if thr ≤ cur then some ([], cur, bits)
    else
      match unaryCode thr (max cur v) bits with
      | none => none
      | some (x, seen, left) =>
        match tagDescent thr vs x left with
        | none => none
        | some (xs, y, rest) => some ((x, seen) :: xs, y, rest)

/-- The nodes `path`, root first, take the values and visited flags of `news`, as far as these go; every other node is as in
`s`. -/
def State.nodesAfter (s : State) : List Nat → List (Nat × Bool) → Nat → TagNode
  | n :: path, (v, seen) :: news, m =>
    if m = n then { s.node n with val := BitVec.ofNat 32 v, vis := seen } else s.nodesAfter path news m
  | _, _, m => s.node m

/-- The order of reads that the proof in 42_tag_tree.md R147 item 3 starts from: a node with a value above 0 has a visited
parent. -/
def State.ReadOrder (s : State) : Prop := ∀ n p, (s.node n).val ≠ 0 → (s.node n).parent = some p → (s.node p).vis = true

/-- The order of reads where no threshold of a node's tree was above the node's `bound`: a node with a value above 0 has a
visited parent, and as long as the node is not visited, its parent's value was below such a threshold when the node's own
bits were read (42_tag_tree.md R146). -/
def State.ReadWithin (s : State) (bound : Nat → Nat) : Prop :=
  ∀ n p, (s.node n).val ≠ 0 → (s.node n).parent = some p →
    (s.node p).vis = true ∧ ((s.node n).vis = false → (s.node p).val.toNat < bound n)

/-- Every node of a tree has its tree's bound, or at least none above its parent's. -/
def State.BoundsRise (s : State) (bound : Nat → Nat) : Prop := ∀ n p, (s.node n).parent = some p → bound n ≤ bound p

/-- The width (or height) of level `k` of a tree over `w` leaves: halved, rounded up, `k` times (42_tag_tree.md R141). -/
def levelDim (w : Nat) : Nat → Nat
  | 0 => w
  | k + 1 => (levelDim w k + 1) / 2

/-- How many nodes lie in the first `k` levels of a tree over `w` x `h` leaves: `off_k` - `base` (42_tag_tree.md R141). -/
def levelOffset (w h : Nat) : Nat → Nat
  | 0 => 0
  | k + 1 => levelOffset w h k + levelDim w k * levelDim h k

/-- The root level `K` (42_tag_tree.md R142): the logarithm of the greater side to base 2, rounded up. -/
def rootLevel (w h : Nat) : Nat := Nat.clog 2 (max w h)

/-- `N`, the nodes of all levels 0 to `K` (42_tag_tree.md R141). -/
def treeCount (w h : Nat) : Nat := levelOffset w h (rootLevel w h + 1)

/-! ### MQ segments -/

/-- CBMEM holds a segment of bytes at `[first, stop)` and its terminator FF FF at `stop` and `stop + 1` (41_mq_decoder.md
R115). -/
def State.Terminated (s : State) (first stop : Nat) : Prop :=
  first ≤ stop ∧ stop + 1 < s.cfg.cbmemSize.toNat ∧ s.cbByte stop = 0xFF ∧ s.cbByte (stop + 1) = 0xFF

/-- One use of `ByteIn()` from the code register `c` and the byte pointer `bp` leaves `c'` and `bp'` (41_mq_decoder.md R104):
a marker is not passed; a byte after a 0xFF adds 7 bits, any other 8, complemented, and the counter bit. -/
def State.ByteInput (s : State) (c bp c' bp' : Word) : Prop :=
  let b := s.cbByte bp.toNat
  let next := s.cbByte (bp.toNat + 1)
  if b = 0xFF ∧ 0x8F < next.toNat then c' = c + 1 ∧ bp' = bp
  else bp'.toNat = bp.toNat + 1 ∧
    if b = 0xFF then c' = c + BitVec.ofInt 32 (2 + 512 * (127 - (next.toNat : Int)))
    else c' = c + BitVec.ofNat 32 (1 + 256 * (255 - next.toNat))

/-- A byte input is due and cannot be made: the shift counter of the code register `c` is spent and the byte after the
pointer `bp` lies outside CBMEM (41_mq_decoder.md R104, R112). -/
def State.InputMissing (s : State) (c bp : Word) : Prop := c.toNat % 256 = 0 ∧ s.cfg.cbmemSize.toNat ≤ bp.toNat + 1

/-- One round of the loop of `Renormd()` on `MQ_C` and `MQ_BP`, from `c` and `bp` to `c'` and `bp'` (41_mq_decoder.md R102;
the same round ends `RawBit()`, R105): where the counter is spent its bit is removed and a byte is input, then the code
register is doubled. -/
def State.Doubled (s : State) (c bp c' bp' : Word) : Prop :=
  ∃ filled : Word, c' = filled <<< 1 ∧
    if c.toNat % 256 = 0 then bp.toNat + 1 < s.cfg.cbmemSize.toNat ∧ s.ByteInput (c - 0x100) bp filled bp'
    else filled = c ∧ bp' = bp

/-- `n` rounds one after the other. -/
def State.DoubledTimes (s : State) : Nat → Word → Word → Word → Word → Prop
  | 0, c, bp, c', bp' => c' = c ∧ bp' = bp
  | n + 1, c, bp, c', bp' => ∃ c₁ bp₁, s.Doubled c bp c₁ bp₁ ∧ s.DoubledTimes n c₁ bp₁ c' bp'

/-- One of `n` rounds needs a byte outside CBMEM. -/
def State.RunsOut (s : State) : Nat → Word → Word → Prop
  | 0, _, _ => False
  | n + 1, c, bp => s.InputMissing c bp ∨ ∃ c₁ bp₁, s.Doubled c bp c₁ bp₁ ∧ s.RunsOut n c₁ bp₁

/-! ### Encodings, commands and causes -/

/-- The opcodes 30_encoding.md R75 lists as reserved. -/
def reservedOpcode (opc : BitVec 8) : Bool :=
  (0x04 ≤ opc && opc ≤ 0x0F) || (0x14 ≤ opc && opc ≤ 0x1F) || (0x22 ≤ opc && opc ≤ 0x2F) || 0x38 ≤ opc

/-- The codes of the table of 60_exceptions.md R221. -/
def causeTable : List (Cause × Nat) :=
  [(.none, 0), (.brExhausted, 1), (.ttMissingNode, 2), (.phSegOverrun, 3), (.mqRange, 4), (.ttCapacity, 5), (.cbCapacity, 6),
    (.illegalOpcode, 7), (.illegalField, 8), (.illegalState, 9), (.ttDepth, 10)]

/-- The causes the table of 60_exceptions.md R236 lists for a command, by opcode, in state `s`. -/
def State.listedCauses (s : State) : Instr → List Cause
  | .nop => [.illegalField]
  | .reset => [.illegalField]
  | .regread _ => [.illegalField]
  | .clrwarn => [.illegalField]
  | .mqInitctx => [.illegalField]
  | .mqInitdec _ _ _ => [.illegalField, .mqRange]
  | .mqDecode _ => [.illegalField, .mqRange] ++ if s.mqinit then [] else [.illegalState]
  | .mqCheckbp _ => [.illegalField] ++ if s.mqinit then [] else [.illegalState]
  | .ttInit _ _ _ => [.illegalField, .ttCapacity]
  | .ttDecode _ _ => [.ttMissingNode, .ttDepth, .brExhausted] ++ if s.brinit then [] else [.illegalState]
  | .brSetend _ => [.illegalField]
  | .brStart _ => [.illegalField]
  | .brGetbits _ => [.illegalField, .brExhausted] ++ if s.brinit then [] else [.illegalState]
  | .brFlush => [.illegalField, .brExhausted] ++ if s.brinit then [] else [.illegalState]
  | .brGetnpasses => [.illegalField, .brExhausted] ++ if s.brinit then [] else [.illegalState]
  | .brGetlblkinc => [.illegalField, .brExhausted] ++ if s.brinit then [] else [.illegalState]
  | .brEph => [.illegalField] ++ if s.brinit ∧ s.brBitidx = 8 then [] else [.illegalState]
  | .brSegcopy _ _ _ =>
    [.illegalField, .phSegOverrun, .cbCapacity] ++ if s.brinit ∧ s.brBitidx = 8 then [] else [.illegalState]

/-- The causes that leave everything but `STATUS` as it was (60_exceptions.md R225). -/
def preCheckCauses : List Cause :=
  [.illegalOpcode, .illegalField, .illegalState, .ttMissingNode, .ttDepth, .ttCapacity, .phSegOverrun, .cbCapacity]

/-- `s` with the registers of the TT and BR units and PHMEM of `u`. -/
def State.withTtBrOf (s u : State) : State :=
  { s with brPos := u.brPos, brEnd := u.brEnd, brBitidx := u.brBitidx, brinit := u.brinit, nodes := u.nodes, phmem := u.phmem }

/-- `s` with the registers of the MQ unit of `u`. -/
def State.withMqOf (s u : State) : State :=
  { s with mqA := u.mqA, mqC := u.mqC, mqBp := u.mqBp, raw := u.raw, mqinit := u.mqinit, cx := u.cx }

/-- The state after commands executed one after the other (20_memory.md R61); `none` where one has no next state. -/
def State.afterAll : List Instr → State → Option State
  | [], s => some s
  | i :: is, s =>
    match exec i s with
    | .next t => State.afterAll is t
    | .fault _ => none
    | .refused _ => none

/-- Every register and every node holds its reset value (10_state.md R42). -/
def State.AtResetValues (s : State) : Prop :=
  s.statusWord = 0 ∧ s.result = 0 ∧ s.mqA = 0 ∧ s.mqC = 0 ∧ s.mqBp = 0 ∧ s.raw = false ∧ s.mqinit = false ∧
    (∀ i : Fin 19, (s.cx.get i).toNat = if i.val = 0 then 8 else if i.val = 17 then 92 else if i.val = 18 then 6 else 0) ∧
    s.brPos = 0 ∧ s.brEnd = 0 ∧ s.brBitidx = 8 ∧ s.brinit = false ∧
    ∀ n, (s.node n).valid = false ∧ (s.node n).val = 0 ∧ (s.node n).vis = false ∧ (s.node n).parent = none

end Sys2Proof.Machine
end

