-- ==== Sys2Proof/WellFormed.lean ====
section
/-! DEFINITION. The value checks of 30_encoding.md R74 as a check on commands. A command that fails it is no stop: it
raises ILLEGAL_FIELD when it is executed (R76). -/

namespace Sys2Proof

/-- The register numbers 10_state.md R39 defines. -/
def registerDefined (reg : BitVec 8) : Bool :=
  reg ≤ 0x05 || (0x08 ≤ reg && reg ≤ 0x0B) || (0x10 ≤ reg && reg ≤ 0x22) || (0x30 ≤ reg && reg ≤ 0x33)

/-- The value checks of 30_encoding.md R74, column "value check", one arm per command. -/
def Instr.wellFormed (cfg : Config) : Instr → Bool
  | .nop => true
  | .reset => true
  | .regread reg => registerDefined reg
  | .clrwarn => true
  | .mqInitctx => true
  | .mqInitdec _ _ _ => true
  | .mqDecode cxi => cxi ≤ 18
  | .mqCheckbp _ => true
  | .ttInit _ w h => w != 0 && h != 0
  | .ttDecode _ _ => true
  | .brSetend stop => stop ≤ cfg.phmemSize
  | .brStart _ => true
  | .brGetbits n => n ≤ 32
  | .brFlush => true
  | .brGetnpasses => true
  | .brGetlblkinc => true
  | .brEph => true
  | .brSegcopy _ _ _ => true

end Sys2Proof
end

