-- ==== Sys2Proof/Certificates/Slice0/Obligations.lean ====
section
/-! DEFINITION. The statements for the provers. Each docstring names the rule of spec/ it formalises, or, where it rests on a
choice of the model, the log entry. -/

section

open Sys2Proof Sys2Proof.Machine

/-! ### Encoding (30_encoding.md) -/

/-- R70, R73, R74: the decoder reads back every command the encoder writes, each operand at every value of its field. -/
def Obligations.DecodeReadsBackEncode : Prop := ∀ i : Instr, decode (encode i) = .ok i

/-- R74: a word has one meaning: the only word that decodes to a command is the one the encoder writes for it. -/
def Obligations.EncodeReadsBackDecode : Prop :=
  ∀ (w : CommandWord) (i : Instr), decode w = .ok i → encode i = w

/-- R74: "A word matches an opcode's row when `(word & mask) == match`": the decoder gives a command of a row exactly to the
words that match the row. -/
def Obligations.DecodeFollowsRowMasks : Prop :=
  ∀ (w : CommandWord) (i : Instr),
    w &&& rowMask i = rowMatch i ↔ ∃ j, decode w = .ok j ∧ opcodeOf j = opcodeOf i

/-- R75: the listed opcodes are those of no command, and a word with one of them is ILLEGAL_OPCODE whatever its operands. -/
def Obligations.ReservedOpcodesFault : Prop :=
  (∀ opc, reservedOpcode opc = true ↔ ∀ i, opcodeOf i ≠ opc) ∧
  ∀ (opc : BitVec 8) (a : BitVec 24) (b : Word) (s : State), reservedOpcode opc = true → s.cause = .none →
    executeWord (commandWord opc a b) s = .next { s with cause := .illegalOpcode }

/-- R76: a word with a defined opcode that fails its row's zero or value checks is ILLEGAL_FIELD and has no other effect; a
faulted block refuses it. -/
def Obligations.MalformedWordsFault : Prop :=
  ∀ (w : CommandWord) (s : State), reservedOpcode (opcField w) = false →
    (∀ i, decode w = .ok i → i.wellFormed s.cfg = false) →
    executeWord w s = .next (if s.cause = .none then { s with cause := .illegalField } else s)

/-- R74, R80: example words of the spec decode to the commands they stand for. -/
def Obligations.ExampleWordsDecode : Prop :=
  decode 0x0200000200000000 = .ok (.regread 0x02) ∧ decode 0x1100000200000000 = .ok (.mqInitdec false true 0) ∧
  decode 0x1200001100000000 = .ok (.mqDecode 17) ∧ decode 0x2000000000030002 = .ok (.ttInit 0 3 2) ∧
  decode 0x2100000000000001 = .ok (.ttDecode 0 1) ∧ decode 0x3701000300000010 = .ok (.brSegcopy 3 true 0x10)

/-! ### The command cycle and the ports (40_control.md, 20_memory.md) -/

/-- R90: a step takes the word the host presents, executes the command it decodes to, and responds. -/
def Obligations.StepRunsCommand : Prop :=
  ∀ (s : State) (w : CommandWord) (rest : List PortEvent) (i : Instr) (t : State),
    s.port = .command w :: rest → decode w = .ok i → exec i { s with port := rest } = .next t →
    step s = .next { t with reply := some (.response t.statusWord t.result) }

/-- R71: every presented word gets one response, with the values `STATUS` and `RESULT` hold after it, and takes nothing else
from the port. -/
def Obligations.EveryWordGetsOneResponse : Prop :=
  ∀ (s : State) (w : CommandWord) (rest : List PortEvent), s.port = .command w :: rest →
    ∃ t, executeWord w { s with port := rest } = .next t ∧ t.port = rest ∧
      step s = .next { t with reply := some (.response t.statusWord t.result) }

/-- R55: a host write stores the byte and changes nothing else, a host read returns the byte, an access at or past the size
is rejected and changes nothing; faulted or not. -/
def Obligations.HostPortReadsAndWrites : Prop :=
  ∀ (s : State) (space : MemSpace) (a : Word) (v : Byte) (rest : List PortEvent),
    (s.phmem.wf s.cfg.phmemSize.toNat → s.cbmem.wf s.cfg.cbmemSize.toNat →
      s.port = .hostWrite space a v :: rest → a.toNat < s.sizeOf space →
      ∃ ph cb, step s = .next { s with port := rest, reply := some .written, phmem := ph, cbmem := cb } ∧
        ∀ sp b, ({ s with phmem := ph, cbmem := cb } : State).byteOf sp b =
          if sp = space ∧ b = a.toNat then v else s.byteOf sp b) ∧
    (s.port = .hostRead space a :: rest → a.toNat < s.sizeOf space →
      step s = .next { s with port := rest, reply := some (.readData (s.byteOf space a.toNat)) }) ∧
    (s.port = .hostWrite space a v :: rest ∨ s.port = .hostRead space a :: rest → s.sizeOf space ≤ a.toNat →
      step s = .next { s with port := rest, reply := some .rejected })

/-- R51, R65, R170: no command writes PHMEM, and none but `BR_SEGCOPY` writes CBMEM. -/
def Obligations.OnlySegcopyWritesMemory : Prop :=
  ∀ (i : Instr) (s t : State), exec i s = .next t →
    t.phmem = s.phmem ∧ (t.cbmem = s.cbmem ∨ ∃ len term dst, i = .brSegcopy len term dst)

/-- The model's form of a memory (log 3): canonical memories that read the same are the same data. -/
def Obligations.CanonicalMemoryIsItsBytes : Prop :=
  ∀ (size : Nat) (m m' : Memory), m.wf size → m'.wf size → (∀ a, m.read a = m'.read a) → m = m'

/-! ### Faults and warnings (60_exceptions.md) -/

/-- R22, R221: the fields of `STATUS`, the code of each of the eleven causes, and the reserved bits read 0. -/
def Obligations.StatusFields : Prop :=
  ∀ s : State, s.statusWord.extractLsb' 0 8 = s.cause.code ∧ s.statusWord.extractLsb' 8 3 = s.cause.cls ∧
    s.statusWord.extractLsb' 11 5 = 0 ∧ s.statusWord.getLsbD 16 = (s.cause != .none) ∧
    s.statusWord.getLsbD 17 = s.warnEph ∧ s.statusWord.getLsbD 18 = s.warnBp ∧ s.statusWord.extractLsb' 19 13 = 0 ∧
    ∃ n, (s.cause, n) ∈ causeTable ∧ (s.statusWord.extractLsb' 0 8).toNat = n

/-- R222: `CLASS`, `STATUS[10:8]`, is a function of `CAUSE` alone, by the table of codes. -/
def Obligations.ClassOfCause : Prop :=
  ∀ s : State, let code := (s.statusWord.extractLsb' 0 8).toNat
    (s.statusWord.extractLsb' 8 3).toNat =
      if code = 0 then 0 else if code ∈ [1, 2, 3, 4, 10] then 1 else if code ∈ [5, 6] then 3 else 4

/-- R224: a faulted block refuses every word but a well-formed `REGREAD` or `RESET`: no effect, and a response that repeats
`STATUS` and `RESULT`. -/
def Obligations.FaultedBlockRefuses : Prop :=
  ∀ (s : State) (w : CommandWord) (rest : List PortEvent), s.port = .command w :: rest → s.cause ≠ .none →
    w ≠ encode .reset → (∀ reg, registerDefined reg = true → w ≠ encode (.regread reg)) →
    step s = .next { s with port := rest, reply := some (.response s.statusWord s.result) }

/-- R223, R228: the first fault stays recorded, and only a `RESET` word leaves the faulted state. -/
def Obligations.OnlyResetLeavesFault : Prop :=
  ∀ s t : State, step s = .next t → s.cause ≠ .none →
    t.cause = s.cause ∨ (t.cause = .none ∧ ∃ rest, s.port = .command (encode .reset) :: rest)

/-- R236: each command raises only the causes its row lists and sets or clears only the warnings its row lists, a reserved
opcode only ILLEGAL_OPCODE, and a faulted block refuses every command but `RESET` and `REGREAD`. -/
def Obligations.CausesByCommand : Prop :=
  ∀ (w : CommandWord) (s t : State), executeWord w s = .next t →
    (s.cause = .none → t.cause ≠ .none →
      (reservedOpcode (opcField w) = true → t.cause = .illegalOpcode) ∧
      ∀ i, opcodeOf i = opcField w → t.cause ∈ s.listedCauses i) ∧
    (t.warnEph ≠ s.warnEph →
      if t.warnEph then opcField w = opcodeOf .brEph else opcField w = opcodeOf .reset ∨ opcField w = opcodeOf .clrwarn) ∧
    (t.warnBp ≠ s.warnBp →
      if t.warnBp then opcField w = opcodeOf (.mqCheckbp 0)
      else opcField w = opcodeOf .reset ∨ opcField w = opcodeOf .clrwarn) ∧
    (w = encode .reset ∨ (w = encode .clrwarn ∧ s.cause = .none) → t.warnEph = false ∧ t.warnBp = false) ∧
    (s.cause ≠ .none → opcField w ≠ opcodeOf .reset → opcField w ≠ opcodeOf (.regread 0) → t = s)

/-- R225, first part: a pre-check fault changes `STATUS` alone. -/
def Obligations.PreCheckFaultsChangeStatusOnly : Prop :=
  ∀ (w : CommandWord) (s t : State), executeWord w s = .next t → s.cause = .none → t.cause ∈ preCheckCauses →
    t = { s with cause := t.cause }

/-- R225, the rows of BR_EXHAUSTED: what a command that runs out of header bits may leave open, and that all else is
unchanged. `draws` is the model's own (log 4, 5). -/
def Obligations.ExhaustedLeavesOpenOnly : Prop :=
  ∀ (i : Instr) (s t : State), exec i s = .next t → s.cause = .none → t.cause = .brExhausted →
    s.nodes.wf s.cfg.ttNodes.toNat →
    t = { s with
      cause := .brExhausted, brPos := t.brPos, brBitidx := t.brBitidx, result := t.result, nodes := t.nodes,
      draws := s.draws + 1 } ∧
    t.brBitidx.toNat ≤ 8 ∧ (i = .brFlush → t.result = s.result) ∧
    ((∀ node thr, i ≠ .ttDecode node thr) → t.nodes = s.nodes) ∧
    ∀ node thr, i = .ttDecode node thr → ∀ m,
      (t.node m).valid = (s.node m).valid ∧ (t.node m).parent = (s.node m).parent ∧
        ((∀ k, s.ancestor node.toNat k ≠ some m) → t.node m = s.node m)

/-- R225, the rows of MQ_RANGE: what an MQ command that reads past CBMEM may leave open, in the legal ranges, and that all
else is unchanged. `draws` is the model's own (log 4, 5). -/
def Obligations.RangeFaultLeavesOpenOnly : Prop :=
  ∀ (i : Instr) (s t : State), exec i s = .next t → s.cause = .none → t.cause = .mqRange →
    (∃ raw rst addr, i = .mqInitdec raw rst addr ∧
      t = { s with
        cause := .mqRange, mqA := t.mqA, mqC := t.mqC, mqBp := t.mqBp, raw := t.raw, mqinit := t.mqinit, cx := t.cx,
        draws := s.draws + 1 } ∧
      ∀ c : Fin 19, (t.cx.get c).toNat ≤ 93) ∨
    ∃ cxi, ∃ c : Fin 19, i = .mqDecode cxi ∧ cxi.toNat = c.val ∧
      t = { s with
        cause := .mqRange, mqA := t.mqA, mqC := t.mqC, mqBp := t.mqBp, cx := s.cx.set c (t.cx.get c),
        result := t.result, draws := s.draws + 1 } ∧
      (t.cx.get c).toNat ≤ 93

/-- R78 step 4, R236: a command whose unit is not initialized, or off a byte boundary where it needs one, is ILLEGAL_STATE
and has no other effect. -/
def Obligations.UninitializedUnitsFault : Prop :=
  ∀ (s : State), s.cause = .none →
    (s.mqinit = false →
      (∀ cxi : BitVec 5, cxi.toNat ≤ 18 → exec (.mqDecode cxi) s = .next { s with cause := .illegalState }) ∧
      ∀ e, exec (.mqCheckbp e) s = .next { s with cause := .illegalState }) ∧
    (s.brinit = false →
      (∀ node thr, exec (.ttDecode node thr) s = .next { s with cause := .illegalState }) ∧
      (∀ n : BitVec 6, n.toNat ≤ 32 → exec (.brGetbits n) s = .next { s with cause := .illegalState }) ∧
      exec .brFlush s = .next { s with cause := .illegalState } ∧
      exec .brGetnpasses s = .next { s with cause := .illegalState } ∧
      exec .brGetlblkinc s = .next { s with cause := .illegalState }) ∧
    (s.brinit = false ∨ s.brBitidx ≠ 8 →
      exec .brEph s = .next { s with cause := .illegalState } ∧
      ∀ len term dst, exec (.brSegcopy len term dst) s = .next { s with cause := .illegalState })

/-! ### Reset and the invariant (70_reset_and_hazards.md, 10_state.md) -/

/-- R250: `RESET` and power-on give every register and node its reset value; `RESET` leaves both memories and the parameters
as they are. -/
def Obligations.ResetAction : Prop :=
  (∀ s : State, ∃ t, exec .reset s = .next t ∧ t.AtResetValues ∧ t.phmem = s.phmem ∧ t.cbmem = s.cbmem ∧ t.cfg = s.cfg) ∧
  ∀ cfg ph cb, (State.powerOn cfg ph cb).AtResetValues ∧ (State.powerOn cfg ph cb).phmem = ph ∧
    (State.powerOn cfg ph cb).cbmem = cb ∧ (State.powerOn cfg ph cb).cfg = cfg

/-- R43 with the parameter ranges of R7 and the canonical form of the stores (log 3, 17): every step keeps the invariant. -/
def Obligations.StepKeepsInvariant : Prop := ∀ s t : State, s.Inv → step s = .next t → t.Inv

/-- R43 at power-on (R251), for every choice of parameters in range and every content of the memories; so in particular at
the model's reset state, whose parameters and memories are its own (log 2, 3). -/
def Obligations.PowerOnHasInvariant : Prop :=
  (∀ cfg ph cb, Config.Valid cfg → Memory.wf cfg.phmemSize.toNat ph → Memory.wf cfg.cbmemSize.toNat cb →
    (State.powerOn cfg ph cb).Inv) ∧
  State.reset.Inv

/-! ### Control commands (40_control.md) -/

/-- R91: `NOP` completes and changes nothing; with a nonzero field it is ILLEGAL_FIELD; faulted, it is refused. -/
def Obligations.NopChangesNothing : Prop :=
  ∀ s : State,
    (s.cause = .none → exec .nop s = .next s) ∧
    ∀ (a : BitVec 24) (b : Word), executeWord (commandWord 0x00 a b) s = .next
      (if s.cause ≠ .none ∨ (a = 0 ∧ b = 0) then s else { s with cause := .illegalField })

/-- R94: `CLRWARN` clears both warnings and nothing else; with a nonzero field it is ILLEGAL_FIELD; faulted, it is refused. -/
def Obligations.ClrwarnClearsWarnings : Prop :=
  ∀ s : State,
    (s.cause = .none → exec .clrwarn s = .next { s with warnEph := false, warnBp := false }) ∧
    ∀ (a : BitVec 24) (b : Word), executeWord (commandWord 0x03 a b) s = .next
      (if s.cause ≠ .none then s
      else if a = 0 ∧ b = 0 then { s with warnEph := false, warnBp := false }
      else { s with cause := .illegalField })

/-- R39: the register map, faulted or not; a number not listed is ILLEGAL_FIELD. -/
def Obligations.RegreadFollowsRegisterMap : Prop :=
  ∀ s : State,
    exec (.regread 0x00) s = .next { s with result := s.statusWord } ∧
    exec (.regread 0x01) s = .next s ∧
    exec (.regread 0x02) s = .next { s with result := 0x4D515450 } ∧
    exec (.regread 0x03) s = .next { s with result := s.cfg.ttNodes } ∧
    exec (.regread 0x04) s = .next { s with result := s.cfg.phmemSize } ∧
    exec (.regread 0x05) s = .next { s with result := s.cfg.cbmemSize } ∧
    exec (.regread 0x08) s = .next { s with result := s.mqA.setWidth 32 } ∧
    exec (.regread 0x09) s = .next { s with result := s.mqC } ∧
    exec (.regread 0x0A) s = .next { s with result := s.mqBp } ∧
    exec (.regread 0x0B) s = .next { s with result := BitVec.ofNat 32 (s.raw.toNat + 2 * s.mqinit.toNat) } ∧
    (∀ i : Fin 19, exec (.regread (BitVec.ofNat 8 (0x10 + i.val))) s =
      .next { s with result := (s.cx.get i).setWidth 32 }) ∧
    exec (.regread 0x30) s = .next { s with result := s.brPos } ∧
    exec (.regread 0x31) s = .next { s with result := s.brEnd } ∧
    exec (.regread 0x32) s = .next { s with result := s.brBitidx.setWidth 32 } ∧
    exec (.regread 0x33) s = .next { s with result := BitVec.ofNat 32 s.brinit.toNat } ∧
    ∀ reg, reg = 0x06 ∨ reg = 0x07 ∨ (0x0C ≤ reg ∧ reg ≤ 0x0F) ∨ (0x23 ≤ reg ∧ reg ≤ 0x2F) ∨ 0x34 ≤ reg →
      exec (.regread reg) s = .next (if s.cause = .none then { s with cause := .illegalField } else s)

/-! ### MQ unit (41_mq_decoder.md) -/

/-- R106: the transitions over the Qe ROM, closed on the legal state bytes; the MPS is kept by `nmps` and flipped by `nlps`
exactly in states 0, 6 and 14. -/
def Obligations.ContextTransitions : Prop :=
  ∀ st : BitVec 7, st.toNat ≤ 93 →
    let row := qeRow (st.toNat / 2)
    qe st = row.qe ∧ (mps st).toNat = st.toNat % 2 ∧
    (nmps st).toNat = 2 * row.nmps + st.toNat % 2 ∧ (nlps st).toNat = 2 * row.nlps + (st.toNat % 2 ^^^ row.switch.toNat) ∧
    (nmps st).toNat ≤ 93 ∧ (nlps st).toNat ≤ 93 ∧ mps (nmps st) = mps st ∧
    (mps (nlps st) ≠ mps st ↔ st.toNat / 2 ∈ [0, 6, 14])

/-- R30, R110: `MQ_INITCTX`, `MQ_INITDEC` with `RST` = 1 and reset load the table of initial context states; `MQ_INITCTX`
changes nothing else. -/
def Obligations.InitialContextsLoaded : Prop :=
  ∀ s : State,
    let initial (v : Vector (BitVec 7) 19) := ∀ i : Fin 19,
      (v.get i).toNat = if i.val = 0 then 8 else if i.val = 17 then 92 else if i.val = 18 then 6 else 0
    (s.cause = .none → ∃ v, exec .mqInitctx s = .next { s with cx := v } ∧ initial v) ∧
    (∀ raw addr t, s.cause = .none → exec (.mqInitdec raw true addr) s = .next t → t.cause = .none → initial t.cx) ∧
    (∀ t, exec .reset s = .next t → initial t.cx) ∧ ∀ cfg ph cb, initial (State.powerOn cfg ph cb).cx

/-- R104: `ByteIn()`: 7 bits after a 0xFF, a marker is held, and MQ_RANGE where the byte after the pointer lies outside
CBMEM. -/
def Obligations.ByteInFollowsEscapes : Prop :=
  ∀ (s : State) (c bp : Word),
    (bp.toNat + 1 < s.cfg.cbmemSize.toNat → ∃ c' bp', s.byteIn c bp = some (c', bp') ∧ s.ByteInput c bp c' bp') ∧
    (s.cfg.cbmemSize.toNat ≤ bp.toNat + 1 → s.byteIn c bp = none)

/-- R108, R111: `MQ_INITDEC` starts a segment from its first byte and one byte input, or is MQ_RANGE where these lie outside
CBMEM. -/
def Obligations.InitdecStartsSegment : Prop :=
  ∀ (s : State) (raw rst : Bool) (addr : Word), s.cause = .none →
    (addr.toNat + 1 < s.cfg.cbmemSize.toNat →
      ∃ c bp, s.ByteInput (BitVec.ofNat 32 (65536 * (255 - (s.cbByte addr.toNat).toNat))) addr c bp ∧
        exec (.mqInitdec raw rst addr) s = .next { s with
          mqA := 0x8000, mqC := c <<< 7, mqBp := bp, raw := raw, mqinit := true,
          cx := if rst then initialContexts else s.cx }) ∧
    (s.cfg.cbmemSize.toNat ≤ addr.toNat + 1 →
      ∃ t, exec (.mqInitdec raw rst addr) s = .next t ∧ t.cause = .mqRange)

/-- R102, R103, R107, R112: one arithmetic decision. Without renormalization only `MQ_A` and `RESULT` change, and no byte is
read. Else the interval chosen is doubled until it reaches 0x8000, each doubling with its byte input where the counter is
spent; MPS or LPS and its transition follow from the conditional exchange; and a byte input outside CBMEM is MQ_RANGE, which
two bytes after the pointer exclude. -/
def Obligations.MqDecodeArithmetic : Prop :=
  ∀ (s : State) (cxi : BitVec 5) (i : Fin 19),
    s.cause = .none → s.mqinit = true → s.raw = false → cxi.toNat = i.val → 0x8000 ≤ s.mqA.toNat →
    (s.cx.get i).toNat ≤ 93 →
    let st := s.cx.get i
    let q := (qe st).toNat
    let a := s.mqA.toNat - q
    let high := s.mqC.toNat / 2 ^ 16
    (high < a → 0x8000 ≤ a →
      exec (.mqDecode cxi) s = .next { s with
        mqA := BitVec.ofNat 16 a, result := (BitVec.ofBool (mps st)).setWidth 32 }) ∧
    (¬ (high < a ∧ 0x8000 ≤ a) →
      let interval := if high < a then a else q
      let code := if high < a then s.mqC else s.mqC - BitVec.ofNat 32 (a * 2 ^ 16)
      let lps := decide (a < q) == decide (high < a)
      ∃ n, 1 ≤ n ∧ n ≤ 15 ∧ 0x8000 ≤ interval * 2 ^ n ∧ interval * 2 ^ n < 0x10000 ∧
        (¬ s.RunsOut n code s.mqBp →
          ∃ c bp, s.DoubledTimes n code s.mqBp c bp ∧
            exec (.mqDecode cxi) s = .next { s with
              mqA := BitVec.ofNat 16 (interval * 2 ^ n), mqC := c, mqBp := bp,
              cx := s.cx.set i (if lps then nlps st else nmps st),
              result := (BitVec.ofBool (mps st != lps)).setWidth 32 }) ∧
        (s.RunsOut n code s.mqBp → ∃ t, exec (.mqDecode cxi) s = .next t ∧ t.cause = .mqRange) ∧
        (s.mqBp.toNat + 2 < s.cfg.cbmemSize.toNat → ¬ s.RunsOut n code s.mqBp))

/-- R105, R112: one raw decision is the complement of `MQ_C[30]`; contexts and `MQ_A` are not touched, and a byte is input
exactly where the counter is spent; outside CBMEM that is MQ_RANGE. -/
def Obligations.MqDecodeRaw : Prop :=
  ∀ (s : State) (cxi : BitVec 5),
    s.cause = .none → s.mqinit = true → s.raw = true → cxi.toNat ≤ 18 →
    (¬ s.InputMissing s.mqC s.mqBp →
      ∃ c bp, s.Doubled s.mqC s.mqBp c bp ∧
        exec (.mqDecode cxi) s = .next { s with
          mqC := c, mqBp := bp, result := if s.mqC.getLsbD 30 then 0 else 1 }) ∧
    (s.InputMissing s.mqC s.mqBp → ∃ t, exec (.mqDecode cxi) s = .next t ∧ t.cause = .mqRange)

/-- R113: `MQ_CHECKBP` gives the difference, and warns exactly on a mismatch; its checks come before. -/
def Obligations.CheckbpWarnsOnMismatch : Prop :=
  ∀ (s : State) (a : BitVec 24) (e : Word), s.cause = .none →
    (s.mqinit = true →
      exec (.mqCheckbp e) s = .next { s with result := s.mqBp - e, warnBp := s.warnBp || s.mqBp != e }) ∧
    executeWord (commandWord 0x13 a e) s = .next
      (if a ≠ 0 then { s with cause := .illegalField }
      else if s.mqinit = false then { s with cause := .illegalState }
      else { s with result := s.mqBp - e, warnBp := s.warnBp || s.mqBp != e })

/-- R114: what every completed `MQ_DECODE` keeps: a normalized interval in arithmetic mode, the pointer moved by at most 2 and
never back, legal context states. -/
def Obligations.MqDecodeBounds : Prop :=
  ∀ (s t : State) (cxi : BitVec 5), s.Inv → s.cause = .none → exec (.mqDecode cxi) s = .next t → t.cause = .none →
    s.mqBp.toNat ≤ t.mqBp.toNat ∧ t.mqBp.toNat ≤ s.mqBp.toNat + 2 ∧ (s.raw = false → 0x8000 ≤ t.mqA.toNat) ∧
    ∀ i : Fin 19, (t.cx.get i).toNat ≤ 93

/-- R109: on a marker, every decision completes and the byte pointer stays, in either mode. -/
def Obligations.MarkerHoldsPointer : Prop :=
  ∀ (s : State) (cxi : BitVec 5), s.cause = .none → s.mqinit = true → cxi.toNat ≤ 18 →
    s.mqBp.toNat + 1 < s.cfg.cbmemSize.toNat → s.cbByte s.mqBp.toNat = 0xFF →
    0x8F < (s.cbByte (s.mqBp.toNat + 1)).toNat →
    ∃ t, exec (.mqDecode cxi) s = .next t ∧ t.cause = .none ∧ t.mqBp = s.mqBp ∧ t.cbmem = s.cbmem

/-- R115: any number of decisions after `MQ_INITDEC S` on a segment `[S, L)` with its terminator completes with `MQ_BP` in
`[S, L]`, and depends on no byte of CBMEM outside `[S, L + 1]`. -/
def Obligations.TerminatedSegmentReadBound : Prop :=
  ∀ (s : State) (first : Word) (stop : Nat) (raw rst : Bool) (decisions : List (BitVec 5)),
    s.cause = .none → s.Terminated first.toNat stop → (∀ cxi ∈ decisions, cxi.toNat ≤ 18) →
    ∃ t, State.afterAll (.mqInitdec raw rst first :: decisions.map .mqDecode) s = some t ∧ t.cause = .none ∧
      first.toNat ≤ t.mqBp.toNat ∧ t.mqBp.toNat ≤ stop ∧
      ∀ m : Memory, (∀ a, first.toNat ≤ a → a ≤ stop + 1 → m.read a = s.cbmem.read a) →
        State.afterAll (.mqInitdec raw rst first :: decisions.map .mqDecode) { s with cbmem := m } =
          some { t with cbmem := m }

/-! ### TT unit (42_tag_tree.md) -/

/-- R141, R145: `TT_INIT` builds the tree, node by level, row and column, and touches no node outside it; a tree that does
not fit is TT_CAPACITY, a grid with a side 0 ILLEGAL_FIELD. -/
def Obligations.TtInitBuildsTree : Prop :=
  ∀ (s : State) (base : BitVec 24) (w h : Half), s.cause = .none →
    let W := w.toNat
    let H := h.toNat
    (w ≠ 0 → h ≠ 0 → base.toNat + treeCount W H ≤ s.cfg.ttNodes.toNat →
      ∃ nodes, exec (.ttInit base w h) s =
          .next { s with nodes := nodes, result := BitVec.ofNat 32 (treeCount W H) } ∧
        (∀ k i j, k ≤ rootLevel W H → i < levelDim H k → j < levelDim W k →
          NodeFile.node nodes (base.toNat + levelOffset W H k + i * levelDim W k + j) =
            ⟨true, 0, false, if k = rootLevel W H then none
              else some (base.toNat + levelOffset W H (k + 1) + i / 2 * levelDim W (k + 1) + j / 2)⟩) ∧
        ∀ n, n < base.toNat ∨ base.toNat + treeCount W H ≤ n → NodeFile.node nodes n = s.node n) ∧
    (w ≠ 0 → h ≠ 0 → s.cfg.ttNodes.toNat < base.toNat + treeCount W H →
      exec (.ttInit base w h) s = .next { s with cause := .ttCapacity }) ∧
    (w = 0 ∨ h = 0 → exec (.ttInit base w h) s = .next { s with cause := .illegalField })

/-- R142: a walk from a node of the tree just built passes at most 17 nodes. -/
def Obligations.NewTreeWalksAreShort : Prop :=
  ∀ (s t : State) (base : BitVec 24) (w h : Half) (n : Nat) (path : List Nat) (top : Option Nat),
    s.cause = .none → exec (.ttInit base w h) s = .next t → t.cause = .none →
    base.toNat ≤ n → n < base.toNat + treeCount w.toNat h.toNat → t.IsWalk (some n) path top →
    path.length ≤ rootLevel w.toNat h.toNat + 1 ∧ rootLevel w.toNat h.toNat + 1 ≤ 17

/-- R144, R146: where the header bits suffice, `TT_DECODE` is the descent over the walk's values: its result, the nodes it
leaves and the bits it takes are those of the unary codes, and nothing else changes. -/
def Obligations.TtDecodeFollowsDescent : Prop :=
  ∀ (s : State) (node : BitVec 24) (thr : Word) (path : List Nat) (top : Option Nat) (news : List (Nat × Bool)) (v : Nat)
    (rest : List Bool),
    s.cause = .none → s.brinit = true → s.nodes.wf s.cfg.ttNodes.toNat → node.toNat < s.cfg.ttNodes.toNat →
    (s.node node.toNat).valid = true → s.IsWalk (some node.toNat) path top → path.length ≤ s.cfg.ttStack →
    tagDescent thr.toNat (path.reverse.map fun m => (s.node m).val.toNat) (s.walkStart path top).toNat s.headerBits =
      some (news, v, rest) →
    ∃ c nodes, s.cursorAfter (s.headerBits.length - rest.length) s.cursor = some c ∧ s.bitsFrom c = rest ∧
      exec (.ttDecode node thr) s =
        .next { s with brPos := c.pos, brBitidx := c.bitidx, nodes := nodes, result := BitVec.ofNat 32 v } ∧
      ∀ m, NodeFile.node nodes m = s.nodesAfter path.reverse news m

/-- R146: the other outcomes of `TT_DECODE`, in the order of its checks: a missing node, a walk longer than the stack, and
header bits that run out. -/
def Obligations.TtDecodeFaults : Prop :=
  ∀ (s : State) (node : BitVec 24) (thr : Word), s.cause = .none → s.brinit = true →
    s.nodes.wf s.cfg.ttNodes.toNat →
    (¬ (node.toNat < s.cfg.ttNodes.toNat ∧ (s.node node.toNat).valid = true) →
      exec (.ttDecode node thr) s = .next { s with cause := .ttMissingNode }) ∧
    (node.toNat < s.cfg.ttNodes.toNat → (s.node node.toNat).valid = true →
      ∀ path top, s.IsWalk (some node.toNat) path top →
        (s.cfg.ttStack < path.length → exec (.ttDecode node thr) s = .next { s with cause := .ttDepth }) ∧
        (path.length ≤ s.cfg.ttStack →
          tagDescent thr.toNat (path.reverse.map fun m => (s.node m).val.toNat) (s.walkStart path top).toNat s.headerBits =
            none →
          ∃ t, exec (.ttDecode node thr) s = .next t ∧ t.cause = .brExhausted))

/-- R146, its corner case of `THR` = 0: no bit is read, and the result is the value the descent would start from, that of the
first visited node of the walk or of the root; not the node's own value, as R147 item 3 would have it (log 14). -/
def Obligations.TtZeroThresholdReturnsStart : Prop :=
  ∀ (s : State) (node : BitVec 24) (path : List Nat) (top : Option Nat), s.cause = .none → s.brinit = true →
    node.toNat < s.cfg.ttNodes.toNat → (s.node node.toNat).valid = true → s.IsWalk (some node.toNat) path top →
    path.length ≤ s.cfg.ttStack → exec (.ttDecode node 0) s = .next { s with result := s.walkStart path top }

/-- R147 item 1: a result below the threshold is the node's exact value. -/
def Obligations.TtResultBelowThresholdIsExact : Prop :=
  ∀ (s t : State) (node : BitVec 24) (thr : Word), s.cause = .none → s.nodes.wf s.cfg.ttNodes.toNat →
    exec (.ttDecode node thr) s = .next t → t.cause = .none → t.result.toNat < thr.toNat →
    (t.node node.toNat).vis = true ∧ (t.node node.toNat).val = t.result

/-- R147 item 3 as it is written, with the order of reads its proof claims as a premise (a node with a value above 0 has a
visited parent): it says `RESULT` = `TT.VAL[NODE]`, which R146 does not give where the parent's value reaches the threshold
(log 14). -/
def Obligations.TtSatisfiedThresholdReturnsNodeValue : Prop :=
  ∀ (s t : State) (node : BitVec 24) (thr : Word), s.Inv → s.ReadOrder →
    s.cause = .none → exec (.ttDecode node thr) s = .next t → t.cause = .none →
    thr.toNat ≤ (s.node node.toNat).val.toNat →
    t.brPos = s.brPos ∧ t.brBitidx = s.brBitidx ∧ t.result = (s.node node.toNat).val

/-- R147 item 3, what R146 gives: under the same premise a threshold the node's own value has reached reads no bit and
changes no node; the result is at or above the threshold, and is the node's own value but where the node is not visited and
its parent's value has reached the threshold: then it is the parent's (log 14). -/
def Obligations.TtSatisfiedThresholdReadsNoBit : Prop :=
  ∀ (s t : State) (node : BitVec 24) (thr : Word), s.nodes.wf s.cfg.ttNodes.toNat →
    s.ReadOrder → s.cause = .none → exec (.ttDecode node thr) s = .next t → t.cause = .none →
    let own := s.node node.toNat
    thr.toNat ≤ own.val.toNat →
    t = { s with result := t.result } ∧ thr.toNat ≤ t.result.toNat ∧
    (own.vis = true ∨ own.parent = none → t.result = own.val) ∧
    ∀ p, own.vis = false → own.parent = some p → own.val ≠ 0 →
      t.result = if (s.node p).val.toNat < thr.toNat then own.val else (s.node p).val

/-- R147 item 3 whole, for a threshold above 0 that is none lower than the earlier ones of the node's tree (`bound`): a
threshold the node's own value has reached reads no bit, and `RESULT` is `TT.VAL[NODE]`. The inclusion tree is read so
(44_host_sequences.md R192, thresholds of successive layers), and the zero-bitplane tree (R193, one threshold). -/
def Obligations.TtSatisfiedThresholdInOrder : Prop :=
  ∀ (s : State) (node : BitVec 24) (thr : Word) (bound : Nat → Nat), s.cause = .none → s.brinit = true →
    s.nodes.wf s.cfg.ttNodes.toNat → 0 < s.cfg.ttStack → node.toNat < s.cfg.ttNodes.toNat →
    (s.node node.toNat).valid = true → s.ReadWithin bound → bound node.toNat ≤ thr.toNat → 0 < thr.toNat →
    thr.toNat ≤ (s.node node.toNat).val.toNat →
    exec (.ttDecode node thr) s = .next { s with result := (s.node node.toNat).val }

/-- R147 item 3, the ground of its proof: every command keeps the order of reads, `TT_INIT` where no node outside the new
tree has its parent inside, and BR_EXHAUSTED aside, which leaves nodes unspecified. -/
def Obligations.ReadOrderIsKept : Prop :=
  ∀ (i : Instr) (s t : State), s.nodes.wf s.cfg.ttNodes.toNat → s.ReadOrder → exec i s = .next t →
    (s.cause = .none → t.cause ≠ .brExhausted) →
    (∀ base w h, i = .ttInit base w h → ∀ n p, (s.node n).parent = some p →
      base.toNat ≤ p → p < base.toNat + treeCount w.toNat h.toNat →
      base.toNat ≤ n ∧ n < base.toNat + treeCount w.toNat h.toNat) →
    t.ReadOrder

/-- R146, R147 item 3: every command keeps the order of reads within bounds, `TT_DECODE` with a threshold up to the bound of
its node; `TT_INIT` and BR_EXHAUSTED as in ReadOrderIsKept. -/
def Obligations.ReadWithinIsKept : Prop :=
  ∀ (i : Instr) (s t : State) (bound : Nat → Nat), s.nodes.wf s.cfg.ttNodes.toNat → s.ReadWithin bound →
    s.BoundsRise bound → exec i s = .next t → (s.cause = .none → t.cause ≠ .brExhausted) →
    (∀ base w h, i = .ttInit base w h → ∀ n p, (s.node n).parent = some p →
      base.toNat ≤ p → p < base.toNat + treeCount w.toNat h.toNat →
      base.toNat ≤ n ∧ n < base.toNat + treeCount w.toNat h.toNat) →
    (∀ node thr, i = .ttDecode node thr → thr.toNat ≤ bound node.toNat) →
    t.ReadWithin bound

/-- R35, R146, R148: no command but `TT_INIT` and `RESET` lowers a node's value, changes a visited node, or moves a node;
BR_EXHAUSTED aside, which leaves nodes unspecified. -/
def Obligations.NodeValuesOnlyRise : Prop :=
  ∀ (i : Instr) (s t : State) (m : Nat), s.nodes.wf s.cfg.ttNodes.toNat → i.resetsNodes = false →
    exec i s = .next t → (s.cause = .none → t.cause ≠ .brExhausted) →
    (s.node m).val.toNat ≤ (t.node m).val.toNat ∧ ((s.node m).vis = true → t.node m = s.node m) ∧
      (t.node m).valid = (s.node m).valid ∧ (t.node m).parent = (s.node m).parent

/-- R147 item 4: a call on the same node with a threshold no lower does not give a lower result, with any commands between
the two that reset no tree. -/
def Obligations.TtResultsAreMonotone : Prop :=
  ∀ (s t u v : State) (node : BitVec 24) (thr thr' : Word) (between : List Instr), s.nodes.wf s.cfg.ttNodes.toNat →
    s.cause = .none → thr.toNat ≤ thr'.toNat → (∀ i ∈ between, i.resetsNodes = false) →
    exec (.ttDecode node thr) s = .next t → t.cause = .none → State.afterAll between t = some u →
    exec (.ttDecode node thr') u = .next v → v.cause = .none → t.result.toNat ≤ v.result.toNat

/-! ### BR unit (43_bitstream.md) -/

/-- R162: `BR_SETEND` writes `BR_END` alone, for every value up to `PHMEM_SIZE`. -/
def Obligations.SetendSetsWindow : Prop :=
  ∀ (s : State) (a : BitVec 24) (stop : Word), s.cause = .none →
    (stop.toNat ≤ s.cfg.phmemSize.toNat → exec (.brSetend stop) s = .next { s with brEnd := stop }) ∧
    executeWord (commandWord 0x30 a stop) s = .next
      (if a = 0 ∧ stop.toNat ≤ s.cfg.phmemSize.toNat then { s with brEnd := stop }
      else { s with cause := .illegalField })

/-- R163: `BR_START` places the cursor byte-aligned at any address. -/
def Obligations.StartPlacesCursor : Prop :=
  ∀ (s : State) (a : BitVec 24) (pos : Word), s.cause = .none →
    exec (.brStart pos) s = .next { s with brPos := pos, brBitidx := 8, brinit := true } ∧
    executeWord (commandWord 0x31 a pos) s = .next
      (if a = 0 then { s with brPos := pos, brBitidx := 8, brinit := true } else { s with cause := .illegalField })

/-- R161, R164: `BR_GETBITS` gives the next `n` header bits, most significant first, and moves past them; too few are
BR_EXHAUSTED. -/
def Obligations.GetbitsReadsField : Prop :=
  ∀ (s : State) (n : BitVec 6), s.cause = .none → s.brinit = true → n.toNat ≤ 32 →
    (n.toNat ≤ s.headerBits.length →
      ∃ c, s.cursorAfter n.toNat s.cursor = some c ∧ s.bitsFrom c = s.headerBits.drop n.toNat ∧
        exec (.brGetbits n) s = .next { s with
          brPos := c.pos, brBitidx := c.bitidx, result := BitVec.ofNat 32 (bitsValue (s.headerBits.take n.toNat)) }) ∧
    (s.headerBits.length < n.toNat → ∃ t, exec (.brGetbits n) s = .next t ∧ t.cause = .brExhausted)

/-- R165: `BR_FLUSH` leaves the current byte, and after a 0xFF the byte after it too. -/
def Obligations.FlushRealigns : Prop :=
  ∀ (s : State), s.cause = .none → s.brinit = true →
    let last := s.phByte s.brPos.toNat = 0xFF
    (s.brPos.toNat < s.brEnd.toNat → ¬ last →
      exec .brFlush s = .next { s with brPos := s.brPos + 1, brBitidx := 8 }) ∧
    (s.brPos.toNat + 1 < s.brEnd.toNat → last →
      exec .brFlush s = .next { s with brPos := s.brPos + 2, brBitidx := 8 }) ∧
    (s.brEnd.toNat ≤ s.brPos.toNat ∨ (last ∧ s.brEnd.toNat ≤ s.brPos.toNat + 1) →
      ∃ t, exec .brFlush s = .next t ∧ t.cause = .brExhausted)

/-- R166: `BR_GETNPASSES` reads each code of the table as its number, 1 to 164; header bits that begin with no code are
BR_EXHAUSTED. -/
def Obligations.NpassesReadsCode : Prop :=
  ∀ (s : State), s.cause = .none → s.brinit = true →
    (∀ p rest, 1 ≤ p → p ≤ 164 → s.headerBits = passesCode p ++ rest →
      ∃ c, s.cursorAfter (passesCode p).length s.cursor = some c ∧ s.bitsFrom c = rest ∧
        exec .brGetnpasses s = .next { s with brPos := c.pos, brBitidx := c.bitidx, result := BitVec.ofNat 32 p }) ∧
    ((∀ p rest, 1 ≤ p → p ≤ 164 → s.headerBits ≠ passesCode p ++ rest) →
      ∃ t, exec .brGetnpasses s = .next t ∧ t.cause = .brExhausted)

/-- R167: `BR_GETLBLKINC` counts the 1 bits before the first 0; without a 0 it is BR_EXHAUSTED. -/
def Obligations.LblkincCountsOnes : Prop :=
  ∀ (s : State), s.cause = .none → s.brinit = true →
    (∀ n rest, s.headerBits = List.replicate n true ++ false :: rest →
      ∃ c, s.cursorAfter (n + 1) s.cursor = some c ∧ s.bitsFrom c = rest ∧
        exec .brGetlblkinc s = .next { s with brPos := c.pos, brBitidx := c.bitidx, result := BitVec.ofNat 32 n }) ∧
    (false ∉ s.headerBits → ∃ t, exec .brGetlblkinc s = .next t ∧ t.cause = .brExhausted)

/-- R168: `BR_EPH` skips the marker FF 92 inside the window, else warns and leaves the cursor; its checks come before. -/
def Obligations.EphSkipsMarkerOrWarns : Prop :=
  ∀ (s : State) (a : BitVec 24) (b : Word), s.cause = .none →
    let found := s.brPos.toNat + 2 ≤ s.brEnd.toNat ∧ s.phByte s.brPos.toNat = 0xFF ∧ s.phByte (s.brPos.toNat + 1) = 0x92
    let after := if found then { s with brPos := s.brPos + 2, result := 1 } else { s with warnEph := true, result := 0 }
    (s.brinit = true → s.brBitidx = 8 → exec .brEph s = .next after) ∧
    executeWord (commandWord 0x36 a b) s = .next
      (if ¬ (a = 0 ∧ b = 0) then { s with cause := .illegalField }
      else if ¬ (s.brinit = true ∧ s.brBitidx = 8) then { s with cause := .illegalState }
      else after)

/-- R169: `BR_SEGCOPY` copies `LEN` bytes and the asked-for end-marker, moves the cursor and changes no other byte; its two
data faults come in order and before any write. -/
def Obligations.SegcopyCopiesBytes : Prop :=
  ∀ (s : State) (len : Half) (term : Bool) (dst : Word),
    s.cause = .none → s.brinit = true → s.brBitidx = 8 → s.cbmem.wf s.cfg.cbmemSize.toNat →
    let stop := dst.toNat + len.toNat + if term then 2 else 0
    (s.brPos.toNat + len.toNat ≤ s.brEnd.toNat → stop ≤ s.cfg.cbmemSize.toNat →
      ∃ m, exec (.brSegcopy len term dst) s = .next { s with
          cbmem := m, brPos := BitVec.ofNat 32 (s.brPos.toNat + len.toNat), result := BitVec.ofNat 32 stop } ∧
        (∀ k, k < len.toNat → Memory.read m (dst.toNat + k) = s.phByte (s.brPos.toNat + k)) ∧
        (∀ a, dst.toNat + len.toNat ≤ a → a < stop → Memory.read m a = 0xFF) ∧
        ∀ a, a < dst.toNat ∨ stop ≤ a → Memory.read m a = s.cbByte a) ∧
    (s.brEnd.toNat < s.brPos.toNat + len.toNat →
      exec (.brSegcopy len term dst) s = .next { s with cause := .phSegOverrun }) ∧
    (s.brPos.toNat + len.toNat ≤ s.brEnd.toNat → s.cfg.cbmemSize.toNat < stop →
      exec (.brSegcopy len term dst) s = .next { s with cause := .cbCapacity })

/-- R171: bit 7 of a byte after a 0xFF is not examined: with it flipped, in a byte that is not made or unmade a 0xFF by it
and has at most 7 bits left if the cursor stands on it, a command that reads header bits does the same, or faults the
same. -/
def Obligations.StuffedBitIsNotExamined : Prop :=
  ∀ (s t : State) (a : Nat) (i : Instr), i.readsHeader = true → s.phmem.wf s.cfg.phmemSize.toNat → 0 < a →
    s.phByte (a - 1) = 0xFF → s.phByte a &&& 0x7F ≠ 0x7F → (s.brPos.toNat = a → s.brBitidx.toNat ≤ 7) →
    exec i s = .next t →
    let other := s.phmem.write a (s.phByte a ^^^ 0x80)
    ∃ u, exec i { s with phmem := other } = .next u ∧ u.cause = t.cause ∧ (t.cause = .none → u = { t with phmem := other })

/-! ### The units together (00_scope.md R2) -/

/-- R2: a command of the MQ unit leaves the state of the TT and BR units and PHMEM as it is, and a command of these the
registers of the MQ unit; and where no unspecified value is drawn, the rest of the state evolves alike whatever they hold. -/
def Obligations.UnitsShareNoOtherState : Prop :=
  ∀ (i : Instr) (s t u : State), exec i s = .next t →
    (i.inMq = true →
      t = t.withTtBrOf s ∧ (t.draws = s.draws → exec i (s.withTtBrOf u) = .next (t.withTtBrOf u))) ∧
    (i.inTtBr = true →
      t = t.withMqOf s ∧ (t.draws = s.draws → exec i (s.withMqOf u) = .next (t.withMqOf u)))

end
end

