-- ==== Sys2Proof/Laws/State.lean ====
section
/-! SUPPORT. One lemma per field per update of State, true by rfl, so that no proof unfolds a record update; and the same
for fault entry, which changes `cause` alone. -/

namespace Sys2Proof.Machine

section
variable (s : State)

/-! ### setResult -/

@[simp] theorem State.setResult_cfg (v : Word) : (s.setResult v).cfg = s.cfg := rfl
@[simp] theorem State.setResult_cause (v : Word) : (s.setResult v).cause = s.cause := rfl
@[simp] theorem State.setResult_warnEph (v : Word) : (s.setResult v).warnEph = s.warnEph := rfl
@[simp] theorem State.setResult_warnBp (v : Word) : (s.setResult v).warnBp = s.warnBp := rfl
@[simp] theorem State.setResult_result (v : Word) : (s.setResult v).result = v := rfl
@[simp] theorem State.setResult_mqA (v : Word) : (s.setResult v).mqA = s.mqA := rfl
@[simp] theorem State.setResult_mqC (v : Word) : (s.setResult v).mqC = s.mqC := rfl
@[simp] theorem State.setResult_mqBp (v : Word) : (s.setResult v).mqBp = s.mqBp := rfl
@[simp] theorem State.setResult_raw (v : Word) : (s.setResult v).raw = s.raw := rfl
@[simp] theorem State.setResult_mqinit (v : Word) : (s.setResult v).mqinit = s.mqinit := rfl
@[simp] theorem State.setResult_cx (v : Word) : (s.setResult v).cx = s.cx := rfl
@[simp] theorem State.setResult_brPos (v : Word) : (s.setResult v).brPos = s.brPos := rfl
@[simp] theorem State.setResult_brEnd (v : Word) : (s.setResult v).brEnd = s.brEnd := rfl
@[simp] theorem State.setResult_brBitidx (v : Word) : (s.setResult v).brBitidx = s.brBitidx := rfl
@[simp] theorem State.setResult_brinit (v : Word) : (s.setResult v).brinit = s.brinit := rfl
@[simp] theorem State.setResult_nodes (v : Word) : (s.setResult v).nodes = s.nodes := rfl
@[simp] theorem State.setResult_phmem (v : Word) : (s.setResult v).phmem = s.phmem := rfl
@[simp] theorem State.setResult_cbmem (v : Word) : (s.setResult v).cbmem = s.cbmem := rfl
@[simp] theorem State.setResult_port (v : Word) : (s.setResult v).port = s.port := rfl
@[simp] theorem State.setResult_reply (v : Word) : (s.setResult v).reply = s.reply := rfl
@[simp] theorem State.setResult_draws (v : Word) : (s.setResult v).draws = s.draws := rfl

/-! ### setCursor -/

@[simp] theorem State.setCursor_cfg (c : Cursor) : (s.setCursor c).cfg = s.cfg := rfl
@[simp] theorem State.setCursor_cause (c : Cursor) : (s.setCursor c).cause = s.cause := rfl
@[simp] theorem State.setCursor_warnEph (c : Cursor) : (s.setCursor c).warnEph = s.warnEph := rfl
@[simp] theorem State.setCursor_warnBp (c : Cursor) : (s.setCursor c).warnBp = s.warnBp := rfl
@[simp] theorem State.setCursor_result (c : Cursor) : (s.setCursor c).result = s.result := rfl
@[simp] theorem State.setCursor_mqA (c : Cursor) : (s.setCursor c).mqA = s.mqA := rfl
@[simp] theorem State.setCursor_mqC (c : Cursor) : (s.setCursor c).mqC = s.mqC := rfl
@[simp] theorem State.setCursor_mqBp (c : Cursor) : (s.setCursor c).mqBp = s.mqBp := rfl
@[simp] theorem State.setCursor_raw (c : Cursor) : (s.setCursor c).raw = s.raw := rfl
@[simp] theorem State.setCursor_mqinit (c : Cursor) : (s.setCursor c).mqinit = s.mqinit := rfl
@[simp] theorem State.setCursor_cx (c : Cursor) : (s.setCursor c).cx = s.cx := rfl
@[simp] theorem State.setCursor_brPos (c : Cursor) : (s.setCursor c).brPos = c.pos := rfl
@[simp] theorem State.setCursor_brEnd (c : Cursor) : (s.setCursor c).brEnd = s.brEnd := rfl
@[simp] theorem State.setCursor_brBitidx (c : Cursor) : (s.setCursor c).brBitidx = c.bitidx := rfl
@[simp] theorem State.setCursor_brinit (c : Cursor) : (s.setCursor c).brinit = s.brinit := rfl
@[simp] theorem State.setCursor_nodes (c : Cursor) : (s.setCursor c).nodes = s.nodes := rfl
@[simp] theorem State.setCursor_phmem (c : Cursor) : (s.setCursor c).phmem = s.phmem := rfl
@[simp] theorem State.setCursor_cbmem (c : Cursor) : (s.setCursor c).cbmem = s.cbmem := rfl
@[simp] theorem State.setCursor_port (c : Cursor) : (s.setCursor c).port = s.port := rfl
@[simp] theorem State.setCursor_reply (c : Cursor) : (s.setCursor c).reply = s.reply := rfl
@[simp] theorem State.setCursor_draws (c : Cursor) : (s.setCursor c).draws = s.draws := rfl

/-! ### setMqRegs -/

@[simp] theorem State.setMqRegs_cfg (r : MqRegs) : (s.setMqRegs r).cfg = s.cfg := rfl
@[simp] theorem State.setMqRegs_cause (r : MqRegs) : (s.setMqRegs r).cause = s.cause := rfl
@[simp] theorem State.setMqRegs_warnEph (r : MqRegs) : (s.setMqRegs r).warnEph = s.warnEph := rfl
@[simp] theorem State.setMqRegs_warnBp (r : MqRegs) : (s.setMqRegs r).warnBp = s.warnBp := rfl
@[simp] theorem State.setMqRegs_result (r : MqRegs) : (s.setMqRegs r).result = s.result := rfl
@[simp] theorem State.setMqRegs_mqA (r : MqRegs) : (s.setMqRegs r).mqA = r.a := rfl
@[simp] theorem State.setMqRegs_mqC (r : MqRegs) : (s.setMqRegs r).mqC = r.c := rfl
@[simp] theorem State.setMqRegs_mqBp (r : MqRegs) : (s.setMqRegs r).mqBp = r.bp := rfl
@[simp] theorem State.setMqRegs_raw (r : MqRegs) : (s.setMqRegs r).raw = s.raw := rfl
@[simp] theorem State.setMqRegs_mqinit (r : MqRegs) : (s.setMqRegs r).mqinit = s.mqinit := rfl
@[simp] theorem State.setMqRegs_cx (r : MqRegs) : (s.setMqRegs r).cx = s.cx := rfl
@[simp] theorem State.setMqRegs_brPos (r : MqRegs) : (s.setMqRegs r).brPos = s.brPos := rfl
@[simp] theorem State.setMqRegs_brEnd (r : MqRegs) : (s.setMqRegs r).brEnd = s.brEnd := rfl
@[simp] theorem State.setMqRegs_brBitidx (r : MqRegs) : (s.setMqRegs r).brBitidx = s.brBitidx := rfl
@[simp] theorem State.setMqRegs_brinit (r : MqRegs) : (s.setMqRegs r).brinit = s.brinit := rfl
@[simp] theorem State.setMqRegs_nodes (r : MqRegs) : (s.setMqRegs r).nodes = s.nodes := rfl
@[simp] theorem State.setMqRegs_phmem (r : MqRegs) : (s.setMqRegs r).phmem = s.phmem := rfl
@[simp] theorem State.setMqRegs_cbmem (r : MqRegs) : (s.setMqRegs r).cbmem = s.cbmem := rfl
@[simp] theorem State.setMqRegs_port (r : MqRegs) : (s.setMqRegs r).port = s.port := rfl
@[simp] theorem State.setMqRegs_reply (r : MqRegs) : (s.setMqRegs r).reply = s.reply := rfl
@[simp] theorem State.setMqRegs_draws (r : MqRegs) : (s.setMqRegs r).draws = s.draws := rfl

/-! ### setCx -/

@[simp] theorem State.setCx_cfg (i : Fin 19) (v : BitVec 7) : (s.setCx i v).cfg = s.cfg := rfl
@[simp] theorem State.setCx_cause (i : Fin 19) (v : BitVec 7) : (s.setCx i v).cause = s.cause := rfl
@[simp] theorem State.setCx_warnEph (i : Fin 19) (v : BitVec 7) : (s.setCx i v).warnEph = s.warnEph := rfl
@[simp] theorem State.setCx_warnBp (i : Fin 19) (v : BitVec 7) : (s.setCx i v).warnBp = s.warnBp := rfl
@[simp] theorem State.setCx_result (i : Fin 19) (v : BitVec 7) : (s.setCx i v).result = s.result := rfl
@[simp] theorem State.setCx_mqA (i : Fin 19) (v : BitVec 7) : (s.setCx i v).mqA = s.mqA := rfl
@[simp] theorem State.setCx_mqC (i : Fin 19) (v : BitVec 7) : (s.setCx i v).mqC = s.mqC := rfl
@[simp] theorem State.setCx_mqBp (i : Fin 19) (v : BitVec 7) : (s.setCx i v).mqBp = s.mqBp := rfl
@[simp] theorem State.setCx_raw (i : Fin 19) (v : BitVec 7) : (s.setCx i v).raw = s.raw := rfl
@[simp] theorem State.setCx_mqinit (i : Fin 19) (v : BitVec 7) : (s.setCx i v).mqinit = s.mqinit := rfl
@[simp] theorem State.setCx_cx (i : Fin 19) (v : BitVec 7) : (s.setCx i v).cx = s.cx.set i v := rfl
@[simp] theorem State.setCx_brPos (i : Fin 19) (v : BitVec 7) : (s.setCx i v).brPos = s.brPos := rfl
@[simp] theorem State.setCx_brEnd (i : Fin 19) (v : BitVec 7) : (s.setCx i v).brEnd = s.brEnd := rfl
@[simp] theorem State.setCx_brBitidx (i : Fin 19) (v : BitVec 7) : (s.setCx i v).brBitidx = s.brBitidx := rfl
@[simp] theorem State.setCx_brinit (i : Fin 19) (v : BitVec 7) : (s.setCx i v).brinit = s.brinit := rfl
@[simp] theorem State.setCx_nodes (i : Fin 19) (v : BitVec 7) : (s.setCx i v).nodes = s.nodes := rfl
@[simp] theorem State.setCx_phmem (i : Fin 19) (v : BitVec 7) : (s.setCx i v).phmem = s.phmem := rfl
@[simp] theorem State.setCx_cbmem (i : Fin 19) (v : BitVec 7) : (s.setCx i v).cbmem = s.cbmem := rfl
@[simp] theorem State.setCx_port (i : Fin 19) (v : BitVec 7) : (s.setCx i v).port = s.port := rfl
@[simp] theorem State.setCx_reply (i : Fin 19) (v : BitVec 7) : (s.setCx i v).reply = s.reply := rfl
@[simp] theorem State.setCx_draws (i : Fin 19) (v : BitVec 7) : (s.setCx i v).draws = s.draws := rfl

/-! ### setWarnEph -/

@[simp] theorem State.setWarnEph_cfg : (s.setWarnEph).cfg = s.cfg := rfl
@[simp] theorem State.setWarnEph_cause : (s.setWarnEph).cause = s.cause := rfl
@[simp] theorem State.setWarnEph_warnEph : (s.setWarnEph).warnEph = true := rfl
@[simp] theorem State.setWarnEph_warnBp : (s.setWarnEph).warnBp = s.warnBp := rfl
@[simp] theorem State.setWarnEph_result : (s.setWarnEph).result = s.result := rfl
@[simp] theorem State.setWarnEph_mqA : (s.setWarnEph).mqA = s.mqA := rfl
@[simp] theorem State.setWarnEph_mqC : (s.setWarnEph).mqC = s.mqC := rfl
@[simp] theorem State.setWarnEph_mqBp : (s.setWarnEph).mqBp = s.mqBp := rfl
@[simp] theorem State.setWarnEph_raw : (s.setWarnEph).raw = s.raw := rfl
@[simp] theorem State.setWarnEph_mqinit : (s.setWarnEph).mqinit = s.mqinit := rfl
@[simp] theorem State.setWarnEph_cx : (s.setWarnEph).cx = s.cx := rfl
@[simp] theorem State.setWarnEph_brPos : (s.setWarnEph).brPos = s.brPos := rfl
@[simp] theorem State.setWarnEph_brEnd : (s.setWarnEph).brEnd = s.brEnd := rfl
@[simp] theorem State.setWarnEph_brBitidx : (s.setWarnEph).brBitidx = s.brBitidx := rfl
@[simp] theorem State.setWarnEph_brinit : (s.setWarnEph).brinit = s.brinit := rfl
@[simp] theorem State.setWarnEph_nodes : (s.setWarnEph).nodes = s.nodes := rfl
@[simp] theorem State.setWarnEph_phmem : (s.setWarnEph).phmem = s.phmem := rfl
@[simp] theorem State.setWarnEph_cbmem : (s.setWarnEph).cbmem = s.cbmem := rfl
@[simp] theorem State.setWarnEph_port : (s.setWarnEph).port = s.port := rfl
@[simp] theorem State.setWarnEph_reply : (s.setWarnEph).reply = s.reply := rfl
@[simp] theorem State.setWarnEph_draws : (s.setWarnEph).draws = s.draws := rfl

/-! ### setWarnBp -/

@[simp] theorem State.setWarnBp_cfg : (s.setWarnBp).cfg = s.cfg := rfl
@[simp] theorem State.setWarnBp_cause : (s.setWarnBp).cause = s.cause := rfl
@[simp] theorem State.setWarnBp_warnEph : (s.setWarnBp).warnEph = s.warnEph := rfl
@[simp] theorem State.setWarnBp_warnBp : (s.setWarnBp).warnBp = true := rfl
@[simp] theorem State.setWarnBp_result : (s.setWarnBp).result = s.result := rfl
@[simp] theorem State.setWarnBp_mqA : (s.setWarnBp).mqA = s.mqA := rfl
@[simp] theorem State.setWarnBp_mqC : (s.setWarnBp).mqC = s.mqC := rfl
@[simp] theorem State.setWarnBp_mqBp : (s.setWarnBp).mqBp = s.mqBp := rfl
@[simp] theorem State.setWarnBp_raw : (s.setWarnBp).raw = s.raw := rfl
@[simp] theorem State.setWarnBp_mqinit : (s.setWarnBp).mqinit = s.mqinit := rfl
@[simp] theorem State.setWarnBp_cx : (s.setWarnBp).cx = s.cx := rfl
@[simp] theorem State.setWarnBp_brPos : (s.setWarnBp).brPos = s.brPos := rfl
@[simp] theorem State.setWarnBp_brEnd : (s.setWarnBp).brEnd = s.brEnd := rfl
@[simp] theorem State.setWarnBp_brBitidx : (s.setWarnBp).brBitidx = s.brBitidx := rfl
@[simp] theorem State.setWarnBp_brinit : (s.setWarnBp).brinit = s.brinit := rfl
@[simp] theorem State.setWarnBp_nodes : (s.setWarnBp).nodes = s.nodes := rfl
@[simp] theorem State.setWarnBp_phmem : (s.setWarnBp).phmem = s.phmem := rfl
@[simp] theorem State.setWarnBp_cbmem : (s.setWarnBp).cbmem = s.cbmem := rfl
@[simp] theorem State.setWarnBp_port : (s.setWarnBp).port = s.port := rfl
@[simp] theorem State.setWarnBp_reply : (s.setWarnBp).reply = s.reply := rfl
@[simp] theorem State.setWarnBp_draws : (s.setWarnBp).draws = s.draws := rfl

/-! ### clearWarnings -/

@[simp] theorem State.clearWarnings_cfg : (s.clearWarnings).cfg = s.cfg := rfl
@[simp] theorem State.clearWarnings_cause : (s.clearWarnings).cause = s.cause := rfl
@[simp] theorem State.clearWarnings_warnEph : (s.clearWarnings).warnEph = false := rfl
@[simp] theorem State.clearWarnings_warnBp : (s.clearWarnings).warnBp = false := rfl
@[simp] theorem State.clearWarnings_result : (s.clearWarnings).result = s.result := rfl
@[simp] theorem State.clearWarnings_mqA : (s.clearWarnings).mqA = s.mqA := rfl
@[simp] theorem State.clearWarnings_mqC : (s.clearWarnings).mqC = s.mqC := rfl
@[simp] theorem State.clearWarnings_mqBp : (s.clearWarnings).mqBp = s.mqBp := rfl
@[simp] theorem State.clearWarnings_raw : (s.clearWarnings).raw = s.raw := rfl
@[simp] theorem State.clearWarnings_mqinit : (s.clearWarnings).mqinit = s.mqinit := rfl
@[simp] theorem State.clearWarnings_cx : (s.clearWarnings).cx = s.cx := rfl
@[simp] theorem State.clearWarnings_brPos : (s.clearWarnings).brPos = s.brPos := rfl
@[simp] theorem State.clearWarnings_brEnd : (s.clearWarnings).brEnd = s.brEnd := rfl
@[simp] theorem State.clearWarnings_brBitidx : (s.clearWarnings).brBitidx = s.brBitidx := rfl
@[simp] theorem State.clearWarnings_brinit : (s.clearWarnings).brinit = s.brinit := rfl
@[simp] theorem State.clearWarnings_nodes : (s.clearWarnings).nodes = s.nodes := rfl
@[simp] theorem State.clearWarnings_phmem : (s.clearWarnings).phmem = s.phmem := rfl
@[simp] theorem State.clearWarnings_cbmem : (s.clearWarnings).cbmem = s.cbmem := rfl
@[simp] theorem State.clearWarnings_port : (s.clearWarnings).port = s.port := rfl
@[simp] theorem State.clearWarnings_reply : (s.clearWarnings).reply = s.reply := rfl
@[simp] theorem State.clearWarnings_draws : (s.clearWarnings).draws = s.draws := rfl

/-! ### initContexts -/

@[simp] theorem State.initContexts_cfg : (s.initContexts).cfg = s.cfg := rfl
@[simp] theorem State.initContexts_cause : (s.initContexts).cause = s.cause := rfl
@[simp] theorem State.initContexts_warnEph : (s.initContexts).warnEph = s.warnEph := rfl
@[simp] theorem State.initContexts_warnBp : (s.initContexts).warnBp = s.warnBp := rfl
@[simp] theorem State.initContexts_result : (s.initContexts).result = s.result := rfl
@[simp] theorem State.initContexts_mqA : (s.initContexts).mqA = s.mqA := rfl
@[simp] theorem State.initContexts_mqC : (s.initContexts).mqC = s.mqC := rfl
@[simp] theorem State.initContexts_mqBp : (s.initContexts).mqBp = s.mqBp := rfl
@[simp] theorem State.initContexts_raw : (s.initContexts).raw = s.raw := rfl
@[simp] theorem State.initContexts_mqinit : (s.initContexts).mqinit = s.mqinit := rfl
@[simp] theorem State.initContexts_cx : (s.initContexts).cx = initialContexts := rfl
@[simp] theorem State.initContexts_brPos : (s.initContexts).brPos = s.brPos := rfl
@[simp] theorem State.initContexts_brEnd : (s.initContexts).brEnd = s.brEnd := rfl
@[simp] theorem State.initContexts_brBitidx : (s.initContexts).brBitidx = s.brBitidx := rfl
@[simp] theorem State.initContexts_brinit : (s.initContexts).brinit = s.brinit := rfl
@[simp] theorem State.initContexts_nodes : (s.initContexts).nodes = s.nodes := rfl
@[simp] theorem State.initContexts_phmem : (s.initContexts).phmem = s.phmem := rfl
@[simp] theorem State.initContexts_cbmem : (s.initContexts).cbmem = s.cbmem := rfl
@[simp] theorem State.initContexts_port : (s.initContexts).port = s.port := rfl
@[simp] theorem State.initContexts_reply : (s.initContexts).reply = s.reply := rfl
@[simp] theorem State.initContexts_draws : (s.initContexts).draws = s.draws := rfl

/-! ### cbWriteBytes -/

@[simp] theorem State.cbWriteBytes_cfg (a : Nat) (bytes : List Byte) : (s.cbWriteBytes a bytes).cfg = s.cfg := rfl
@[simp] theorem State.cbWriteBytes_cause (a : Nat) (bytes : List Byte) : (s.cbWriteBytes a bytes).cause = s.cause := rfl
@[simp] theorem State.cbWriteBytes_warnEph (a : Nat) (bytes : List Byte) : (s.cbWriteBytes a bytes).warnEph = s.warnEph := rfl
@[simp] theorem State.cbWriteBytes_warnBp (a : Nat) (bytes : List Byte) : (s.cbWriteBytes a bytes).warnBp = s.warnBp := rfl
@[simp] theorem State.cbWriteBytes_result (a : Nat) (bytes : List Byte) : (s.cbWriteBytes a bytes).result = s.result := rfl
@[simp] theorem State.cbWriteBytes_mqA (a : Nat) (bytes : List Byte) : (s.cbWriteBytes a bytes).mqA = s.mqA := rfl
@[simp] theorem State.cbWriteBytes_mqC (a : Nat) (bytes : List Byte) : (s.cbWriteBytes a bytes).mqC = s.mqC := rfl
@[simp] theorem State.cbWriteBytes_mqBp (a : Nat) (bytes : List Byte) : (s.cbWriteBytes a bytes).mqBp = s.mqBp := rfl
@[simp] theorem State.cbWriteBytes_raw (a : Nat) (bytes : List Byte) : (s.cbWriteBytes a bytes).raw = s.raw := rfl
@[simp] theorem State.cbWriteBytes_mqinit (a : Nat) (bytes : List Byte) : (s.cbWriteBytes a bytes).mqinit = s.mqinit := rfl
@[simp] theorem State.cbWriteBytes_cx (a : Nat) (bytes : List Byte) : (s.cbWriteBytes a bytes).cx = s.cx := rfl
@[simp] theorem State.cbWriteBytes_brPos (a : Nat) (bytes : List Byte) : (s.cbWriteBytes a bytes).brPos = s.brPos := rfl
@[simp] theorem State.cbWriteBytes_brEnd (a : Nat) (bytes : List Byte) : (s.cbWriteBytes a bytes).brEnd = s.brEnd := rfl
@[simp] theorem State.cbWriteBytes_brBitidx (a : Nat) (bytes : List Byte) : (s.cbWriteBytes a bytes).brBitidx = s.brBitidx := rfl
@[simp] theorem State.cbWriteBytes_brinit (a : Nat) (bytes : List Byte) : (s.cbWriteBytes a bytes).brinit = s.brinit := rfl
@[simp] theorem State.cbWriteBytes_nodes (a : Nat) (bytes : List Byte) : (s.cbWriteBytes a bytes).nodes = s.nodes := rfl
@[simp] theorem State.cbWriteBytes_phmem (a : Nat) (bytes : List Byte) : (s.cbWriteBytes a bytes).phmem = s.phmem := rfl
@[simp] theorem State.cbWriteBytes_cbmem (a : Nat) (bytes : List Byte) : (s.cbWriteBytes a bytes).cbmem = s.cbmem.writeBytes a bytes := rfl
@[simp] theorem State.cbWriteBytes_port (a : Nat) (bytes : List Byte) : (s.cbWriteBytes a bytes).port = s.port := rfl
@[simp] theorem State.cbWriteBytes_reply (a : Nat) (bytes : List Byte) : (s.cbWriteBytes a bytes).reply = s.reply := rfl
@[simp] theorem State.cbWriteBytes_draws (a : Nat) (bytes : List Byte) : (s.cbWriteBytes a bytes).draws = s.draws := rfl

/-! ### respond -/

@[simp] theorem State.respond_cfg : (s.respond).cfg = s.cfg := rfl
@[simp] theorem State.respond_cause : (s.respond).cause = s.cause := rfl
@[simp] theorem State.respond_warnEph : (s.respond).warnEph = s.warnEph := rfl
@[simp] theorem State.respond_warnBp : (s.respond).warnBp = s.warnBp := rfl
@[simp] theorem State.respond_result : (s.respond).result = s.result := rfl
@[simp] theorem State.respond_mqA : (s.respond).mqA = s.mqA := rfl
@[simp] theorem State.respond_mqC : (s.respond).mqC = s.mqC := rfl
@[simp] theorem State.respond_mqBp : (s.respond).mqBp = s.mqBp := rfl
@[simp] theorem State.respond_raw : (s.respond).raw = s.raw := rfl
@[simp] theorem State.respond_mqinit : (s.respond).mqinit = s.mqinit := rfl
@[simp] theorem State.respond_cx : (s.respond).cx = s.cx := rfl
@[simp] theorem State.respond_brPos : (s.respond).brPos = s.brPos := rfl
@[simp] theorem State.respond_brEnd : (s.respond).brEnd = s.brEnd := rfl
@[simp] theorem State.respond_brBitidx : (s.respond).brBitidx = s.brBitidx := rfl
@[simp] theorem State.respond_brinit : (s.respond).brinit = s.brinit := rfl
@[simp] theorem State.respond_nodes : (s.respond).nodes = s.nodes := rfl
@[simp] theorem State.respond_phmem : (s.respond).phmem = s.phmem := rfl
@[simp] theorem State.respond_cbmem : (s.respond).cbmem = s.cbmem := rfl
@[simp] theorem State.respond_port : (s.respond).port = s.port := rfl
@[simp] theorem State.respond_reply : (s.respond).reply = some (.response s.statusWord s.result) := rfl
@[simp] theorem State.respond_draws : (s.respond).draws = s.draws := rfl

/-! ### present -/

@[simp] theorem State.present_cfg (w : CommandWord) : (s.present w).cfg = s.cfg := rfl
@[simp] theorem State.present_cause (w : CommandWord) : (s.present w).cause = s.cause := rfl
@[simp] theorem State.present_warnEph (w : CommandWord) : (s.present w).warnEph = s.warnEph := rfl
@[simp] theorem State.present_warnBp (w : CommandWord) : (s.present w).warnBp = s.warnBp := rfl
@[simp] theorem State.present_result (w : CommandWord) : (s.present w).result = s.result := rfl
@[simp] theorem State.present_mqA (w : CommandWord) : (s.present w).mqA = s.mqA := rfl
@[simp] theorem State.present_mqC (w : CommandWord) : (s.present w).mqC = s.mqC := rfl
@[simp] theorem State.present_mqBp (w : CommandWord) : (s.present w).mqBp = s.mqBp := rfl
@[simp] theorem State.present_raw (w : CommandWord) : (s.present w).raw = s.raw := rfl
@[simp] theorem State.present_mqinit (w : CommandWord) : (s.present w).mqinit = s.mqinit := rfl
@[simp] theorem State.present_cx (w : CommandWord) : (s.present w).cx = s.cx := rfl
@[simp] theorem State.present_brPos (w : CommandWord) : (s.present w).brPos = s.brPos := rfl
@[simp] theorem State.present_brEnd (w : CommandWord) : (s.present w).brEnd = s.brEnd := rfl
@[simp] theorem State.present_brBitidx (w : CommandWord) : (s.present w).brBitidx = s.brBitidx := rfl
@[simp] theorem State.present_brinit (w : CommandWord) : (s.present w).brinit = s.brinit := rfl
@[simp] theorem State.present_nodes (w : CommandWord) : (s.present w).nodes = s.nodes := rfl
@[simp] theorem State.present_phmem (w : CommandWord) : (s.present w).phmem = s.phmem := rfl
@[simp] theorem State.present_cbmem (w : CommandWord) : (s.present w).cbmem = s.cbmem := rfl
@[simp] theorem State.present_port (w : CommandWord) : (s.present w).port = .command w :: s.port := rfl
@[simp] theorem State.present_reply (w : CommandWord) : (s.present w).reply = s.reply := rfl
@[simp] theorem State.present_draws (w : CommandWord) : (s.present w).draws = s.draws := rfl

/-! ### loseCursor -/

@[simp] theorem State.loseCursor_cfg : (s.loseCursor).cfg = s.cfg := rfl
@[simp] theorem State.loseCursor_cause : (s.loseCursor).cause = s.cause := rfl
@[simp] theorem State.loseCursor_warnEph : (s.loseCursor).warnEph = s.warnEph := rfl
@[simp] theorem State.loseCursor_warnBp : (s.loseCursor).warnBp = s.warnBp := rfl
@[simp] theorem State.loseCursor_result : (s.loseCursor).result = s.result := rfl
@[simp] theorem State.loseCursor_mqA : (s.loseCursor).mqA = s.mqA := rfl
@[simp] theorem State.loseCursor_mqC : (s.loseCursor).mqC = s.mqC := rfl
@[simp] theorem State.loseCursor_mqBp : (s.loseCursor).mqBp = s.mqBp := rfl
@[simp] theorem State.loseCursor_raw : (s.loseCursor).raw = s.raw := rfl
@[simp] theorem State.loseCursor_mqinit : (s.loseCursor).mqinit = s.mqinit := rfl
@[simp] theorem State.loseCursor_cx : (s.loseCursor).cx = s.cx := rfl
@[simp] theorem State.loseCursor_brPos : (s.loseCursor).brPos = Config.freeBrPos s.draws := rfl
@[simp] theorem State.loseCursor_brEnd : (s.loseCursor).brEnd = s.brEnd := rfl
@[simp] theorem State.loseCursor_brBitidx : (s.loseCursor).brBitidx = BitVec.ofNat 4 (Config.freeBrBitidx s.draws).val := rfl
@[simp] theorem State.loseCursor_brinit : (s.loseCursor).brinit = s.brinit := rfl
@[simp] theorem State.loseCursor_nodes : (s.loseCursor).nodes = s.nodes := rfl
@[simp] theorem State.loseCursor_phmem : (s.loseCursor).phmem = s.phmem := rfl
@[simp] theorem State.loseCursor_cbmem : (s.loseCursor).cbmem = s.cbmem := rfl
@[simp] theorem State.loseCursor_port : (s.loseCursor).port = s.port := rfl
@[simp] theorem State.loseCursor_reply : (s.loseCursor).reply = s.reply := rfl
@[simp] theorem State.loseCursor_draws : (s.loseCursor).draws = s.draws + 1 := rfl

/-! ### loseMqRegs -/

@[simp] theorem State.loseMqRegs_cfg : (s.loseMqRegs).cfg = s.cfg := rfl
@[simp] theorem State.loseMqRegs_cause : (s.loseMqRegs).cause = s.cause := rfl
@[simp] theorem State.loseMqRegs_warnEph : (s.loseMqRegs).warnEph = s.warnEph := rfl
@[simp] theorem State.loseMqRegs_warnBp : (s.loseMqRegs).warnBp = s.warnBp := rfl
@[simp] theorem State.loseMqRegs_result : (s.loseMqRegs).result = s.result := rfl
@[simp] theorem State.loseMqRegs_mqA : (s.loseMqRegs).mqA = Config.freeMqA s.draws := rfl
@[simp] theorem State.loseMqRegs_mqC : (s.loseMqRegs).mqC = Config.freeMqC s.draws := rfl
@[simp] theorem State.loseMqRegs_mqBp : (s.loseMqRegs).mqBp = Config.freeMqBp s.draws := rfl
@[simp] theorem State.loseMqRegs_raw : (s.loseMqRegs).raw = s.raw := rfl
@[simp] theorem State.loseMqRegs_mqinit : (s.loseMqRegs).mqinit = s.mqinit := rfl
@[simp] theorem State.loseMqRegs_cx : (s.loseMqRegs).cx = s.cx := rfl
@[simp] theorem State.loseMqRegs_brPos : (s.loseMqRegs).brPos = s.brPos := rfl
@[simp] theorem State.loseMqRegs_brEnd : (s.loseMqRegs).brEnd = s.brEnd := rfl
@[simp] theorem State.loseMqRegs_brBitidx : (s.loseMqRegs).brBitidx = s.brBitidx := rfl
@[simp] theorem State.loseMqRegs_brinit : (s.loseMqRegs).brinit = s.brinit := rfl
@[simp] theorem State.loseMqRegs_nodes : (s.loseMqRegs).nodes = s.nodes := rfl
@[simp] theorem State.loseMqRegs_phmem : (s.loseMqRegs).phmem = s.phmem := rfl
@[simp] theorem State.loseMqRegs_cbmem : (s.loseMqRegs).cbmem = s.cbmem := rfl
@[simp] theorem State.loseMqRegs_port : (s.loseMqRegs).port = s.port := rfl
@[simp] theorem State.loseMqRegs_reply : (s.loseMqRegs).reply = s.reply := rfl
@[simp] theorem State.loseMqRegs_draws : (s.loseMqRegs).draws = s.draws + 1 := rfl

/-! ### resetAction -/

@[simp] theorem State.resetAction_cfg : (s.resetAction).cfg = s.cfg := rfl
@[simp] theorem State.resetAction_cause : (s.resetAction).cause = .none := rfl
@[simp] theorem State.resetAction_warnEph : (s.resetAction).warnEph = false := rfl
@[simp] theorem State.resetAction_warnBp : (s.resetAction).warnBp = false := rfl
@[simp] theorem State.resetAction_result : (s.resetAction).result = 0 := rfl
@[simp] theorem State.resetAction_mqA : (s.resetAction).mqA = 0 := rfl
@[simp] theorem State.resetAction_mqC : (s.resetAction).mqC = 0 := rfl
@[simp] theorem State.resetAction_mqBp : (s.resetAction).mqBp = 0 := rfl
@[simp] theorem State.resetAction_raw : (s.resetAction).raw = false := rfl
@[simp] theorem State.resetAction_mqinit : (s.resetAction).mqinit = false := rfl
@[simp] theorem State.resetAction_cx : (s.resetAction).cx = initialContexts := rfl
@[simp] theorem State.resetAction_brPos : (s.resetAction).brPos = 0 := rfl
@[simp] theorem State.resetAction_brEnd : (s.resetAction).brEnd = 0 := rfl
@[simp] theorem State.resetAction_brBitidx : (s.resetAction).brBitidx = 8 := rfl
@[simp] theorem State.resetAction_brinit : (s.resetAction).brinit = false := rfl
@[simp] theorem State.resetAction_nodes : (s.resetAction).nodes = [] := rfl
@[simp] theorem State.resetAction_phmem : (s.resetAction).phmem = s.phmem := rfl
@[simp] theorem State.resetAction_cbmem : (s.resetAction).cbmem = s.cbmem := rfl
@[simp] theorem State.resetAction_port : (s.resetAction).port = s.port := rfl
@[simp] theorem State.resetAction_reply : (s.resetAction).reply = s.reply := rfl
@[simp] theorem State.resetAction_draws : (s.resetAction).draws = s.draws := rfl

/-! ### raise -/

theorem State.raise_of_unfaulted (c : Cause) (h : s.cause = .none) : s.raise c = { s with cause := c } := if_pos h
theorem State.raise_of_faulted (c : Cause) (h : s.cause ≠ .none) : s.raise c = s := if_neg h
@[simp] theorem State.raise_cfg (c : Cause) : (s.raise c).cfg = s.cfg := by unfold State.raise; split <;> rfl
@[simp] theorem State.raise_warnEph (c : Cause) : (s.raise c).warnEph = s.warnEph := by unfold State.raise; split <;> rfl
@[simp] theorem State.raise_warnBp (c : Cause) : (s.raise c).warnBp = s.warnBp := by unfold State.raise; split <;> rfl
@[simp] theorem State.raise_result (c : Cause) : (s.raise c).result = s.result := by unfold State.raise; split <;> rfl
@[simp] theorem State.raise_mqA (c : Cause) : (s.raise c).mqA = s.mqA := by unfold State.raise; split <;> rfl
@[simp] theorem State.raise_mqC (c : Cause) : (s.raise c).mqC = s.mqC := by unfold State.raise; split <;> rfl
@[simp] theorem State.raise_mqBp (c : Cause) : (s.raise c).mqBp = s.mqBp := by unfold State.raise; split <;> rfl
@[simp] theorem State.raise_raw (c : Cause) : (s.raise c).raw = s.raw := by unfold State.raise; split <;> rfl
@[simp] theorem State.raise_mqinit (c : Cause) : (s.raise c).mqinit = s.mqinit := by unfold State.raise; split <;> rfl
@[simp] theorem State.raise_cx (c : Cause) : (s.raise c).cx = s.cx := by unfold State.raise; split <;> rfl
@[simp] theorem State.raise_brPos (c : Cause) : (s.raise c).brPos = s.brPos := by unfold State.raise; split <;> rfl
@[simp] theorem State.raise_brEnd (c : Cause) : (s.raise c).brEnd = s.brEnd := by unfold State.raise; split <;> rfl
@[simp] theorem State.raise_brBitidx (c : Cause) : (s.raise c).brBitidx = s.brBitidx := by unfold State.raise; split <;> rfl
@[simp] theorem State.raise_brinit (c : Cause) : (s.raise c).brinit = s.brinit := by unfold State.raise; split <;> rfl
@[simp] theorem State.raise_nodes (c : Cause) : (s.raise c).nodes = s.nodes := by unfold State.raise; split <;> rfl
@[simp] theorem State.raise_phmem (c : Cause) : (s.raise c).phmem = s.phmem := by unfold State.raise; split <;> rfl
@[simp] theorem State.raise_cbmem (c : Cause) : (s.raise c).cbmem = s.cbmem := by unfold State.raise; split <;> rfl
@[simp] theorem State.raise_port (c : Cause) : (s.raise c).port = s.port := by unfold State.raise; split <;> rfl
@[simp] theorem State.raise_reply (c : Cause) : (s.raise c).reply = s.reply := by unfold State.raise; split <;> rfl
@[simp] theorem State.raise_draws (c : Cause) : (s.raise c).draws = s.draws := by unfold State.raise; split <;> rfl

/-! ### reads that depend on few fields -/

@[simp] theorem State.cursor_pos : s.cursor.pos = s.brPos := rfl
@[simp] theorem State.cursor_bitidx : s.cursor.bitidx = s.brBitidx := rfl
@[simp] theorem State.mqRegs_a : s.mqRegs.a = s.mqA := rfl
@[simp] theorem State.mqRegs_c : s.mqRegs.c = s.mqC := rfl
@[simp] theorem State.mqRegs_bp : s.mqRegs.bp = s.mqBp := rfl

end

end Sys2Proof.Machine
end

