-- ==== Sys2Proof/Laws/Cursor.lean ====
section
/-! SUPPORT. What the header-bit cursor can do: `GetBit()` takes the first of the header bits still to come
(43_bitstream.md R161), and fails exactly where none is left. -/

namespace Sys2Proof.Machine

theorem byteBits_zero (b : Byte) : byteBits b 0 = [] := rfl

theorem byteBits_succ (b : Byte) (k : Nat) : byteBits b (k + 1) = b.getLsbD k :: byteBits b k := by
  simp [byteBits, List.range_succ]

theorem length_byteBits (b : Byte) (k : Nat) : (byteBits b k).length = k := by simp [byteBits]

theorem State.phRead_eq_none (s : State) (a : Nat) : s.phRead a = none ↔ s.brEnd.toNat ≤ a := by
  unfold State.phRead; split <;> simp <;> omega

theorem State.phRead_of_lt (s : State) (a : Nat) (h : a < s.brEnd.toNat) : s.phRead a = some (s.phByte a) := if_pos h

theorem State.phRead_of_le (s : State) (a : Nat) (h : s.brEnd.toNat ≤ a) : s.phRead a = none := if_neg (by omega)

theorem State.bitsFrom_of_le (s : State) (c : Cursor) (h : s.brEnd.toNat ≤ c.pos.toNat) : s.bitsFrom c = [] :=
  if_neg (by omega)

theorem State.bitsFrom_of_lt (s : State) (c : Cursor) (h : c.pos.toNat < s.brEnd.toNat) :
    s.bitsFrom c = byteBits (s.phByte c.pos.toNat) c.bitidx.toNat ++
      s.laterBits (s.brEnd.toNat - c.pos.toNat - 1) (c.pos.toNat + 1) (s.phByte c.pos.toNat) :=
  if_pos h

theorem toNat_add_one_of_lt {a b : Word} (h : a.toNat < b.toNat) : (a + 1).toNat = a.toNat + 1 := by
  have := b.isLt
  rw [BitVec.toNat_add, show (1 : Word).toNat = 1 from rfl]
  omega

theorem toNat_sub_one_of_ne_zero {k : BitVec 4} (h : k ≠ 0) : k.toNat = (k - 1).toNat + 1 := by
  have : k.toNat ≠ 0 := fun e => h (BitVec.eq_of_toNat_eq e)
  have := k.isLt
  rw [BitVec.toNat_sub, show (1 : BitVec 4).toNat = 1 from rfl]
  omega

/-- A read with bits left in the current byte. -/
theorem State.getBit_of_bitidx_pos (s : State) (c : Cursor) (h0 : c.bitidx ≠ 0) (h : c.pos.toNat < s.brEnd.toNat) :
    s.getBit c = some ((s.phByte c.pos.toNat).getLsbD (c.bitidx - 1).toNat, ⟨c.pos, c.bitidx - 1⟩) := by
  simp only [State.getBit, State.stepCursor, if_neg h0, s.phRead_of_lt _ h]

/-- A read that steps to the next byte. -/
theorem State.getBit_of_bitidx_zero (s : State) (c : Cursor) (h0 : c.bitidx = 0)
    (h : c.pos.toNat + 1 < s.brEnd.toNat) :
    s.getBit c =
      let k : BitVec 4 := if s.phByte c.pos.toNat = 0xFF then 7 else 8
      some ((s.phByte (c.pos.toNat + 1)).getLsbD (k - 1).toNat, ⟨c.pos + 1, k - 1⟩) := by
  have h1 : c.pos.toNat < s.brEnd.toNat := by omega
  have h2 : (c.pos + 1).toNat = c.pos.toNat + 1 := toNat_add_one_of_lt h1
  simp only [State.getBit, State.stepCursor, h0, if_true, s.phRead_of_lt _ h1, h2, s.phRead_of_lt _ h]

/-- No bit is left: the current byte is past the window, or used up and the last of the window. -/
theorem State.getBit_eq_none_iff (s : State) (c : Cursor) :
    s.getBit c = none ↔
      s.brEnd.toNat ≤ c.pos.toNat ∨ (c.bitidx = 0 ∧ s.brEnd.toNat ≤ c.pos.toNat + 1) := by
  by_cases h : c.pos.toNat < s.brEnd.toNat
  · by_cases h0 : c.bitidx = 0
    · by_cases h1 : c.pos.toNat + 1 < s.brEnd.toNat
      · rw [s.getBit_of_bitidx_zero c h0 h1]
        exact iff_of_false (by simp) (by omega)
      · have h2 : (c.pos + 1).toNat = c.pos.toNat + 1 := toNat_add_one_of_lt h
        have h3 : s.brEnd.toNat ≤ c.pos.toNat + 1 := by omega
        simp only [State.getBit, State.stepCursor, h0, if_true, s.phRead_of_lt _ h, h2, s.phRead_of_le _ h3]
        exact ⟨fun _ => .inr ⟨trivial, h3⟩, fun _ => trivial⟩
    · rw [s.getBit_of_bitidx_pos c h0 h]
      exact iff_of_false (by simp) (not_or.2 ⟨by omega, fun e => h0 e.1⟩)
  · have h' : s.brEnd.toNat ≤ c.pos.toNat := by omega
    have hn : s.phRead c.pos.toNat = none := s.phRead_of_le _ h'
    refine ⟨fun _ => .inl h', fun _ => ?_⟩
    by_cases h0 : c.bitidx = 0
    · simp only [State.getBit, State.stepCursor, if_pos h0, hn]
    · simp only [State.getBit, State.stepCursor, if_neg h0, hn]

/-- `GetBit()` takes the first header bit still to come. -/
theorem State.bitsFrom_of_getBit (s : State) (c c' : Cursor) (b : Bool) (h : s.getBit c = some (b, c')) :
    s.bitsFrom c = b :: s.bitsFrom c' := by
  have hn := mt (s.getBit_eq_none_iff c).2 (by simp [h])
  simp only [not_or, not_and, Nat.not_le] at hn
  by_cases h0 : c.bitidx = 0
  · have h1 := hn.2 h0
    rw [s.getBit_of_bitidx_zero c h0 h1] at h
    have hp : (c.pos + 1).toNat = c.pos.toNat + 1 := toNat_add_one_of_lt hn.1
    simp only [Option.some.injEq, Prod.mk.injEq] at h
    obtain ⟨rfl, rfl⟩ := h
    rw [s.bitsFrom_of_lt c hn.1, s.bitsFrom_of_lt _ (by simpa only [hp] using h1)]
    obtain ⟨k, hk⟩ : ∃ k, s.brEnd.toNat - c.pos.toNat - 1 = k + 1 := ⟨s.brEnd.toNat - c.pos.toNat - 2, by omega⟩
    simp only [hp, h0, hk, State.laterBits, show s.brEnd.toNat - (c.pos.toNat + 1) - 1 = k by omega]
    by_cases hf : s.phByte c.pos.toNat = 0xFF
    · simp only [if_pos hf]
      rw [show byteBits (s.phByte (c.pos.toNat + 1)) 7 = _ from byteBits_succ _ 6]
      rfl
    · simp only [if_neg hf]
      rw [show byteBits (s.phByte (c.pos.toNat + 1)) 8 = _ from byteBits_succ _ 7]
      rfl
  · rw [s.getBit_of_bitidx_pos c h0 hn.1] at h
    simp only [Option.some.injEq, Prod.mk.injEq] at h
    obtain ⟨rfl, rfl⟩ := h
    rw [s.bitsFrom_of_lt c hn.1, s.bitsFrom_of_lt ⟨c.pos, c.bitidx - 1⟩ hn.1, toNat_sub_one_of_ne_zero h0, byteBits_succ]
    rfl

/-- No header bit is left exactly where `GetBit()` is BR_EXHAUSTED. -/
theorem State.bitsFrom_eq_nil_iff (s : State) (c : Cursor) : s.bitsFrom c = [] ↔ s.getBit c = none := by
  constructor
  · intro h
    cases hg : s.getBit c with
    | none => rfl
    | some p => rw [s.bitsFrom_of_getBit c p.2 p.1 hg] at h; cases h
  · intro h
    rcases (s.getBit_eq_none_iff c).1 h with h | ⟨h0, h⟩
    · exact s.bitsFrom_of_le c h
    · by_cases h1 : c.pos.toNat < s.brEnd.toNat
      · rw [s.bitsFrom_of_lt c h1, h0, show s.brEnd.toNat - c.pos.toNat - 1 = 0 by omega]; rfl
      · exact s.bitsFrom_of_le c (by omega)

/-- The header bits never lie: a first bit is what `GetBit()` answers. -/
theorem State.getBit_of_bitsFrom (s : State) (c : Cursor) (b : Bool) (rest : List Bool) (h : s.bitsFrom c = b :: rest) :
    ∃ c', s.getBit c = some (b, c') ∧ s.bitsFrom c' = rest := by
  cases hg : s.getBit c with
  | none => rw [(s.bitsFrom_eq_nil_iff c).2 hg] at h; cases h
  | some p =>
    rw [s.bitsFrom_of_getBit c p.2 p.1 hg, List.cons.injEq] at h
    exact ⟨p.2, by rw [← h.1], h.2⟩

/-- A cursor whose bit count is legal stays so. -/
theorem State.getBit_bitidx (s : State) (c c' : Cursor) (b : Bool) (h : s.getBit c = some (b, c'))
    (h8 : c.bitidx.toNat ≤ 8) : c'.bitidx.toNat ≤ 7 := by
  have hn := mt (s.getBit_eq_none_iff c).2 (by simp [h])
  simp only [not_or, not_and, Nat.not_le] at hn
  by_cases h0 : c.bitidx = 0
  · rw [s.getBit_of_bitidx_zero c h0 (hn.2 h0)] at h
    simp only [Option.some.injEq, Prod.mk.injEq] at h
    obtain ⟨-, rfl⟩ := h
    by_cases hf : s.phByte c.pos.toNat = 0xFF <;> simp only [hf, if_true, if_false] <;> decide
  · rw [s.getBit_of_bitidx_pos c h0 hn.1] at h
    simp only [Option.some.injEq, Prod.mk.injEq] at h
    obtain ⟨-, rfl⟩ := h
    have := toNat_sub_one_of_ne_zero h0
    show (c.bitidx - 1).toNat ≤ 7
    omega

/-- `GetBits(n)`: the first `n` header bits, most significant first, or BR_EXHAUSTED where fewer are left. -/
theorem State.getBits_eq (s : State) (n r : Nat) (c : Cursor) :
    (n ≤ (s.bitsFrom c).length →
      ∃ c', s.getBits n r c = some (((s.bitsFrom c).take n).foldl (fun r b => 2 * r + b.toNat) r, c') ∧
        s.bitsFrom c' = (s.bitsFrom c).drop n ∧ s.cursorAfter n c = some c') ∧
    ((s.bitsFrom c).length < n → s.getBits n r c = none) := by
  induction n generalizing r c with
  | zero => simp [State.getBits, State.cursorAfter]
  | succ n ih =>
    cases hb : s.bitsFrom c with
    | nil => simp [State.getBits, (s.bitsFrom_eq_nil_iff c).1 hb]
    | cons b rest =>
      obtain ⟨c1, hg, hr⟩ := s.getBit_of_bitsFrom c b rest hb
      have := ih (2 * r + b.toNat) c1
      rw [hr] at this
      simpa [State.getBits, State.cursorAfter, hg] using this

/-- A cursor that has taken `k` bits stands `k` bits further in the header bits. -/
theorem State.bitsFrom_of_cursorAfter (s : State) (k : Nat) (c c' : Cursor) (h : s.cursorAfter k c = some c') :
    s.bitsFrom c' = (s.bitsFrom c).drop k ∧ k ≤ (s.bitsFrom c).length := by
  induction k generalizing c with
  | zero => simp only [State.cursorAfter, Option.some.injEq] at h; simp [h]
  | succ k ih =>
    simp only [State.cursorAfter] at h
    cases hg : s.getBit c with
    | none => simp [hg] at h
    | some p =>
      rw [hg] at h
      rw [s.bitsFrom_of_getBit c p.2 p.1 hg]
      simpa using ih p.2 h

theorem State.cursorAfter_add (s : State) (j k : Nat) (c c' : Cursor) (h : s.cursorAfter j c = some c') :
    s.cursorAfter (j + k) c = s.cursorAfter k c' := by
  induction j generalizing c with
  | zero => simp only [State.cursorAfter, Option.some.injEq] at h; simp [h]
  | succ j ih =>
    rw [show j + 1 + k = (j + k) + 1 by omega]
    simp only [State.cursorAfter] at h ⊢
    cases hg : s.getBit c with
    | none => simp [hg] at h
    | some p => rw [hg] at h; exact ih p.2 h

theorem State.cursorAfter_bitidx (s : State) (k : Nat) (c c' : Cursor) (h : s.cursorAfter k c = some c')
    (h8 : c.bitidx.toNat ≤ 8) : c'.bitidx.toNat ≤ 8 := by
  induction k generalizing c with
  | zero => simp only [State.cursorAfter, Option.some.injEq] at h; exact h ▸ h8
  | succ k ih =>
    simp only [State.cursorAfter] at h
    cases hg : s.getBit c with
    | none => simp [hg] at h
    | some p =>
      rw [hg] at h
      exact ih p.2 h (Nat.le_succ_of_le (s.getBit_bitidx c p.2 p.1 hg h8))

/-! ### How many header bits there are -/

theorem State.length_laterBits_le (s : State) (k a : Nat) (prev : Byte) : (s.laterBits k a prev).length ≤ 8 * k := by
  induction k generalizing a prev with
  | zero => exact Nat.le_refl _
  | succ k ih =>
    have := ih (a + 1) (s.phByte a)
    simp only [State.laterBits, List.length_append, length_byteBits]
    split <;> omega

/-- The bound of 70_reset_and_hazards.md R256 on the header bits still to come. -/
theorem State.length_bitsFrom_le (s : State) (c : Cursor) :
    (s.bitsFrom c).length ≤ 8 * (s.brEnd.toNat - c.pos.toNat) + c.bitidx.toNat := by
  unfold State.bitsFrom
  split
  · have := s.length_laterBits_le (s.brEnd.toNat - c.pos.toNat - 1) (c.pos.toNat + 1) (s.phByte c.pos.toNat)
    simp only [List.length_append, length_byteBits]
    omega
  · simp

end Sys2Proof.Machine
end

