-- ==== Sys2Proof/Laws/Exec.lean ====
section
/-! SUPPORT. What the shared operations every command begins and ends with can do: refusal, checks, fault entry (30_encoding.md
R78, 60_exceptions.md R223, R224), the fields of a word (30_encoding.md R70), and the register map (10_state.md R39). -/

namespace Sys2Proof.Machine

/-! ### Refusal, checks, fault entry -/

theorem State.faulted_of_none (s : State) (h : s.cause = .none) : s.faulted = false := by simp [State.faulted, h]

theorem State.faulted_of_ne (s : State) (h : s.cause ≠ .none) : s.faulted = true := by simp [State.faulted, h]

theorem State.unlessFaulted_of_none (s t : State) (h : s.cause = .none) : s.unlessFaulted t = t := by
  simp [State.unlessFaulted, s.faulted_of_none h]

theorem State.unlessFaulted_of_ne (s t : State) (h : s.cause ≠ .none) : s.unlessFaulted t = s := by
  simp [State.unlessFaulted, s.faulted_of_ne h]

theorem State.raise_of_none (s : State) (c : Cause) (h : s.cause = .none) : s.raise c = { s with cause := c } := if_pos h

theorem State.raise_of_ne (s : State) (c : Cause) (h : s.cause ≠ .none) : s.raise c = s := if_neg h

theorem State.requireField_true (s t : State) (ok : Bool) (h : ok = true) : s.requireField ok t = t := if_pos h

theorem State.requireField_false (s t : State) (ok : Bool) (h : ok = false) :
    s.requireField ok t = s.raise .illegalField := by simp [State.requireField, h]

theorem State.requireState_true (s t : State) (ok : Bool) (h : ok = true) : s.requireState ok t = t := if_pos h

theorem State.requireState_false (s t : State) (ok : Bool) (h : ok = false) :
    s.requireState ok t = s.raise .illegalState := by simp [State.requireState, h]

/-- A check passes, with what stands behind it, or raises its cause. -/
theorem State.requireField_cases (s t : State) (ok : Bool) :
    (ok = true ∧ s.requireField ok t = t) ∨ (ok = false ∧ s.requireField ok t = s.raise .illegalField) := by
  cases ok
  · exact .inr ⟨rfl, rfl⟩
  · exact .inl ⟨rfl, rfl⟩

/-- See `State.requireField_cases`. -/
theorem State.requireState_cases (s t : State) (ok : Bool) :
    (ok = true ∧ s.requireState ok t = t) ∨ (ok = false ∧ s.requireState ok t = s.raise .illegalState) := by
  cases ok
  · exact .inr ⟨rfl, rfl⟩
  · exact .inl ⟨rfl, rfl⟩

/-- `CXI` names a context exactly where it is below 19. -/
theorem contextIndex_of_lt (cxi : BitVec 5) (i : Fin 19) (h : cxi.toNat = i.val) : contextIndex cxi = some i := by
  have : cxi.toNat < 19 := by omega
  simp only [contextIndex, this, dif_pos, Option.some.injEq]
  exact Fin.ext h

theorem contextIndex_of_le (cxi : BitVec 5) (h : 19 ≤ cxi.toNat) : contextIndex cxi = none := dif_neg (by omega)

theorem contextIndex_eq_none (cxi : BitVec 5) (h : contextIndex cxi = none) : 19 ≤ cxi.toNat := by
  by_contra hlt
  rw [contextIndex_of_lt cxi ⟨cxi.toNat, by omega⟩ rfl] at h
  cases h

theorem contextIndex_eq_some (cxi : BitVec 5) (i : Fin 19) (h : contextIndex cxi = some i) : cxi.toNat = i.val := by
  by_cases hlt : cxi.toNat < 19
  · rw [contextIndex_of_lt cxi ⟨cxi.toNat, hlt⟩ rfl] at h
    cases h; rfl
  · rw [contextIndex_of_le cxi (by omega)] at h; cases h

/-! ### The fields of a word -/

theorem opcField_commandWord (opc : BitVec 8) (a : BitVec 24) (b : Word) : opcField (commandWord opc a b) = opc := by
  unfold opcField commandWord
  ext i hi
  simp only [BitVec.getElem_extractLsb', BitVec.getLsbD_append]
  have h1 : ¬ 56 + i < 32 := by omega
  have h2 : ¬ 56 + i - 32 < 24 := by omega
  simp only [h1, h2, if_false]
  rw [show 56 + i - 32 - 24 = i by omega, BitVec.getLsbD_eq_getElem hi]

theorem aField_commandWord (opc : BitVec 8) (a : BitVec 24) (b : Word) : aField (commandWord opc a b) = a := by
  unfold aField commandWord
  ext i hi
  simp only [BitVec.getElem_extractLsb', BitVec.getLsbD_append]
  have h1 : ¬ 32 + i < 32 := by omega
  have h2 : 32 + i - 32 < 24 := by omega
  simp only [h1, h2, if_false, if_true]
  rw [show 32 + i - 32 = i by omega, BitVec.getLsbD_eq_getElem hi]

theorem bField_commandWord (opc : BitVec 8) (a : BitVec 24) (b : Word) : bField (commandWord opc a b) = b := by
  unfold bField commandWord
  rw [BitVec.extractLsb'_append_eq_right]

/-- A word is made of its three fields. -/
theorem commandWord_fields (w : CommandWord) : commandWord (opcField w) (aField w) (bField w) = w := by
  unfold commandWord opcField aField bField
  ext i hi
  simp only [BitVec.getElem_append, BitVec.getElem_extractLsb']
  split
  · rw [Nat.zero_add, BitVec.getLsbD_eq_getElem hi]
  · split
    · rw [show 32 + (i - 32) = i by omega, BitVec.getLsbD_eq_getElem hi]
    · rw [show 56 + (i - 32 - 24) = i by omega, BitVec.getLsbD_eq_getElem hi]

theorem decode_commandWord (opc : BitVec 8) (a : BitVec 24) (b : Word) : decode (commandWord opc a b) = decodeFields opc a b := by
  rw [decode, opcField_commandWord, aField_commandWord, bField_commandWord]

/-! ### The register map -/

/-- The register map has a value exactly for the numbers the value check of `REGREAD` lets through. -/
theorem State.readRegister_eq_none_iff (s : State) (reg : BitVec 8) :
    s.readRegister reg = none ↔ registerDefined reg = false := by
  revert reg
  intro reg
  have key : ∀ n : Fin 256, s.readRegister (BitVec.ofFin n) = none ↔ registerDefined (BitVec.ofFin n) = false := by
    intro n
    fin_cases n <;> first
      | exact iff_of_true rfl rfl
      | exact iff_of_false (fun h => Option.some_ne_none _ h) (fun h => Bool.noConfusion h)
  exact key reg.toFin

end Sys2Proof.Machine
end

