-- ==== Sys2Proof/Laws/Store.lean ====
section
/-! SUPPORT. What the sparse stores do: a read after a write, the canonical form kept by every operation, and equal contents
are equal lists (log 3, 17). -/

namespace Sys2Proof.Machine

section
variable {α : Type} [DecidableEq α] (d : α)

omit [DecidableEq α] in
theorem sparseRead_of_lt_all (m : List (Nat × α)) (a : Nat) (h : ∀ c ∈ m, a < c.1) : sparseRead d m a = d := by
  induction m with
  | nil => rfl
  | cons c rest ih =>
    have hc := h c (by simp)
    have hr := ih fun x hx => h x (by simp [hx])
    obtain ⟨b, v⟩ := c
    simp only [sparseRead, if_neg (Nat.ne_of_lt hc)]
    exact hr

omit [DecidableEq α] in
theorem sparseRead_eq_of_mem (m : List (Nat × α)) (hm : m.Pairwise (fun x y => x.1 < y.1)) (c : Nat × α) (h : c ∈ m) :
    sparseRead d m c.1 = c.2 := by
  induction m with
  | nil => cases h
  | cons e rest ih =>
    obtain ⟨b, v⟩ := e
    rw [List.pairwise_cons] at hm
    rcases List.mem_cons.1 h with rfl | h
    · simp [sparseRead]
    · have := hm.1 c h
      simp only [sparseRead, if_neg (Nat.ne_of_gt this)]
      exact ih hm.2 h

omit [DecidableEq α] in
/-- What a place reads as, if it is not listed. -/
theorem sparseRead_of_not_mem (m : List (Nat × α)) (a : Nat) (h : ∀ c ∈ m, c.1 ≠ a) : sparseRead d m a = d := by
  induction m with
  | nil => rfl
  | cons c rest ih =>
    obtain ⟨b, v⟩ := c
    have hc : a ≠ b := fun e => h (b, v) (by simp) e.symm
    simp only [sparseRead, if_neg hc]
    exact ih fun x hx => h x (by simp [hx])

/-- A read after a write: the value written at its own place, what was there at every other place. -/
theorem sparseRead_sparseWrite (m : List (Nat × α)) (hm : m.Pairwise (fun x y => x.1 < y.1)) (a b : Nat) (v : α) :
    sparseRead d (sparseWrite d m a v) b = if b = a then v else sparseRead d m b := by
  induction m with
  | nil =>
    simp only [sparseWrite]
    split
    · next h => subst h; simp [sparseRead]
    · simp [sparseRead]
  | cons c rest ih =>
    obtain ⟨k, w⟩ := c
    rw [List.pairwise_cons] at hm
    have ih := ih hm.2
    simp only [sparseWrite]
    split
    · next hlt =>
      have hd : sparseRead d ((k, w) :: rest) a = d :=
        sparseRead_of_lt_all d _ a fun x hx => by
          rcases List.mem_cons.1 hx with rfl | hx
          · exact hlt
          · exact Nat.lt_trans hlt (hm.1 x hx)
      split
      · next hv =>
        by_cases hb : b = a
        · subst hb; simp [hd, hv]
        · simp [hb]
      · by_cases hb : b = a
        · subst hb; simp [sparseRead]
        · conv => lhs; unfold sparseRead
    · next hlt =>
      split
      · next hk =>
        subst hk
        have hr : sparseRead d rest a = d := sparseRead_of_lt_all d _ a fun x hx => hm.1 x hx
        split
        · next hv =>
          by_cases hb : b = a
          · subst hb; simp [hr, hv]
          · simp [hb, sparseRead]
        · by_cases hb : b = a <;> simp [hb, sparseRead]
      · next hk =>
        by_cases hb : b = k
        · have : b ≠ a := fun e => hk (e.symm.trans hb)
          subst hb; simp [sparseRead, this]
        · simp only [sparseRead, if_neg hb]; exact ih

theorem mem_sparseWrite (m : List (Nat × α)) (a : Nat) (v : α) (c : Nat × α) (h : c ∈ sparseWrite d m a v) :
    c ∈ m ∨ (c = (a, v) ∧ v ≠ d) := by
  induction m with
  | nil =>
    simp only [sparseWrite] at h
    split at h
    · cases h
    · next hv => exact .inr ⟨List.mem_singleton.1 h, hv⟩
  | cons e rest ih =>
    obtain ⟨k, w⟩ := e
    simp only [sparseWrite] at h
    split at h
    · split at h
      · exact .inl h
      · next hv =>
        rcases List.mem_cons.1 h with rfl | h
        · exact .inr ⟨rfl, hv⟩
        · exact .inl h
    · split at h
      · split at h
        · exact .inl (List.mem_cons_of_mem _ h)
        · next hv =>
          rcases List.mem_cons.1 h with rfl | h
          · exact .inr ⟨rfl, hv⟩
          · exact .inl (List.mem_cons_of_mem _ h)
      · rcases List.mem_cons.1 h with rfl | h
        · exact .inl (by simp)
        · rcases ih h with h | h
          · exact .inl (List.mem_cons_of_mem _ h)
          · exact .inr h

theorem pairwise_sparseWrite (m : List (Nat × α)) (hm : m.Pairwise (fun x y => x.1 < y.1)) (a : Nat) (v : α) :
    (sparseWrite d m a v).Pairwise (fun x y => x.1 < y.1) := by
  induction m with
  | nil => simp only [sparseWrite]; split <;> simp
  | cons e rest ih =>
    obtain ⟨k, w⟩ := e
    have hm' := hm
    rw [List.pairwise_cons] at hm'
    simp only [sparseWrite]
    split
    · next hlt =>
      split
      · exact hm
      · refine List.pairwise_cons.2 ⟨fun x hx => ?_, hm⟩
        rcases List.mem_cons.1 hx with rfl | hx
        · exact hlt
        · exact Nat.lt_trans hlt (hm'.1 x hx)
    · next hlt =>
      split
      · next hk =>
        subst hk
        split
        · exact hm'.2
        · exact List.pairwise_cons.2 ⟨hm'.1, hm'.2⟩
      · next hk =>
        refine List.pairwise_cons.2 ⟨fun x hx => ?_, ih hm'.2⟩
        rcases mem_sparseWrite d rest a v x hx with hx | ⟨rfl, -⟩
        · exact hm'.1 x hx
        · show k < a; omega

/-- Writing what a place of a canonical store holds leaves the store as it is. -/
theorem sparseWrite_self (m : List (Nat × α)) (hm : m.Pairwise (fun x y => x.1 < y.1)) (hd : ∀ c ∈ m, c.2 ≠ d) (a : Nat) :
    sparseWrite d m a (sparseRead d m a) = m := by
  induction m with
  | nil => simp [sparseRead, sparseWrite]
  | cons c rest ih =>
    obtain ⟨k, w⟩ := c
    have hw : w ≠ d := hd (k, w) (by simp)
    rw [List.pairwise_cons] at hm
    by_cases hk : a = k
    · subst hk; simp [sparseRead, sparseWrite, hw]
    · simp only [sparseRead, if_neg hk, sparseWrite]
      split
      · next hlt =>
        rw [if_pos (sparseRead_of_lt_all d rest a fun x hx => Nat.lt_trans hlt (hm.1 x hx))]
      · rw [ih hm.2 fun c hc => hd c (by simp [hc])]

/-- A write inside the store keeps its canonical form. -/
theorem sparseWf_sparseWrite (size : Nat) (m : List (Nat × α)) (hm : sparseWf d size m) (a : Nat) (v : α) (ha : a < size) :
    sparseWf d size (sparseWrite d m a v) := by
  refine ⟨pairwise_sparseWrite d m hm.1 a v, fun c hc => ?_, fun c hc => ?_⟩
  · rcases mem_sparseWrite d m a v c hc with hc | ⟨rfl, hv⟩
    · exact hm.2.1 c hc
    · exact hv
  · rcases mem_sparseWrite d m a v c hc with hc | ⟨rfl, -⟩
    · exact hm.2.2 c hc
    · exact ha

/-- A place at or past the size of a canonical store reads as unlisted. -/
theorem sparseRead_of_size_le (size : Nat) (m : List (Nat × α)) (hm : sparseWf d size m) (a : Nat) (ha : size ≤ a) :
    sparseRead d m a = d :=
  sparseRead_of_not_mem d m a fun c hc e => absurd (hm.2.2 c hc) (by omega)

end

/-! ### Memories and the node file -/

theorem Memory.read_write (m : Memory) (hm : m.Pairwise (fun x y => x.1 < y.1)) (a b : Nat) (v : Byte) :
    (m.write a v).read b = if b = a then v else m.read b :=
  sparseRead_sparseWrite _ m hm a b v

theorem Memory.wf_write (size : Nat) (m : Memory) (hm : m.wf size) (a : Nat) (v : Byte) (ha : a < size) :
    (m.write a v).wf size :=
  sparseWf_sparseWrite _ size m hm a v ha

theorem Memory.pairwise_write (m : Memory) (hm : m.Pairwise (fun x y => x.1 < y.1)) (a : Nat) (v : Byte) :
    (m.write a v).Pairwise (fun x y => x.1 < y.1) :=
  pairwise_sparseWrite _ m hm a v

theorem Memory.wf_writeBytes (size : Nat) (bytes : List Byte) (m : Memory) (hm : m.wf size) (a : Nat)
    (ha : a + bytes.length ≤ size) : (m.writeBytes a bytes).wf size := by
  induction bytes generalizing m a with
  | nil => exact hm
  | cons v vs ih =>
    simp only [List.length_cons] at ha
    exact ih _ (m.wf_write size hm a v (by omega)) (a + 1) (by omega)

/-- What a memory reads after bytes were stored: the byte stored there, or what it read before. -/
theorem Memory.read_writeBytes (bytes : List Byte) (m : Memory) (hm : m.Pairwise (fun x y => x.1 < y.1)) (a b : Nat) :
    (m.writeBytes a bytes).read b = if a ≤ b then bytes.getD (b - a) (m.read b) else m.read b := by
  induction bytes generalizing m a with
  | nil => simp [Memory.writeBytes]
  | cons v vs ih =>
    simp only [Memory.writeBytes]
    rw [ih _ (m.pairwise_write hm a v), m.read_write hm]
    by_cases h1 : b = a
    · subst h1; simp
    · by_cases h2 : a ≤ b
      · have h3 : a + 1 ≤ b := by omega
        obtain ⟨k, rfl⟩ : ∃ k, b = a + 1 + k := ⟨b - (a + 1), by omega⟩
        simp [h1, h2, show a + 1 + k - (a + 1) = k by omega, show a + 1 + k - a = k + 1 by omega]
      · simp [h1, h2, show ¬ a + 1 ≤ b by omega]

theorem NodeFile.node_setNode (f : NodeFile) (hf : f.Pairwise (fun x y => x.1 < y.1)) (n m : Nat) (v : TagNode) :
    (f.setNode n v).node m = if m = n then v else f.node m :=
  sparseRead_sparseWrite _ f hf n m v

theorem NodeFile.pairwise_setNode (f : NodeFile) (hf : f.Pairwise (fun x y => x.1 < y.1)) (n : Nat) (v : TagNode) :
    (f.setNode n v).Pairwise (fun x y => x.1 < y.1) :=
  pairwise_sparseWrite _ f hf n v

theorem NodeFile.wf_setNode (size : Nat) (f : NodeFile) (hf : f.wf size) (n : Nat) (v : TagNode) (hn : n < size) :
    (f.setNode n v).wf size :=
  sparseWf_sparseWrite _ size f hf n v hn

theorem NodeFile.setNode_self (size : Nat) (f : NodeFile) (hf : f.wf size) (n : Nat) : f.setNode n (f.node n) = f :=
  sparseWrite_self _ f hf.1 hf.2.1 n

end Sys2Proof.Machine
end

