-- ==== Sys2Proof/Laws/Faults.lean ====
section
/-! SUPPORT. What the in-flight faults leave (60_exceptions.md R225): one lemma for each, in an unfaulted block, and what a
node file holds after values are lost. -/

namespace Sys2Proof.Machine

theorem State.exhaustedInRead_eq (s : State) (h : s.cause = .none) :
    s.exhaustedInRead = { s with
      cause := .brExhausted
      brPos := Config.freeBrPos s.draws
      brBitidx := BitVec.ofNat 4 (Config.freeBrBitidx s.draws).val
      result := Config.freeResult s.draws
      draws := s.draws + 1 } := State.raise_of_none _ _ h

theorem State.exhaustedInFlush_eq (s : State) (h : s.cause = .none) :
    s.exhaustedInFlush = { s with
      cause := .brExhausted
      brPos := Config.freeBrPos s.draws
      brBitidx := BitVec.ofNat 4 (Config.freeBrBitidx s.draws).val
      draws := s.draws + 1 } := State.raise_of_none _ _ h

theorem State.exhaustedInDecode_eq (s : State) (n : Nat) (h : s.cause = .none) :
    s.exhaustedInDecode n = { s with
      cause := .brExhausted
      brPos := Config.freeBrPos s.draws
      brBitidx := BitVec.ofNat 4 (Config.freeBrBitidx s.draws).val
      result := Config.freeResult s.draws
      nodes := s.nodes.lose s.draws (s.chainToRoot s.cfg.ttNodes.toNat n)
      draws := s.draws + 1 } := by
  rw [State.exhaustedInDecode, s.exhaustedInRead_eq h]

theorem State.rangeInInitdec_eq (s : State) (h : s.cause = .none) :
    s.rangeInInitdec = { s with
      cause := .mqRange
      mqA := Config.freeMqA s.draws
      mqC := Config.freeMqC s.draws
      mqBp := Config.freeMqBp s.draws
      raw := Config.freeRaw s.draws
      mqinit := Config.freeMqinit s.draws
      cx := Vector.ofFn fun i => freeContext s.draws i.val
      draws := s.draws + 1 } := State.raise_of_none _ _ h

theorem State.rangeInDecode_eq (s : State) (i : Fin 19) (h : s.cause = .none) :
    s.rangeInDecode i = { s with
      cause := .mqRange
      mqA := Config.freeMqA s.draws
      mqC := Config.freeMqC s.draws
      mqBp := Config.freeMqBp s.draws
      cx := s.cx.set i (freeContext s.draws i.val)
      result := Config.freeResult s.draws
      draws := s.draws + 1 } := State.raise_of_none _ _ h

/-- A context state drawn after a fault is legal (60_exceptions.md R225). -/
theorem freeContext_le (draw i : Nat) : (freeContext draw i).toNat ≤ 93 := by
  have := (Config.freeCx draw i).isLt
  rw [freeContext, BitVec.toNat_ofNat]
  omega

/-- A bit count drawn after a fault is legal (60_exceptions.md R225). -/
theorem freeBrBitidx_le (draw : Nat) : (BitVec.ofNat 4 (Config.freeBrBitidx draw).val).toNat ≤ 8 := by
  have := (Config.freeBrBitidx draw).isLt
  rw [BitVec.toNat_ofNat]
  omega

/-! ### Lost nodes -/

theorem NodeFile.pairwise_lose (f : NodeFile) (hf : f.Pairwise (fun x y => x.1 < y.1)) (draw : Nat) (ns : List Nat) :
    (f.lose draw ns).Pairwise (fun x y => x.1 < y.1) := by
  induction ns generalizing f with
  | nil => exact hf
  | cons n ns ih => exact ih _ (f.pairwise_setNode hf n _)

/-- A lost node keeps `VALID` and `PARENT`; a node not lost keeps everything. -/
theorem NodeFile.node_lose (f : NodeFile) (hf : f.Pairwise (fun x y => x.1 < y.1)) (draw : Nat) (ns : List Nat) (m : Nat) :
    ((f.lose draw ns).node m).valid = (f.node m).valid ∧ ((f.lose draw ns).node m).parent = (f.node m).parent ∧
      (m ∉ ns → (f.lose draw ns).node m = f.node m) := by
  induction ns generalizing f with
  | nil => exact ⟨rfl, rfl, fun _ => rfl⟩
  | cons n ns ih =>
    have := ih _ (f.pairwise_setNode hf n { f.node n with val := Config.freeNodeVal draw n, vis := Config.freeNodeVis draw n })
    rw [f.node_setNode hf] at this
    by_cases h : m = n
    · subst h
      rw [if_pos rfl] at this
      exact ⟨this.1, this.2.1, fun hm => absurd List.mem_cons_self hm⟩
    · rw [if_neg h] at this
      exact ⟨this.1, this.2.1, fun hm => this.2.2 fun hn => hm (List.mem_cons_of_mem _ hn)⟩

/-- Losing built nodes inside the file keeps the canonical form. -/
theorem NodeFile.wf_lose (size : Nat) (f : NodeFile) (hf : f.wf size) (draw : Nat) (ns : List Nat)
    (hn : ∀ n ∈ ns, n < size) : (f.lose draw ns).wf size := by
  induction ns generalizing f with
  | nil => exact hf
  | cons n ns ih =>
    exact ih _ (f.wf_setNode size hf n _ (hn n List.mem_cons_self)) fun m hm => hn m (List.mem_cons_of_mem _ hm)

/-- The chain to the root is made of ancestors. -/
theorem State.mem_chainToRoot (s : State) (k n m : Nat) (h : m ∈ s.chainToRoot k n) : ∃ j, s.ancestor n j = some m := by
  induction k generalizing n with
  | zero => simp [State.chainToRoot] at h
  | succ k ih =>
    rw [State.chainToRoot, List.mem_cons] at h
    rcases h with rfl | h
    · exact ⟨0, rfl⟩
    · cases hp : (s.node n).parent with
      | none => simp [hp] at h
      | some p =>
        simp only [hp] at h
        obtain ⟨j, hj⟩ := ih p h
        exact ⟨j + 1, by simp only [State.ancestor, hp, Option.bind_some, hj]⟩

/-- Where parent links are as 10_state.md R43 says, the chain from a built node stays inside the file. -/
theorem State.chainToRoot_lt (s : State) (hp : s.ParentsOk) (k n m : Nat) (hv : (s.node n).valid = true)
    (hn : n < s.cfg.ttNodes.toNat) (h : m ∈ s.chainToRoot k n) : m < s.cfg.ttNodes.toNat := by
  induction k generalizing n with
  | zero => simp [State.chainToRoot] at h
  | succ k ih =>
    rw [State.chainToRoot, List.mem_cons] at h
    rcases h with rfl | h
    · exact hn
    · cases hpar : (s.node n).parent with
      | none => simp [hpar] at h
      | some p =>
        simp only [hpar] at h
        obtain ⟨-, h2, h3⟩ := hp n p hv hpar
        exact ih p h2 h3 h

end Sys2Proof.Machine
end

