-- ==== Sys2Proof/Laws/Mq.lean ====
section
/-! SUPPORT. What the procedures of the MQ unit can do (41_mq_decoder.md R102 to R108): which bytes they read, how far they
move the byte pointer, the interval they leave. -/

namespace Sys2Proof.Machine

/-! ### The tables (41_mq_decoder.md R101, R106) -/

/-- On a legal state byte `qe` is between 1 and 0x5601. -/
theorem qe_bounds : ∀ s : BitVec 7, s.toNat ≤ 93 → 1 ≤ (qe s).toNat ∧ (qe s).toNat ≤ 0x5601 := by decide

/-- `nmps` maps legal state bytes to legal state bytes. -/
theorem nmps_le : ∀ s : BitVec 7, s.toNat ≤ 93 → (nmps s).toNat ≤ 93 := by decide

/-- `nlps` maps legal state bytes to legal state bytes. -/
theorem nlps_le : ∀ s : BitVec 7, s.toNat ≤ 93 → (nlps s).toNat ≤ 93 := by decide

/-! ### Byte input -/

theorem State.cbRead_of_lt (s : State) (a : Nat) (h : a < s.cfg.cbmemSize.toNat) : s.cbRead a = some (s.cbByte a) :=
  if_pos h

theorem State.cbRead_of_le (s : State) (a : Nat) (h : s.cfg.cbmemSize.toNat ≤ a) : s.cbRead a = none :=
  if_neg (by omega)

/-- `ByteIn()` with both bytes it may read inside CBMEM. -/
theorem State.byteIn_of_lt (s : State) (c bp : Word) (h : bp.toNat + 1 < s.cfg.cbmemSize.toNat) :
    s.byteIn c bp =
      if s.cbByte bp.toNat = 0xFF then
        if 0x8F < s.cbByte (bp.toNat + 1) then some (c + 0x0001#32, bp)
        else some (c + 0x0002#32 + 0xFE00#32 - ((s.cbByte (bp.toNat + 1)).setWidth 32 <<< 9), bp + 1)
      else some (c + 0x0001#32 + 0xFF00#32 - ((s.cbByte (bp.toNat + 1)).setWidth 32 <<< 8), bp + 1) := by
  simp only [State.byteIn, s.cbRead_of_lt _ (Nat.lt_of_succ_lt h), s.cbRead_of_lt _ h]

/-- `ByteIn()` fails exactly where the byte after the pointer is outside CBMEM. -/
theorem State.byteIn_eq_none_iff (s : State) (c bp : Word) :
    s.byteIn c bp = none ↔ s.cfg.cbmemSize.toNat ≤ bp.toNat + 1 := by
  by_cases h : bp.toNat + 1 < s.cfg.cbmemSize.toNat
  · rw [s.byteIn_of_lt c bp h]
    refine iff_of_false ?_ (by omega)
    split
    · split <;> simp
    · simp
  · refine iff_of_true ?_ (by omega)
    simp only [State.byteIn, s.cbRead_of_le _ (Nat.le_of_not_lt h)]
    split <;> rfl

theorem word_toNat_succ {bp n : Word} (h : bp.toNat + 1 < n.toNat) : (bp + 1).toNat = bp.toNat + 1 := by
  have := n.isLt
  rw [BitVec.toNat_add, show (1 : Word).toNat = 1 from rfl]
  omega

/-- The pointer moves by at most one byte. It stays exactly on a marker: a 0xFF with a byte above 0x8F after it. -/
theorem State.byteIn_bp (s : State) (c bp c' bp' : Word) (h : s.byteIn c bp = some (c', bp')) :
    bp.toNat + 1 < s.cfg.cbmemSize.toNat ∧
    ((s.cbByte bp.toNat = 0xFF ∧ 0x8F < s.cbByte (bp.toNat + 1)) ∧ bp' = bp ∧ c' = c + 1 ∨
      ¬ (s.cbByte bp.toNat = 0xFF ∧ 0x8F < s.cbByte (bp.toNat + 1)) ∧ bp'.toNat = bp.toNat + 1) := by
  have hb : bp.toNat + 1 < s.cfg.cbmemSize.toNat := by
    have := mt (s.byteIn_eq_none_iff c bp).2 (by simp [h])
    omega
  refine ⟨hb, ?_⟩
  rw [s.byteIn_of_lt c bp hb] at h
  split at h
  · next hff =>
    split at h
    · next hm =>
      simp only [Option.some.injEq, Prod.mk.injEq] at h
      exact .inl ⟨⟨hff, hm⟩, h.2.symm, h.1.symm⟩
    · next hm =>
      simp only [Option.some.injEq, Prod.mk.injEq] at h
      exact .inr ⟨fun e => hm e.2, by rw [← h.2, word_toNat_succ hb]⟩
  · next hff =>
    simp only [Option.some.injEq, Prod.mk.injEq] at h
    exact .inr ⟨fun e => hff e.1, by rw [← h.2, word_toNat_succ hb]⟩

/-- `ByteIn()` depends on the two bytes it may read, and on no other byte of CBMEM. -/
theorem State.byteIn_congr (s t : State) (c bp : Word) (hc : t.cfg = s.cfg)
    (h0 : t.cbByte bp.toNat = s.cbByte bp.toNat) (h1 : t.cbByte (bp.toNat + 1) = s.cbByte (bp.toNat + 1)) :
    t.byteIn c bp = s.byteIn c bp := by
  by_cases h : bp.toNat + 1 < s.cfg.cbmemSize.toNat
  · rw [s.byteIn_of_lt c bp h, t.byteIn_of_lt c bp (by rw [hc]; exact h), h0, h1]
  · rw [(s.byteIn_eq_none_iff c bp).2 (by omega), (t.byteIn_eq_none_iff c bp).2 (by rw [hc]; omega)]

/-! ### The shift counter -/

/-- The shift counter `MQ_C[7:0]` (10_state.md R26). -/
def counter (c : Word) : Nat := c.toNat % 256

theorem counter_eq (c : Word) : (c.extractLsb' 0 8).toNat = counter c := by
  simp [counter, BitVec.extractLsb'_toNat]

theorem counter_shift (c : Word) : counter (c <<< 1) = 2 * counter c % 256 := by
  simp only [counter, BitVec.toNat_shiftLeft, Nat.shiftLeft_eq]; omega

theorem counter_add_byte (c x y : Word) (hx : y.toNat % 256 = 0) (hc : counter c = 0) :
    counter (c - 0x100#32 + x - y) = x.toNat % 256 := by
  unfold counter at *
  have := c.isLt; have := x.isLt; have := y.isLt
  rw [BitVec.toNat_sub, BitVec.toNat_add, BitVec.toNat_sub, show (0x100#32).toNat = 256 from rfl]
  omega

theorem shift_byte_mod (b : Byte) (k : Nat) (hk : 8 ≤ k) : (b.setWidth 32 <<< k : Word).toNat % 256 = 0 := by
  obtain ⟨j, rfl⟩ := Nat.exists_eq_add_of_le hk
  rw [BitVec.toNat_shiftLeft, Nat.shiftLeft_eq, Nat.pow_add]
  have : (BitVec.setWidth 32 b).toNat * (2 ^ 8 * 2 ^ j) = 256 * ((BitVec.setWidth 32 b).toNat * 2 ^ j) := by
    ring
  rw [this]
  omega

/-- Byte input into a spent counter leaves one counter bit: at place 1 after a 0xFF (7 bits), else at place 0. -/
theorem State.byteIn_counter (s : State) (c bp c' bp' : Word) (h : s.byteIn (c - 0x100#32) bp = some (c', bp'))
    (hc : counter c = 0) :
    counter c' = 1 ∨
      (counter c' = 2 ∧ s.cbByte bp.toNat = 0xFF ∧ bp'.toNat = bp.toNat + 1 ∧ s.cbByte bp'.toNat ≠ 0xFF) := by
  have hb := (s.byteIn_bp _ _ _ _ h).1
  rw [s.byteIn_of_lt _ bp hb] at h
  split at h
  · next hff =>
    split at h
    · simp only [Option.some.injEq, Prod.mk.injEq] at h
      refine .inl ?_
      have := counter_add_byte c 0x0001#32 0#32 (by decide) hc
      rw [BitVec.sub_zero] at this
      rw [← h.1]; exact this
    · next hm =>
      simp only [Option.some.injEq, Prod.mk.injEq] at h
      refine .inr ⟨?_, hff, by rw [← h.2, word_toNat_succ hb], fun e => hm ?_⟩
      · have := counter_add_byte c (0x0002#32 + 0xFE00#32) _ (shift_byte_mod (s.cbByte (bp.toNat + 1)) 9 (by omega)) hc
        rw [← h.1, BitVec.add_assoc, this]; rfl
      · rw [← h.2, word_toNat_succ hb] at e
        rw [e]; decide
  · simp only [Option.some.injEq, Prod.mk.injEq] at h
    refine .inl ?_
    have := counter_add_byte c (0x0001#32 + 0xFF00#32) _ (shift_byte_mod (s.cbByte (bp.toNat + 1)) 8 (by omega)) hc
    rw [← h.1, BitVec.add_assoc, this]; rfl

/-! ### Refill and renormalization -/

theorem State.refill_of_counter (s : State) (c bp : Word) (h : counter c ≠ 0) : s.refill c bp = some (c, bp) :=
  if_neg fun e => h (by rw [← counter_eq, e]; rfl)

theorem State.refill_of_spent (s : State) (c bp : Word) (h : counter c = 0) : s.refill c bp = s.byteIn (c - 0x100#32) bp :=
  if_pos (BitVec.eq_of_toNat_eq (by rw [counter_eq, h]; rfl))

/-- The refill moves the pointer by at most one byte. -/
theorem State.refill_bp (s : State) (c bp c' bp' : Word) (h : s.refill c bp = some (c', bp')) :
    bp.toNat ≤ bp'.toNat ∧ bp'.toNat ≤ bp.toNat + 1 := by
  by_cases hc : counter c = 0
  · rw [s.refill_of_spent c bp hc] at h
    rcases (s.byteIn_bp _ _ _ _ h).2 with ⟨-, rfl, -⟩ | ⟨-, h⟩ <;> omega
  · rw [s.refill_of_counter c bp hc] at h
    simp only [Option.some.injEq, Prod.mk.injEq] at h
    rw [← h.2]; omega

theorem State.refill_isSome (s : State) (c bp : Word) (h : bp.toNat + 1 < s.cfg.cbmemSize.toNat) :
    (s.refill c bp).isSome = true := by
  by_cases hc : counter c = 0
  · rw [s.refill_of_spent c bp hc, Option.isSome_iff_ne_none]
    exact mt (s.byteIn_eq_none_iff _ _).1 (by omega)
  · rw [s.refill_of_counter c bp hc]; rfl

/-- What `Renormd()` does to the interval: it is doubled at least once, until bit 15 is set or `k` doublings are made. -/
theorem State.renormd_a (s : State) (k : Nat) (r r' : MqRegs) (h : s.renormd (k + 1) r = some r') :
    ∃ j, j ≤ k ∧ r'.a = r.a <<< (j + 1) ∧ (∀ i < j, (r.a <<< (i + 1)).getLsbD 15 = false) ∧
      (r'.a.getLsbD 15 = true ∨ j = k) := by
  induction k generalizing r with
  | zero =>
    simp only [State.renormd] at h
    cases hr : s.refill r.c r.bp with
    | none => simp [hr] at h
    | some p =>
      refine ⟨0, Nat.le_refl _, ?_, by simp, .inr rfl⟩
      simp only [hr] at h
      split at h <;> exact (Option.some.inj h) ▸ rfl
  | succ k ih =>
    rw [State.renormd] at h
    cases hr : s.refill r.c r.bp with
    | none => simp [hr] at h
    | some p =>
      simp only [hr] at h
      split at h
      · next hb => exact ⟨0, by omega, (Option.some.inj h) ▸ rfl, by simp, .inl ((Option.some.inj h) ▸ hb)⟩
      · next hb =>
        obtain ⟨j, hj, ha, hi, he⟩ := ih _ h
        refine ⟨j + 1, by omega, ?_, fun i hij => ?_, ?_⟩
        · rw [ha]
          show r.a <<< 1 <<< (j + 1) = _
          rw [← BitVec.shiftLeft_add, Nat.add_comm 1]
        · cases i with
          | zero => simpa using hb
          | succ i =>
            have := hi i (by omega)
            rwa [← BitVec.shiftLeft_add, Nat.add_comm 1] at this
        · rcases he with he | he
          · exact .inl he
          · exact .inr (by omega)

theorem shift_fifteen (a : Half) (h : 1 ≤ a.toNat) :
    ∃ j, j < 16 ∧ (a <<< j).getLsbD 15 = true := by
  refine ⟨15 - Nat.log2 a.toNat, by omega, ?_⟩
  have hlt := a.isLt
  have hl : Nat.log2 a.toNat < 16 := by
    rw [Nat.log2_lt (by omega)]; exact hlt
  rw [BitVec.getLsbD_shiftLeft]
  simp only [show decide (15 < 16) = true from rfl, Bool.true_and,
    show 15 - (15 - Nat.log2 a.toNat) = Nat.log2 a.toNat by omega]
  rw [Bool.and_eq_true]
  refine ⟨by simp, ?_⟩
  exact Nat.testBit_log2 (by omega)

/-- From a nonzero interval below 0x8000, fifteen doublings always reach bit 15 (41_mq_decoder.md R102): the interval left
is at least 0x8000. -/
theorem State.renormd_normalized (s : State) (r r' : MqRegs) (h : s.renormd 15 r = some r') (h1 : 1 ≤ r.a.toNat)
    (h2 : r.a.toNat ≤ 0x7FFF) : 0x8000 ≤ r'.a.toNat := by
  have key : r'.a.getLsbD 15 = true := by
    obtain ⟨j, hj, ha, hi, he⟩ := s.renormd_a 14 r r' h
    rcases he with he | rfl
    · exact he
    · obtain ⟨i, hi16, hbit⟩ := shift_fifteen r.a h1
      rcases Nat.lt_trichotomy i 15 with hlt | rfl | hgt
      · cases i with
        | zero =>
          exfalso
          rw [BitVec.shiftLeft_zero] at hbit
          have : (2 : Nat) ^ 15 ≤ r.a.toNat := Nat.ge_two_pow_of_testBit hbit
          omega
        | succ i => rw [hi i (by omega)] at hbit; cases hbit
      · rw [ha]; exact hbit
      · omega
  exact Nat.ge_two_pow_of_testBit key

/-! ### How far one command reads -/

/-- Byte input into a spent counter, where the current byte is no 0xFF: one counter bit, at place 0. -/
theorem State.byteIn_counter_of_ne (s : State) (c bp c' bp' : Word) (h : s.byteIn (c - 0x100#32) bp = some (c', bp'))
    (hc : counter c = 0) (hb : s.cbByte bp.toNat ≠ 0xFF) : counter c' = 1 := by
  rcases s.byteIn_counter _ _ _ _ h hc with h | h
  · exact h
  · exact absurd h.2.1 hb

theorem counter_shift_pow (c : Word) (i : Nat) (hc : counter c = 2 ^ i) (hi : i ≤ 7) :
    counter (c <<< 1) = if i = 7 then 0 else 2 ^ (i + 1) := by
  rw [counter_shift, hc]
  interval_cases i <;> rfl

/-- `Renormd()` made of a first doubling and the rest. -/
theorem State.renormd_succ (s : State) (k : Nat) (r : MqRegs) (c bp : Word) (h : s.refill r.c r.bp = some (c, bp)) :
    s.renormd (k + 1) r =
      if (r.a <<< 1).getLsbD 15 then some ⟨r.a <<< 1, c <<< 1, bp⟩ else s.renormd k ⟨r.a <<< 1, c <<< 1, bp⟩ := by
  simp only [State.renormd, h]

/-- What `Renormd()` is wanted to do: it completes, and moves the pointer by at most `n`. -/
def State.RenormdWithin (s : State) (k : Nat) (r : MqRegs) (n : Nat) : Prop :=
  ∃ r', s.renormd k r = some r' ∧ r.bp.toNat ≤ r'.bp.toNat ∧ r'.bp.toNat ≤ r.bp.toNat + n

theorem State.renormdWithin_step (s : State) (k : Nat) (r : MqRegs) (c bp : Word) (m n : Nat)
    (h : s.refill r.c r.bp = some (c, bp)) (h1 : r.bp.toNat ≤ bp.toNat) (h2 : bp.toNat + m ≤ r.bp.toNat + n)
    (hr : s.RenormdWithin k ⟨r.a <<< 1, c <<< 1, bp⟩ m) : s.RenormdWithin (k + 1) r n := by
  rw [State.RenormdWithin, s.renormd_succ k r c bp h]
  split
  · exact ⟨_, rfl, h1, by show bp.toNat ≤ _; omega⟩
  · obtain ⟨r', hr', hl, hu⟩ := hr
    simp only at hl hu
    exact ⟨r', hr', by omega, by omega⟩

/-- No byte is read while the counter lasts. -/
theorem State.renormdWithin_zero (s : State) (k i : Nat) (r : MqRegs) (hc : counter r.c = 2 ^ i) (hk : i + k ≤ 8) :
    s.RenormdWithin k r 0 := by
  induction k generalizing r i with
  | zero => exact ⟨r, rfl, Nat.le_refl _, Nat.le_refl _⟩
  | succ k ih =>
    refine s.renormdWithin_step k r r.c r.bp 0 0
      (s.refill_of_counter r.c r.bp (by rw [hc]; exact (Nat.two_pow_pos i).ne')) (Nat.le_refl _) (Nat.le_refl _) ?_
    by_cases h7 : i = 7
    · obtain rfl : k = 0 := by omega
      exact ⟨_, rfl, Nat.le_refl _, Nat.le_refl _⟩
    · refine ih (i + 1) _ ?_ (by omega)
      rw [counter_shift_pow r.c i hc (by omega), if_neg h7]

/-- One byte at most: the counter is spent once. -/
theorem State.renormdWithin_one (s : State) (k i : Nat) (r : MqRegs) (hb : r.bp.toNat + 1 < s.cfg.cbmemSize.toNat)
    (hc : (counter r.c = 2 ^ i ∧ i ≤ 7) ∨ (counter r.c = 0 ∧ i = 8))
    (hk : i + k ≤ 15 ∨ (i + k ≤ 16 ∧ s.cbByte r.bp.toNat ≠ 0xFF)) : s.RenormdWithin k r 1 := by
  induction k generalizing r i with
  | zero => exact ⟨r, rfl, Nat.le_refl _, by omega⟩
  | succ k ih =>
    rcases hc with ⟨hc, hi⟩ | ⟨hc, rfl⟩
    · refine s.renormdWithin_step k r r.c r.bp 1 1
        (s.refill_of_counter r.c r.bp (by rw [hc]; exact (Nat.two_pow_pos i).ne')) (Nat.le_refl _) (Nat.le_refl _) ?_
      refine ih (i + 1) _ hb ?_ (hk.imp (fun h => by omega) fun h => ⟨by omega, h.2⟩)
      rw [counter_shift_pow r.c i hc hi]
      by_cases h7 : i = 7
      · exact .inr ⟨if_pos h7, by omega⟩
      · exact .inl ⟨if_neg h7, by omega⟩
    · obtain ⟨⟨c', bp'⟩, h⟩ := Option.isSome_iff_exists.1 (s.refill_isSome r.c r.bp hb)
      have hm := s.refill_bp _ _ _ _ h
      rw [s.refill_of_spent _ _ hc] at h
      refine s.renormdWithin_step k r c' bp' 0 1 (by rw [s.refill_of_spent _ _ hc]; exact h) hm.1 (by omega) ?_
      rcases hk with hk | ⟨hk, hne⟩
      · rcases s.byteIn_counter _ _ _ _ h hc with h1 | ⟨h2, -⟩
        · exact s.renormdWithin_zero k 1 _ (counter_shift_pow c' 0 h1 (by omega)) (by omega)
        · exact s.renormdWithin_zero k 2 _ (counter_shift_pow c' 1 h2 (by omega)) (by omega)
      · exact s.renormdWithin_zero k 1 _ (counter_shift_pow c' 0 (s.byteIn_counter_of_ne _ _ _ _ h hc hne) (by omega))
          (by omega)

/-- Fifteen doublings read at most two bytes more (41_mq_decoder.md R114), and complete where both lie in CBMEM. -/
theorem State.renormdWithin_two (s : State) (k : Nat) (r : MqRegs) (hb : r.bp.toNat + 2 < s.cfg.cbmemSize.toNat)
    (hk : k ≤ 15) : s.RenormdWithin k r 2 := by
  induction k generalizing r with
  | zero => exact ⟨r, rfl, Nat.le_refl _, by omega⟩
  | succ k ih =>
    by_cases hc : counter r.c = 0
    · obtain ⟨⟨c', bp'⟩, h⟩ := Option.isSome_iff_exists.1 (s.refill_isSome r.c r.bp (by omega))
      have hm := s.refill_bp _ _ _ _ h
      rw [s.refill_of_spent _ _ hc] at h
      refine s.renormdWithin_step k r c' bp' 1 2 (by rw [s.refill_of_spent _ _ hc]; exact h) hm.1 (by omega) ?_
      have hb' : bp'.toNat + 1 < s.cfg.cbmemSize.toNat := by omega
      rcases s.byteIn_counter _ _ _ _ h hc with h1 | ⟨h2, -, -, hne⟩
      · exact s.renormdWithin_one k 1 _ hb' (.inl ⟨counter_shift_pow c' 0 h1 (by omega), by omega⟩) (.inl (by omega))
      · exact s.renormdWithin_one k 2 _ hb' (.inl ⟨counter_shift_pow c' 1 h2 (by omega), by omega⟩)
          (.inr ⟨by omega, hne⟩)
    · exact s.renormdWithin_step k r r.c r.bp 2 2 (s.refill_of_counter r.c r.bp hc) (Nat.le_refl _) (Nat.le_refl _)
        (ih _ hb (by omega))

/-! ### Terminated segments -/

/-- On a terminated segment byte input completes, and the pointer does not pass the terminator's first byte. -/
theorem State.byteIn_of_terminated (s : State) (first stop : Nat) (ht : s.Terminated first stop) (c bp : Word)
    (hb : bp.toNat ≤ stop) :
    ∃ c' bp', s.byteIn c bp = some (c', bp') ∧ bp.toNat ≤ bp'.toNat ∧ bp'.toNat ≤ stop := by
  obtain ⟨-, hsize, h0, h1⟩ := ht
  cases h : s.byteIn c bp with
  | none => exact absurd ((s.byteIn_eq_none_iff c bp).1 h) (by omega)
  | some p =>
    refine ⟨p.1, p.2, rfl, ?_⟩
    rcases s.byteIn_bp c bp p.1 p.2 h with ⟨-, ⟨-, hp, -⟩ | ⟨hm, hp⟩⟩
    · rw [hp]; exact ⟨Nat.le_refl _, hb⟩
    · refine ⟨by omega, ?_⟩
      rcases Nat.lt_or_eq_of_le hb with hlt | rfl
      · omega
      · exact absurd ⟨h0, by rw [h1]; decide⟩ hm

theorem State.refill_of_terminated (s : State) (first stop : Nat) (ht : s.Terminated first stop) (c bp : Word)
    (hb : bp.toNat ≤ stop) :
    ∃ c' bp', s.refill c bp = some (c', bp') ∧ bp.toNat ≤ bp'.toNat ∧ bp'.toNat ≤ stop := by
  by_cases hc : counter c = 0
  · rw [s.refill_of_spent c bp hc]; exact s.byteIn_of_terminated first stop ht _ bp hb
  · exact ⟨c, bp, s.refill_of_counter c bp hc, Nat.le_refl _, hb⟩

theorem State.renormd_of_terminated (s : State) (first stop : Nat) (ht : s.Terminated first stop) (k : Nat) (r : MqRegs)
    (hb : r.bp.toNat ≤ stop) :
    ∃ r', s.renormd k r = some r' ∧ r.bp.toNat ≤ r'.bp.toNat ∧ r'.bp.toNat ≤ stop := by
  induction k generalizing r with
  | zero => exact ⟨r, rfl, Nat.le_refl _, hb⟩
  | succ k ih =>
    obtain ⟨c, bp, h, hl, hu⟩ := s.refill_of_terminated first stop ht r.c r.bp hb
    rw [s.renormd_succ k r c bp h]
    split
    · exact ⟨_, rfl, hl, hu⟩
    · obtain ⟨r', hr, hl', hu'⟩ := ih ⟨r.a <<< 1, c <<< 1, bp⟩ hu
      exact ⟨r', hr, Nat.le_trans hl hl', hu'⟩

/-! ### What the procedures depend on -/

theorem State.refill_congr (s t : State) (c bp : Word) (hc : t.cfg = s.cfg)
    (h0 : t.cbByte bp.toNat = s.cbByte bp.toNat) (h1 : t.cbByte (bp.toNat + 1) = s.cbByte (bp.toNat + 1)) :
    t.refill c bp = s.refill c bp := by
  unfold State.refill
  rw [s.byteIn_congr t _ bp hc h0 h1]

/-- `Renormd()` on a terminated segment depends on the bytes of the segment and its terminator alone. -/
theorem State.renormd_congr (s t : State) (first stop : Nat) (ht : s.Terminated first stop) (hc : t.cfg = s.cfg)
    (hm : ∀ a, first ≤ a → a ≤ stop + 1 → t.cbByte a = s.cbByte a) (k : Nat) (r : MqRegs)
    (hl : first ≤ r.bp.toNat) (hb : r.bp.toNat ≤ stop) : t.renormd k r = s.renormd k r := by
  induction k generalizing r with
  | zero => rfl
  | succ k ih =>
    obtain ⟨c, bp, h, hl', hu⟩ := s.refill_of_terminated first stop ht r.c r.bp hb
    have h' : t.refill r.c r.bp = some (c, bp) := by
      rw [s.refill_congr t r.c r.bp hc (hm _ hl (by omega)) (hm _ (by omega) (by omega)), h]
    rw [s.renormd_succ k r c bp h, t.renormd_succ k r c bp h', ih _ (Nat.le_trans hl hl') hu]

/-! ### Renormalization as a number of doublings -/

theorem sub_shift_byte (c k : Word) (b : Byte) (j : Nat) (hj : j = 8 ∨ j = 9) (d : Int)
    (hd : (k.toNat : Int) - b.toNat * 2 ^ j = d) : c + k - (b.setWidth 32 <<< j) = c + BitVec.ofInt 32 d := by
  have hb := b.isLt
  have hs : (b.setWidth 32 <<< j : Word).toNat = b.toNat * 2 ^ j := by
    rw [BitVec.toNat_shiftLeft, Nat.shiftLeft_eq, BitVec.toNat_setWidth]
    rcases hj with rfl | rfl <;> omega
  have hd' : (k.toNat : Int) - (b.setWidth 32 <<< j : Word).toNat = d := by rw [hs]; push_cast; exact hd
  have : BitVec.ofInt 32 d = k - (b.setWidth 32 <<< j) := by
    apply BitVec.eq_of_toInt_eq
    rw [BitVec.toInt_ofInt, BitVec.toInt_sub, ← hd', BitVec.toInt_eq_toNat_bmod, BitVec.toInt_eq_toNat_bmod]
    simp
  rw [this]
  exact add_sub_assoc c k _

/-- `ByteIn()` leaves exactly what `ByteInput` says. -/
theorem State.byteIn_eq_some_iff (s : State) (c bp c' bp' : Word) :
    s.byteIn c bp = some (c', bp') ↔ bp.toNat + 1 < s.cfg.cbmemSize.toNat ∧ s.ByteInput c bp c' bp' := by
  by_cases hb : bp.toNat + 1 < s.cfg.cbmemSize.toNat
  swap
  · rw [(s.byteIn_eq_none_iff c bp).2 (by omega)]
    exact iff_of_false (by simp) fun h => hb h.1
  have hp : ∀ x : Word, x.toNat = bp.toNat + 1 ↔ bp + 1 = x := fun x => by
    rw [← word_toNat_succ hb]; exact ⟨fun h => (BitVec.eq_of_toNat_eq h).symm, fun h => by rw [h]⟩
  rw [s.byteIn_of_lt c bp hb]
  simp only [hb, true_and, State.ByteInput, hp, show ∀ x : Byte, 0x8F < x ↔ 0x8F < x.toNat from fun _ => Iff.rfl]
  by_cases hff : s.cbByte bp.toNat = 0xFF
  · by_cases hm : 0x8F < (s.cbByte (bp.toNat + 1)).toNat
    · simp only [hff, hm, and_self, if_true, Option.some.injEq, Prod.mk.injEq]
      exact ⟨fun ⟨h, h'⟩ => ⟨h.symm, h'.symm⟩, fun ⟨h, h'⟩ => ⟨h.symm, h'.symm⟩⟩
    · have e := sub_shift_byte c (0x0002#32 + 0xFE00#32) (s.cbByte (bp.toNat + 1)) 9 (.inr rfl)
        (2 + 512 * (127 - ((s.cbByte (bp.toNat + 1)).toNat : Int)))
        (by rw [show (0x0002#32 + 0xFE00#32 : Word).toNat = 0xFE02 from rfl]; push_cast; ring)
      rw [← add_assoc] at e
      simp only [hff, hm, and_false, if_true, if_false, Option.some.injEq, Prod.mk.injEq, e]
      exact ⟨fun ⟨h, h'⟩ => ⟨h', h.symm⟩, fun ⟨h, h'⟩ => ⟨h'.symm, h⟩⟩
  · have hx := (s.cbByte (bp.toNat + 1)).isLt
    have e := sub_shift_byte c (0x0001#32 + 0xFF00#32) (s.cbByte (bp.toNat + 1)) 8 (.inl rfl)
      ((1 + 256 * (255 - (s.cbByte (bp.toNat + 1)).toNat) : Nat) : Int)
      (by rw [show (0x0001#32 + 0xFF00#32 : Word).toNat = 0xFF01 from rfl]; omega)
    rw [← add_assoc, BitVec.ofInt_natCast] at e
    simp only [hff, false_and, if_false, Option.some.injEq, Prod.mk.injEq, e]
    exact ⟨fun ⟨h, h'⟩ => ⟨h', h.symm⟩, fun ⟨h, h'⟩ => ⟨h'.symm, h⟩⟩

/-- A round of `Renormd()`: the refill, then the doubling. -/
theorem State.doubled_iff (s : State) (c bp c' bp' : Word) :
    s.Doubled c bp c' bp' ↔ ∃ f, s.refill c bp = some (f, bp') ∧ c' = f <<< 1 := by
  unfold State.Doubled
  by_cases hc : counter c = 0
  · simp only [show c.toNat % 256 = 0 from hc, if_true, s.refill_of_spent c bp hc, s.byteIn_eq_some_iff]
    exact ⟨fun ⟨f, e, h⟩ => ⟨f, h, e⟩, fun ⟨f, h, e⟩ => ⟨f, e, h⟩⟩
  · simp only [show ¬ c.toNat % 256 = 0 from hc, if_false, s.refill_of_counter c bp hc, Option.some.injEq, Prod.mk.injEq]
    exact ⟨fun ⟨f, e, h1, h2⟩ => ⟨f, ⟨h1.symm, h2.symm⟩, e⟩, fun ⟨f, ⟨h1, h2⟩, e⟩ => ⟨f, e, h1.symm, h2.symm⟩⟩

theorem State.refill_eq_none_iff (s : State) (c bp : Word) : s.refill c bp = none ↔ s.InputMissing c bp := by
  unfold State.InputMissing
  by_cases hc : counter c = 0
  · rw [s.refill_of_spent c bp hc, s.byteIn_eq_none_iff]
    exact ⟨fun h => ⟨hc, h⟩, fun h => h.2⟩
  · rw [s.refill_of_counter c bp hc]
    exact iff_of_false (by simp) fun h => hc h.1

theorem half_bit (a : Half) (h : a.toNat < 2 ^ 15) : (a <<< 1).toNat = 2 * a.toNat ∧
    (a <<< 1).getLsbD 15 = decide (0x8000 ≤ 2 * a.toNat) := by
  have h1 : (a <<< 1).toNat = 2 * a.toNat := by
    rw [BitVec.toNat_shiftLeft, Nat.shiftLeft_eq, Nat.mod_eq_of_lt (by omega)]; omega
  refine ⟨h1, ?_⟩
  rw [BitVec.getLsbD, h1, Nat.testBit_eq_decide_div_mod_eq]
  congr 1
  exact propext ⟨fun _ => by omega, fun _ => by omega⟩

/-- All that `Renormd()` can do where `n` doublings bring the interval to 0x8000: the `n` rounds of 41_mq_decoder.md R102, or
MQ_RANGE where one of them needs a byte outside CBMEM. -/
theorem State.renormd_cases (s : State) (k n : Nat) (a : Half) (c bp : Word) (h1 : 1 ≤ n) (hn : n ≤ k)
    (hl : 0x8000 ≤ a.toNat * 2 ^ n) (hu : a.toNat * 2 ^ n < 0x10000) :
    (s.RunsOut n c bp ∧ s.renormd k ⟨a, c, bp⟩ = none) ∨
      (¬ s.RunsOut n c bp ∧ ∃ c' bp', s.DoubledTimes n c bp c' bp' ∧
        s.renormd k ⟨a, c, bp⟩ = some ⟨BitVec.ofNat 16 (a.toNat * 2 ^ n), c', bp'⟩) := by
  induction k generalizing n a c bp with
  | zero => omega
  | succ k ih =>
    obtain ⟨n, rfl⟩ : ∃ m, n = m + 1 := ⟨n - 1, by omega⟩
    cases hr : s.refill c bp with
    | none =>
      exact .inl ⟨.inl ((s.refill_eq_none_iff c bp).1 hr), by simp only [State.renormd, hr]⟩
    | some p =>
      obtain ⟨f, bp₁⟩ := p
      have hm : ¬ s.InputMissing c bp := mt (s.refill_eq_none_iff c bp).2 (by simp [hr])
      have hd : ∀ c₂ bp₂, s.Doubled c bp c₂ bp₂ ↔ c₂ = f <<< 1 ∧ bp₂ = bp₁ := fun c₂ bp₂ => by
        rw [s.doubled_iff, hr]
        exact ⟨fun ⟨_, h, e⟩ => by cases h; exact ⟨e, rfl⟩, fun ⟨e, h⟩ => ⟨f, by rw [h], e⟩⟩
      have hruns : s.RunsOut (n + 1) c bp ↔ s.RunsOut n (f <<< 1) bp₁ := by
        simp only [State.RunsOut, hm, false_or, hd]
        exact ⟨fun ⟨_, _, ⟨h, h'⟩, hr⟩ => h ▸ h' ▸ hr, fun h => ⟨_, _, ⟨rfl, rfl⟩, h⟩⟩
      have htimes : ∀ c' bp', s.DoubledTimes n (f <<< 1) bp₁ c' bp' → s.DoubledTimes (n + 1) c bp c' bp' :=
        fun c' bp' h => ⟨_, _, (hd _ _).2 ⟨rfl, rfl⟩, h⟩
      have ha : a.toNat < 2 ^ 15 := by
        have := Nat.one_le_two_pow (n := n)
        rw [Nat.pow_succ] at hu
        nlinarith
      obtain ⟨hv, hb⟩ := half_bit a ha
      have hp : (a <<< 1).toNat * 2 ^ n = a.toNat * 2 ^ (n + 1) := by rw [hv, Nat.pow_succ]; ring
      rw [s.renormd_succ k _ f bp₁ hr, hruns]
      simp only [hb]
      cases n with
      | zero =>
        rw [Nat.zero_add, Nat.pow_one] at hl
        refine .inr ⟨id, f <<< 1, bp₁, htimes _ _ ⟨rfl, rfl⟩, ?_⟩
        rw [if_pos (by simpa using by omega)]
        congr 2
        exact BitVec.eq_of_toNat_eq (by rw [hv, BitVec.toNat_ofNat]; omega)
      | succ n =>
        have hlow : 2 * a.toNat < 0x8000 := by
          have := Nat.one_le_two_pow (n := n)
          rw [Nat.pow_succ, Nat.pow_succ] at hu
          nlinarith
        rw [if_neg (by simpa using hlow), ← hp]
        rcases ih (n + 1) (a <<< 1) (f <<< 1) bp₁ (by omega) (by omega) (by rw [hp]; exact hl) (by rw [hp]; exact hu) with
          ⟨h, e⟩ | ⟨h, c', bp', ht, e⟩
        · exact .inl ⟨h, e⟩
        · exact .inr ⟨h, c', bp', htimes _ _ ht, e⟩

/-- A number of doublings that brings an interval from 1 to 0x7FFF to 0x8000 (41_mq_decoder.md R102: at most 15). -/
theorem exists_doublings (a : Nat) (h1 : 1 ≤ a) (h2 : a ≤ 0x7FFF) :
    ∃ n, 1 ≤ n ∧ n ≤ 15 ∧ 0x8000 ≤ a * 2 ^ n ∧ a * 2 ^ n < 0x10000 := by
  have hl : Nat.log2 a < 15 := (Nat.log2_lt (by omega)).2 (by omega)
  have hlo : 2 ^ Nat.log2 a ≤ a := Nat.log2_self_le (by omega)
  have hhi : a < 2 ^ (Nat.log2 a + 1) := Nat.lt_log2_self
  have e : 2 ^ Nat.log2 a * 2 ^ (15 - Nat.log2 a) = 2 ^ 15 := by rw [← Nat.pow_add]; congr 1; omega
  have e' : 2 ^ (Nat.log2 a + 1) * 2 ^ (15 - Nat.log2 a) = 2 ^ 16 := by rw [← Nat.pow_add]; congr 1; omega
  have hp : 0 < 2 ^ (15 - Nat.log2 a) := Nat.two_pow_pos _
  refine ⟨15 - Nat.log2 a, by omega, by omega, ?_, ?_⟩
  · calc 0x8000 = 2 ^ Nat.log2 a * 2 ^ (15 - Nat.log2 a) := e.symm
      _ ≤ _ := Nat.mul_le_mul_right _ hlo
  · calc a * 2 ^ (15 - Nat.log2 a) < 2 ^ (Nat.log2 a + 1) * 2 ^ (15 - Nat.log2 a) := Nat.mul_lt_mul_of_pos_right hhi hp
      _ = _ := e'

/-- Two bytes after the pointer are enough for `Renormd()` (41_mq_decoder.md R114). -/
theorem State.not_runsOut (s : State) (n : Nat) (a : Half) (c bp : Word) (h1 : 1 ≤ n) (hn : n ≤ 15)
    (hl : 0x8000 ≤ a.toNat * 2 ^ n) (hu : a.toNat * 2 ^ n < 0x10000) (hb : bp.toNat + 2 < s.cfg.cbmemSize.toNat) :
    ¬ s.RunsOut n c bp := by
  rcases s.renormd_cases 15 n a c bp h1 hn hl hu with ⟨-, e⟩ | ⟨h, -⟩
  · obtain ⟨r', h, -⟩ := s.renormdWithin_two 15 ⟨a, c, bp⟩ hb (by omega)
    rw [e] at h; cases h
  · exact h

end Sys2Proof.Machine
end

