-- ==== Sys2Proof/Laws/PerInstr.lean ====
section
/-! SUPPORT. A statement of every command, as syntax, made per constructor: its word fits its row of
spec/opcode_table.json (30_encoding.md R74). -/

namespace Sys2Proof.Laws

/-- A mask that keeps all of `OPC` acts on the two operand fields separately (30_encoding.md R70). -/
theorem and_commandWord (opc : BitVec 8) (a ma : BitVec 24) (b mb : Word) :
    commandWord opc a b &&& commandWord 0xFF ma mb = commandWord opc (a &&& ma) (b &&& mb) := by
  unfold commandWord
  rw [BitVec.and_append, BitVec.and_append, show opc &&& 0xFF = opc from BitVec.and_allOnes]

/-- A command's word fits its row where the operand fields fit their parts of the mask. -/
theorem matchesRow_of_fields (i : Instr) (ma : BitVec 24) (mb : Word) (hm : rowMask i = commandWord 0xFF ma mb)
    (ha : operandA i &&& ma = 0) (hb : operandB i &&& mb = 0) : encode i &&& rowMask i = rowMatch i := by
  rw [hm, encode, and_commandWord, ha, hb]; rfl

/-- A sub-field at the low end of `A` leaves every bit above it 0. -/
theorem and_subfield {m n : Nat} (x : BitVec n) : (0#m ++ x) &&& (BitVec.allOnes m ++ 0#n) = 0#m ++ 0#n := by
  rw [BitVec.and_append, BitVec.and_zero, BitVec.zero_and]

namespace MatchesRow

/-- "A word matches an opcode's row when `(word & mask) == match`" (30_encoding.md R74). -/
def Statement (i : Instr) : Prop := encode i &&& rowMask i = rowMatch i

theorem nop : Statement .nop := by unfold Statement; decide
theorem reset : Statement .reset := by unfold Statement; decide
theorem regread (reg : BitVec 8) : Statement (.regread reg) :=
  matchesRow_of_fields _ 0xFFFF00 0xFFFFFFFF (by simp only [rowMask]; decide) (and_subfield (m := 16) reg)
    (by simp only [operandB]; decide)
theorem clrwarn : Statement .clrwarn := by unfold Statement; decide
theorem mqInitctx : Statement .mqInitctx := by unfold Statement; decide
theorem mqInitdec (raw rst : Bool) (addr : Word) : Statement (.mqInitdec raw rst addr) :=
  matchesRow_of_fields _ 0xFFFFFC 0 (by simp only [rowMask]; decide)
    (by simp only [operandA]; revert raw rst; decide) BitVec.and_zero
theorem mqDecode (cxi : BitVec 5) : Statement (.mqDecode cxi) :=
  matchesRow_of_fields _ 0xFFFFE0 0xFFFFFFFF (by simp only [rowMask]; decide) (and_subfield (m := 19) cxi)
    (by simp only [operandB]; decide)
theorem mqCheckbp (expected : Word) : Statement (.mqCheckbp expected) :=
  matchesRow_of_fields _ 0xFFFFFF 0 (by simp only [rowMask]; decide) BitVec.zero_and BitVec.and_zero
theorem ttInit (base : BitVec 24) (w h : Half) : Statement (.ttInit base w h) :=
  matchesRow_of_fields _ 0 0 (by simp only [rowMask]; decide) BitVec.and_zero BitVec.and_zero
theorem ttDecode (node : BitVec 24) (thr : Word) : Statement (.ttDecode node thr) :=
  matchesRow_of_fields _ 0 0 (by simp only [rowMask]; decide) BitVec.and_zero BitVec.and_zero
theorem brSetend (stop : Word) : Statement (.brSetend stop) :=
  matchesRow_of_fields _ 0xFFFFFF 0 (by simp only [rowMask]; decide) BitVec.zero_and BitVec.and_zero
theorem brStart (pos : Word) : Statement (.brStart pos) :=
  matchesRow_of_fields _ 0xFFFFFF 0 (by simp only [rowMask]; decide) BitVec.zero_and BitVec.and_zero
theorem brGetbits (n : BitVec 6) : Statement (.brGetbits n) :=
  matchesRow_of_fields _ 0xFFFFC0 0xFFFFFFFF (by simp only [rowMask]; decide) (and_subfield (m := 18) n)
    (by simp only [operandB]; decide)
theorem brFlush : Statement .brFlush := by unfold Statement; decide
theorem brGetnpasses : Statement .brGetnpasses := by unfold Statement; decide
theorem brGetlblkinc : Statement .brGetlblkinc := by unfold Statement; decide
theorem brEph : Statement .brEph := by unfold Statement; decide
theorem brSegcopy (len : Half) (term : Bool) (dst : Word) : Statement (.brSegcopy len term dst) :=
  matchesRow_of_fields _ 0xFE0000 0 (by simp only [rowMask]; decide) (by
    simp only [operandA, BitVec.append_assoc]
    exact and_subfield (m := 7) (BitVec.ofBool term ++ len)) BitVec.and_zero

end MatchesRow

end Sys2Proof.Laws
end

