-- ==== Sys2Proof/Laws/TagTree.lean ====
section
/-! SUPPORT. What the layout, the walk and the descent of the TT unit can do (42_tag_tree.md R141, R142, R144, R146). -/

namespace Sys2Proof.Machine

/-! ### The walk -/

/-- The walk up answers exactly the walks that fit the stack, root end on top. -/
theorem State.walkUp_of_isWalk (s : State) (room : Nat) (n top : Option Nat) (path stack : List Nat)
    (h : s.IsWalk n path top) :
    s.walkUp room n stack = if path.length ≤ room then some (path.reverse ++ stack, top) else none := by
  induction path generalizing room n stack with
  | nil =>
    obtain ⟨rfl, hv⟩ := h
    cases n with
    | none => cases room <;> rfl
    | some a =>
      have := hv a rfl
      cases room <;> simp [State.walkUp, this]
  | cons m path ih =>
    cases n with
    | none => exact h.elim
    | some n =>
      obtain ⟨rfl, hv, hw⟩ := h
      cases room with
      | zero => simp [State.walkUp, hv]
      | succ room =>
        simp only [State.walkUp, hv, Bool.false_eq_true, if_false, ih room _ _ hw, List.length_cons,
          Nat.add_le_add_iff_right, List.reverse_cons, List.append_assoc, List.singleton_append]

/-- The walk up answers nothing but a walk that fits the stack. -/
theorem State.isWalk_of_walkUp (s : State) (room : Nat) (n top : Option Nat) (stack acc : List Nat)
    (h : s.walkUp room n acc = some (stack, top)) :
    ∃ path, s.IsWalk n path top ∧ stack = path.reverse ++ acc ∧ path.length ≤ room := by
  induction room generalizing n acc with
  | zero =>
    cases n with
    | none =>
      simp only [State.walkUp, Option.some.injEq, Prod.mk.injEq] at h
      obtain ⟨rfl, rfl⟩ := h
      exact ⟨[], ⟨rfl, by simp⟩, rfl, Nat.le_refl _⟩
    | some n =>
      simp only [State.walkUp] at h
      split at h
      · next hv => cases h; exact ⟨[], ⟨rfl, fun a ha => by cases ha; exact hv⟩, rfl, Nat.le_refl _⟩
      · cases h
  | succ room ih =>
    cases n with
    | none =>
      simp only [State.walkUp, Option.some.injEq, Prod.mk.injEq] at h
      obtain ⟨rfl, rfl⟩ := h
      exact ⟨[], ⟨rfl, by simp⟩, rfl, Nat.zero_le _⟩
    | some n =>
      simp only [State.walkUp] at h
      split at h
      · next hv => cases h; exact ⟨[], ⟨rfl, fun a ha => by cases ha; exact hv⟩, rfl, Nat.zero_le _⟩
      · next hv =>
        obtain ⟨path, h1, h2, h3⟩ := ih _ _ h
        exact ⟨n :: path, ⟨rfl, by simpa using hv, h1⟩, by simp [h2], Nat.succ_le_succ h3⟩

/-- A node has one walk. -/
theorem State.isWalk_unique (s : State) (n top top' : Option Nat) (path path' : List Nat) (h : s.IsWalk n path top)
    (h' : s.IsWalk n path' top') : path = path' := by
  induction path generalizing n path' with
  | nil =>
    cases path' with
    | nil => rfl
    | cons m path' =>
      cases n with
      | none => exact h'.elim
      | some n =>
        have hv := h.2 n h.1.symm
        rw [h'.2.1] at hv; cases hv
  | cons m path ih =>
    cases n with
    | none => exact h.elim
    | some n =>
      obtain ⟨rfl, hv, hw⟩ := h
      cases path' with
      | nil =>
        have hv' := h'.2 _ h'.1.symm
        rw [hv] at hv'; cases hv'
      | cons k path' =>
        obtain ⟨rfl, -, hw'⟩ := h'
        rw [ih _ _ hw hw']

/-- Where parent indices rise and stay below a bound, every node has its walk, of nodes that rise from it. -/
theorem State.exists_isWalk (s : State) (hp : s.ParentsOk) (n : Nat) (hv : (s.node n).valid = true)
    (hn : n < s.cfg.ttNodes.toNat) :
    ∃ path top, s.IsWalk (some n) path top ∧ (∀ m ∈ path, (s.node m).valid = true ∧ n ≤ m ∧ m < s.cfg.ttNodes.toNat) := by
  induction hk : s.cfg.ttNodes.toNat - n using Nat.strongRecOn generalizing n with
  | _ k ih =>
    by_cases hvis : (s.node n).vis = true
    · exact ⟨[], some n, ⟨rfl, fun a ha => by cases ha; exact hvis⟩, by simp⟩
    · have hvis' : (s.node n).vis = false := by simpa using hvis
      cases hpar : (s.node n).parent with
      | none =>
        refine ⟨[n], none, ⟨rfl, hvis', ?_⟩, ?_⟩
        · rw [hpar]; exact ⟨rfl, by simp⟩
        · simp [hv, hn]
      | some p =>
        obtain ⟨h1, h2, h3⟩ := hp n p hv hpar
        obtain ⟨path, top, hw, hm⟩ := ih (s.cfg.ttNodes.toNat - p) (by omega) p h2 h3 rfl
        refine ⟨n :: path, top, ⟨rfl, hvis', by rw [hpar]; exact hw⟩, ?_⟩
        intro m hmem
        rcases List.mem_cons.1 hmem with rfl | hmem
        · exact ⟨hv, Nat.le_refl _, hn⟩
        · have := hm m hmem; exact ⟨this.1, by omega, this.2.2⟩

/-! ### The order of reads -/

/-- Reads within bounds are in order. -/
theorem State.ReadWithin.readOrder {s : State} {bound : Nat → Nat} (h : s.ReadWithin bound) : s.ReadOrder :=
  fun n p hv hp => (h n p hv hp).1

/-- The order of reads within bounds stays as thresholds rise. -/
theorem State.ReadWithin.mono {s : State} {bound bound' : Nat → Nat} (h : s.ReadWithin bound)
    (hle : ∀ n, bound n ≤ bound' n) : s.ReadWithin bound' :=
  fun n p hv hp => ⟨(h n p hv hp).1, fun hn => Nat.lt_of_lt_of_le ((h n p hv hp).2 hn) (hle n)⟩

/-- A file without nodes is in order within any bounds. -/
theorem State.readWithin_of_nil {s : State} (h : s.nodes = []) (bound : Nat → Nat) : s.ReadWithin bound := by
  intro n p hv _
  rw [State.node, h] at hv
  exact (hv rfl).elim

/-! ### The unary code of one node -/

/-- `nodeCode` reads the unary code from the header bits, and moves the cursor past it. -/
theorem State.nodeCode_eq (s : State) (room : Nat) (cur : Word) (c : Cursor) (h : cur.toNat + room < 2 ^ 32) :
    (∀ v seen rest, unaryCode (cur.toNat + room) cur.toNat (s.bitsFrom c) = some (v, seen, rest) →
      ∃ c', s.nodeCode room cur c = some (BitVec.ofNat 32 v, seen, c') ∧ s.bitsFrom c' = rest ∧
        s.cursorAfter ((s.bitsFrom c).length - rest.length) c = some c' ∧ cur.toNat ≤ v ∧ v ≤ cur.toNat + room ∧
        rest.length ≤ (s.bitsFrom c).length) ∧
    (unaryCode (cur.toNat + room) cur.toNat (s.bitsFrom c) = none → s.nodeCode room cur c = none) := by
  induction room generalizing cur c with
  | zero => simp [unaryCode, State.nodeCode, State.cursorAfter]
  | succ room ih =>
    cases hb : s.bitsFrom c with
    | nil => simp [unaryCode, State.nodeCode, (s.bitsFrom_eq_nil_iff c).1 hb]
    | cons b bits =>
      obtain ⟨c1, hg, hr⟩ := s.getBit_of_bitsFrom c b bits hb
      cases b with
      | true =>
        constructor
        · intro v seen rest he
          simp [unaryCode] at he
          obtain ⟨rfl, rfl, rfl⟩ := he
          refine ⟨c1, ?_, hr, ?_, Nat.le_refl _, by omega, by simp⟩
          · simp [State.nodeCode, hg]
          · simp [State.cursorAfter, hg]
        · intro he
          simp [unaryCode] at he
      | false =>
        have hs : (cur + 1).toNat = cur.toNat + 1 := by
          rw [BitVec.toNat_add, show (1 : Word).toNat = 1 from rfl]; omega
        have ih' := ih (cur + 1) c1 (by omega)
        rw [hs, hr] at ih'
        have key : unaryCode (cur.toNat + (room + 1)) cur.toNat (false :: bits) =
            unaryCode (cur.toNat + 1 + room) (cur.toNat + 1) bits := by
          simp only [unaryCode, List.takeWhile_cons, Bool.not_false, if_true, List.length_cons]
          rw [show cur.toNat + (room + 1) - cur.toNat = room + 1 by omega,
            show cur.toNat + 1 + room - (cur.toNat + 1) = room by omega]
          simp only [Nat.add_le_add_iff_right, List.drop_succ_cons, Nat.add_lt_add_iff_right]
          grind
        rw [key]
        constructor
        · intro v seen rest he
          obtain ⟨c', h1, h2, h3, h4, h5, h6⟩ := ih'.1 v seen rest he
          refine ⟨c', by simp only [State.nodeCode, hg]; exact h1, h2, ?_, by omega, by omega, by simp; omega⟩
          rw [show (false :: bits).length - rest.length = bits.length - rest.length + 1 by simp; omega]
          simp only [State.cursorAfter, hg, h3]
        · intro he
          simp only [State.nodeCode, hg]
          exact ih'.2 he

/-! ### The descent -/

/-- `nodesAfter` looks at no node but the one it is asked for. -/
theorem State.nodesAfter_congr (s t : State) (path : List Nat) (news : List (Nat × Bool)) (m : Nat)
    (h : t.node m = s.node m) : t.nodesAfter path news m = s.nodesAfter path news m := by
  induction path generalizing news with
  | nil => simp only [State.nodesAfter, h]
  | cons n path ih =>
    cases news with
    | nil => simp only [State.nodesAfter, h]
    | cons x news =>
      simp only [State.nodesAfter, ih]
      split
      · next e => subst e; rw [h]
      · rfl

theorem State.nodesAfter_of_not_mem (s : State) (path : List Nat) (news : List (Nat × Bool)) (m : Nat) (h : m ∉ path) :
    s.nodesAfter path news m = s.node m := by
  induction path generalizing news with
  | nil => rfl
  | cons n path ih =>
    cases news with
    | nil => rfl
    | cons x news =>
      simp only [List.mem_cons, not_or] at h
      simp only [State.nodesAfter, if_neg h.1, ih _ h.2]

/-- The descent down the stack is the descent on the values of its nodes. -/
theorem State.descend_eq (s : State) (thr : Word) (stack : List Nat) (cur : Word) (f : NodeFile) (c : Cursor)
    (hf : f.Pairwise (fun x y => x.1 < y.1)) (hd : stack.Nodup) (hv : ∀ m ∈ stack, (f.node m).vis = false) :
    (∀ news v rest,
      tagDescent thr.toNat (stack.map fun m => (f.node m).val.toNat) cur.toNat (s.bitsFrom c) = some (news, v, rest) →
      ∃ f' c', s.descend thr stack cur f c = some (BitVec.ofNat 32 v, f', c') ∧ s.bitsFrom c' = rest ∧
        s.cursorAfter ((s.bitsFrom c).length - rest.length) c = some c' ∧ rest.length ≤ (s.bitsFrom c).length ∧
        f'.Pairwise (fun x y => x.1 < y.1) ∧ v < 2 ^ 32 ∧
        ∀ m, f'.node m = ({ s with nodes := f } : State).nodesAfter stack news m) ∧
    (tagDescent thr.toNat (stack.map fun m => (f.node m).val.toNat) cur.toNat (s.bitsFrom c) = none →
      s.descend thr stack cur f c = none) := by
  induction stack generalizing cur f c with
  | nil =>
    refine ⟨fun news v rest h => ?_, fun h => by simp [tagDescent] at h⟩
    simp only [List.map_nil, tagDescent, Option.some.injEq, Prod.mk.injEq] at h
    obtain ⟨rfl, rfl, rfl⟩ := h
    exact ⟨f, c, by simp [State.descend], rfl, by simp [State.cursorAfter], Nat.le_refl _, hf, cur.isLt, fun m => rfl⟩
  | cons t stack ih =>
    by_cases hlt : cur < thr
    · have hlt' : cur.toNat < thr.toNat := hlt
      have hthr := thr.isLt
      have hstart : (if cur < (f.node t).val then (f.node t).val else cur).toNat = max cur.toNat (f.node t).val.toNat := by
        split
        · next h => have : cur.toNat < (f.node t).val.toNat := h; omega
        · next h => have : ¬ cur.toNat < (f.node t).val.toNat := h; omega
      simp only [List.map_cons, tagDescent, if_neg (Nat.not_le.2 hlt'), State.descend, if_pos hlt, hstart]
      generalize (if cur < (f.node t).val then (f.node t).val else cur) = start at hstart ⊢
      rw [← hstart]
      have hvf := (f.node t).val.isLt
      have hroom : (start.toNat + (thr.toNat - start.toNat)) < 2 ^ 32 := by have := start.isLt; omega
      have hcode := s.nodeCode_eq (thr.toNat - start.toNat) start c hroom
      have hun : unaryCode (start.toNat + (thr.toNat - start.toNat)) start.toNat (s.bitsFrom c) =
          unaryCode thr.toNat start.toNat (s.bitsFrom c) := by
        rcases Nat.le_total start.toNat thr.toNat with hle | hle
        · rw [Nat.add_sub_cancel' hle]
        · simp [unaryCode, Nat.sub_eq_zero_of_le hle]
      rw [hun] at hcode
      cases hc : unaryCode thr.toNat start.toNat (s.bitsFrom c) with
      | none => simp [hcode.2 hc]
      | some p =>
        obtain ⟨x, seen, left⟩ := p
        obtain ⟨c1, h1, h2, h3, h4, h5, h6⟩ := hcode.1 x seen left hc
        have hx : (BitVec.ofNat 32 x).toNat = x := by
          rw [BitVec.toNat_ofNat]; exact Nat.mod_eq_of_lt (by omega)
        simp only [List.nodup_cons] at hd
        have hnode : ∀ m ∈ stack, ∀ w, (f.setNode t w).node m = f.node m := by
          intro m hm w
          rw [f.node_setNode hf, if_neg]
          rintro rfl
          exact hd.1 hm
        have hmap : ∀ w, stack.map (fun m => ((f.setNode t w).node m).val.toNat) = stack.map fun m => (f.node m).val.toNat :=
          fun w => List.map_congr_left fun m hm => by rw [hnode m hm]
        simp only [h1]
        have ih' := ih (BitVec.ofNat 32 x)
          (f.setNode t { f.node t with val := BitVec.ofNat 32 x, vis := (f.node t).vis || seen }) c1
          (f.pairwise_setNode hf t _) hd.2
          (fun m hm => by rw [hnode m hm]; exact hv m (List.mem_cons_of_mem _ hm))
        rw [hmap, hx, h2] at ih'
        constructor
        · intro news v rest h
          cases ht : tagDescent thr.toNat (stack.map fun m => (f.node m).val.toNat) x left with
          | none => simp [ht] at h
          | some q =>
            obtain ⟨xs, y, rest'⟩ := q
            simp only [ht, Option.some.injEq, Prod.mk.injEq] at h
            obtain ⟨rfl, rfl, rfl⟩ := h
            obtain ⟨f', c', g1, g2, g3, g4, g5, g6, g7⟩ := ih'.1 xs y rest' ht
            refine ⟨f', c', g1, g2, ?_, by omega, g5, g6, fun m => ?_⟩
            · rw [show (s.bitsFrom c).length - rest'.length =
                ((s.bitsFrom c).length - left.length) + (left.length - rest'.length) by omega,
                s.cursorAfter_add _ _ _ _ h3, g3]
            · rw [g7]
              by_cases hm : m = t
              · subst hm
                rw [State.nodesAfter_of_not_mem _ _ _ _ hd.1]
                simp only [State.nodesAfter, if_true, State.node, f.node_setNode hf, hv m List.mem_cons_self,
                  Bool.false_or]
              · simp only [State.nodesAfter, if_neg hm]
                exact State.nodesAfter_congr _ _ _ _ _ (by
                  simp only [State.node, f.node_setNode hf, if_neg hm])
        · intro h
          cases ht : tagDescent thr.toNat (stack.map fun m => (f.node m).val.toNat) x left with
          | none => exact ih'.2 ht
          | some q => simp [ht] at h
    · have hle : thr.toNat ≤ cur.toNat := Nat.not_lt.1 hlt
      refine ⟨fun news v rest h => ?_, fun h => by simp [tagDescent, hle] at h⟩
      simp only [List.map_cons, tagDescent, if_pos hle, Option.some.injEq, Prod.mk.injEq] at h
      obtain ⟨rfl, rfl, rfl⟩ := h
      exact ⟨f, c, by simp [State.descend, hlt], rfl, by simp [State.cursorAfter], Nat.le_refl _, hf, cur.isLt,
        fun m => rfl⟩

/-- A walk meets no node twice. -/
theorem State.IsWalk.suffix (s : State) (n top : Option Nat) (path : List Nat) (h : s.IsWalk n path top) (k : Nat)
    (hk : k < path.length) : s.IsWalk (some path[k]) (path.drop k) top := by
  induction path generalizing n k with
  | nil => simp at hk
  | cons m path ih =>
    cases n with
    | none => exact h.elim
    | some n =>
      obtain ⟨rfl, hv, hw⟩ := h
      cases k with
      | zero => exact ⟨rfl, hv, hw⟩
      | succ k => simpa using ih _ hw k (by simpa using hk)

theorem State.IsWalk.unique (s : State) (n top top' : Option Nat) (path path' : List Nat) (h : s.IsWalk n path top)
    (h' : s.IsWalk n path' top') : path = path' ∧ top = top' := by
  induction path generalizing n path' with
  | nil =>
    obtain ⟨rfl, hv⟩ := h
    cases path' with
    | nil => exact ⟨rfl, h'.1⟩
    | cons m path' =>
      cases n with
      | none => exact h'.elim
      | some n => have := hv n rfl; simp [h'.2.1] at this
  | cons m path ih =>
    cases n with
    | none => exact h.elim
    | some n =>
      obtain ⟨rfl, hv, hw⟩ := h
      cases path' with
      | nil => have := h'.2 m h'.1.symm; simp [hv] at this
      | cons m' path' =>
        obtain ⟨rfl, -, hw'⟩ := h'
        obtain ⟨rfl, rfl⟩ := ih _ _ hw hw'
        exact ⟨rfl, rfl⟩

theorem State.IsWalk.nodup (s : State) (n top : Option Nat) (path : List Nat) (h : s.IsWalk n path top) : path.Nodup := by
  rw [List.nodup_iff_injective_getElem]
  intro ⟨i, hi⟩ ⟨j, hj⟩ hij
  simp only at hij
  have h1 := State.IsWalk.suffix s n top path h i hi
  have h2 := State.IsWalk.suffix s n top path h j hj
  rw [hij] at h1
  have := congrArg List.length (State.IsWalk.unique s _ _ _ _ _ h1 h2).1
  simp only [List.length_drop] at this
  simp only [Fin.mk.injEq]
  omega

theorem State.IsWalk.vis (s : State) (n top : Option Nat) (path : List Nat) (h : s.IsWalk n path top) :
    ∀ m ∈ path, (s.node m).vis = false := by
  intro m hm
  obtain ⟨k, hk, rfl⟩ := List.getElem_of_mem hm
  have := State.IsWalk.suffix s n top path h k hk
  rw [List.drop_eq_getElem_cons hk] at this
  exact this.2.1

end Sys2Proof.Machine
end

