-- ==== Sys2Proof/Laws/TreeLayout.lean ====
section
/-! SUPPORT. The layout `TT_INIT` builds, level by level (42_tag_tree.md R141, R142), and what it leaves in the node file. -/

namespace Sys2Proof.Machine

/-! ### Levels -/

theorem levelDim_succ (w k : Nat) : levelDim w (k + 1) = levelDim ((w + 1) / 2) k := by
  induction k with
  | zero => rfl
  | succ k ih => rw [levelDim, ih]; rfl

theorem levelDim_pos (w k : Nat) (h : 1 ≤ w) : 1 ≤ levelDim w k := by
  induction k with
  | zero => exact h
  | succ k ih => rw [levelDim]; omega

theorem rootLevel_one : rootLevel 1 1 = 0 := by simp [rootLevel]

theorem rootLevel_succ (w h : Nat) (hw : 1 ≤ w) (hh : 1 ≤ h) (hne : ¬ (w = 1 ∧ h = 1)) :
    rootLevel w h = rootLevel ((w + 1) / 2) ((h + 1) / 2) + 1 := by
  have h2 : 2 ≤ max w h := by omega
  rw [rootLevel, Nat.clog_of_two_le (by omega) h2, rootLevel]
  congr 2
  rcases Nat.le_total w h with h | h
  · rw [max_eq_right h, max_eq_right (by omega)]; omega
  · rw [max_eq_left h, max_eq_left (by omega)]; omega

/-- `treeLevels` lists the grid sizes of levels 0 to `K`. -/
theorem treeLevels_eq (k w h : Nat) (hw : 1 ≤ w) (hh : 1 ≤ h) (hk : rootLevel w h ≤ k) :
    treeLevels k w h = (List.range (rootLevel w h + 1)).map fun j => (levelDim w j, levelDim h j) := by
  induction k generalizing w h with
  | zero =>
    by_cases h1 : w = 1 ∧ h = 1
    · obtain ⟨rfl, rfl⟩ := h1; rw [rootLevel_one]; rfl
    · rw [rootLevel_succ w h hw hh h1] at hk; omega
  | succ k ih =>
    by_cases h1 : w = 1 ∧ h = 1
    · obtain ⟨rfl, rfl⟩ := h1; rw [rootLevel_one]; rfl
    · rw [treeLevels, if_neg h1, ih _ _ (by omega) (by omega) (by rw [rootLevel_succ w h hw hh h1] at hk; omega),
        rootLevel_succ w h hw hh h1, List.range_succ_eq_map (n := rootLevel ((w + 1) / 2) ((h + 1) / 2) + 1)]
      rw [List.map_cons, List.map_map]
      congr 1
      exact List.map_congr_left fun a _ => by simp only [Function.comp, Nat.succ_eq_add_one, levelDim_succ]

/-- Sixteen levels above the leaves are enough for 16-bit sides (42_tag_tree.md R142). -/
theorem rootLevel_le (w h : Nat) (hw : w < 2 ^ 16) (hh : h < 2 ^ 16) : rootLevel w h ≤ 16 :=
  Nat.clog_le_of_le_pow (by omega)

theorem levelDim_rootLevel (w h : Nat) (hw : 1 ≤ w) (hh : 1 ≤ h) :
    levelDim w (rootLevel w h) = 1 ∧ levelDim h (rootLevel w h) = 1 := by
  induction hk : rootLevel w h generalizing w h with
  | zero =>
    by_cases h1 : w = 1 ∧ h = 1
    · exact h1
    · rw [rootLevel_succ w h hw hh h1] at hk; omega
  | succ k ih =>
    by_cases h1 : w = 1 ∧ h = 1
    · obtain ⟨rfl, rfl⟩ := h1; rw [rootLevel_one] at hk; omega
    · rw [rootLevel_succ w h hw hh h1, Nat.add_right_cancel_iff] at hk
      rw [levelDim_succ, levelDim_succ]
      exact ih _ _ (by omega) (by omega) hk

theorem levelOffset_succ (w h k : Nat) :
    levelOffset w h (k + 1) = w * h + levelOffset ((w + 1) / 2) ((h + 1) / 2) k := by
  induction k with
  | zero => simp [levelOffset, levelDim]
  | succ k ih => rw [levelOffset, ih, levelDim_succ, levelDim_succ, levelOffset]; omega

theorem levelOffset_mono (w h j k : Nat) (hjk : j ≤ k) : levelOffset w h j ≤ levelOffset w h k := by
  induction hjk with
  | refl => exact Nat.le_refl _
  | step _ ih => exact Nat.le_trans ih (by rw [levelOffset]; omega)

/-- `N` as the model computes it. -/
theorem treeSize_eq (w h : Nat) (hw : 1 ≤ w) (hh : 1 ≤ h) (hw' : w < 2 ^ 16) (hh' : h < 2 ^ 16) :
    treeSize (treeLevels 16 w h) = treeCount w h := by
  rw [treeLevels_eq 16 w h hw hh (rootLevel_le w h hw' hh'), treeCount]
  generalize rootLevel w h + 1 = k
  induction k with
  | zero => rfl
  | succ k ih =>
    rw [treeSize] at ih ⊢
    simp only [List.range_succ, List.map_append, List.sum_append, ih, levelOffset]
    simp

/-! ### The nodes of a tree -/

theorem length_levelNodes (w h above wAbove : Nat) : (levelNodes w h above wAbove).length = w * h := by
  simp [levelNodes, List.length_flatMap, Nat.mul_comm]

theorem levelNodes_getElem? (w h above wAbove i j : Nat) (hi : i < h) (hj : j < w) :
    (levelNodes w h above wAbove)[i * w + j]? = some ⟨true, 0, false, some (above + i / 2 * wAbove + j / 2)⟩ := by
  unfold levelNodes
  induction h generalizing i with
  | zero => omega
  | succ h ih =>
    rw [List.range_succ, List.flatMap_append]
    have hl : ((List.range h).flatMap fun i =>
        (List.range w).map fun j => (⟨true, 0, false, some (above + i / 2 * wAbove + j / 2)⟩ : TagNode)).length = h * w := by
      simp [List.length_flatMap]
    by_cases hih : i < h
    · rw [List.getElem?_append_left, ih i hih]
      rw [hl]
      calc i * w + j < i * w + w := by omega
        _ = (i + 1) * w := by ring
        _ ≤ h * w := Nat.mul_le_mul_right _ hih
    · obtain rfl : i = h := by omega
      rw [List.getElem?_append_right (by rw [hl]; omega), hl, Nat.add_sub_cancel_left]
      simp [hj]

theorem length_treeNodes (off : Nat) (levels : List (Nat × Nat)) (hne : levels ≠ [])
    (hlast : levels.getLast hne = (1, 1)) : (treeNodes off levels).length = treeSize levels := by
  induction levels generalizing off with
  | nil => exact absurd rfl hne
  | cons l levels ih =>
    cases levels with
    | nil => simp only [List.getLast_singleton] at hlast; subst hlast; rfl
    | cons l' rest =>
      have := ih (off + l.1 * l.2) (by simp) (by simpa using hlast)
      obtain ⟨w, h⟩ := l
      obtain ⟨w', h'⟩ := l'
      simp only [treeNodes, List.length_append, length_levelNodes, this, treeSize, List.map_cons, List.sum_cons]

/-- Every node of the tree over `w` x `h` leaves, by level, row and column, is as 42_tag_tree.md R141 says. -/
theorem treeNodes_getElem? (k w h off : Nat) (hw : 1 ≤ w) (hh : 1 ≤ h) (hk : rootLevel w h ≤ k) (l i j : Nat)
    (hl : l ≤ rootLevel w h) (hi : i < levelDim h l) (hj : j < levelDim w l) :
    (treeNodes off (treeLevels k w h))[levelOffset w h l + i * levelDim w l + j]? =
      some ⟨true, 0, false,
        if l = rootLevel w h then none
        else some (off + levelOffset w h (l + 1) + i / 2 * levelDim w (l + 1) + j / 2)⟩ := by
  induction k generalizing w h off l with
  | zero =>
    by_cases h1 : w = 1 ∧ h = 1
    · obtain ⟨rfl, rfl⟩ := h1
      rw [rootLevel_one] at hl ⊢
      obtain rfl : l = 0 := by omega
      simp only [levelDim] at hi hj
      obtain rfl : i = 0 := by omega
      obtain rfl : j = 0 := by omega
      rfl
    · rw [rootLevel_succ w h hw hh h1] at hk; omega
  | succ k ih =>
    by_cases h1 : w = 1 ∧ h = 1
    · obtain ⟨rfl, rfl⟩ := h1
      rw [rootLevel_one] at hl ⊢
      obtain rfl : l = 0 := by omega
      simp only [levelDim] at hi hj
      obtain rfl : i = 0 := by omega
      obtain rfl : j = 0 := by omega
      rfl
    · have hroot := rootLevel_succ w h hw hh h1
      have hlev : treeLevels (k + 1) w h = (w, h) :: treeLevels k ((w + 1) / 2) ((h + 1) / 2) := by
        rw [treeLevels, if_neg h1]
      obtain ⟨rest, hrest⟩ : ∃ rest, treeLevels k ((w + 1) / 2) ((h + 1) / 2) = ((w + 1) / 2, (h + 1) / 2) :: rest := by
        cases k with
        | zero => exact ⟨[], rfl⟩
        | succ k =>
          rw [treeLevels]
          split
          · next e => rw [e.1, e.2]; exact ⟨[], rfl⟩
          · exact ⟨_, rfl⟩
      have hnodes : treeNodes off (treeLevels (k + 1) w h) =
          levelNodes w h (off + w * h) ((w + 1) / 2) ++
            treeNodes (off + w * h) (treeLevels k ((w + 1) / 2) ((h + 1) / 2)) := by
        rw [hlev, hrest, treeNodes]
      rw [hnodes]
      cases l with
      | zero =>
        simp only [levelDim] at hi hj
        rw [List.getElem?_append_left, show levelOffset w h 0 + i * levelDim w 0 + j = i * w + j by simp [levelOffset, levelDim],
          levelNodes_getElem? w h _ _ i j hi hj, if_neg (by omega)]
        · simp [levelOffset, levelDim]
        · rw [length_levelNodes]
          simp only [levelOffset, levelDim, Nat.zero_add]
          calc i * w + j < (i + 1) * w := by rw [Nat.add_mul]; omega
            _ ≤ h * w := Nat.mul_le_mul_right _ hi
            _ = w * h := Nat.mul_comm _ _
      | succ l =>
        rw [levelDim_succ] at hi hj
        rw [levelOffset_succ, levelDim_succ, List.getElem?_append_right (by rw [length_levelNodes]; omega), length_levelNodes]
        rw [show w * h + levelOffset ((w + 1) / 2) ((h + 1) / 2) l + i * levelDim ((w + 1) / 2) l + j - w * h =
          levelOffset ((w + 1) / 2) ((h + 1) / 2) l + i * levelDim ((w + 1) / 2) l + j by omega]
        rw [ih _ _ (off + w * h) (by omega) (by omega) (by omega) l (by omega) hi hj, hroot]
        simp only [Nat.add_right_cancel_iff, levelOffset_succ w h (l + 1), levelDim_succ w (l + 1), Nat.add_assoc]

/-! ### The node file with a run of nodes -/

theorem sparseRead_append {α : Type} (d : α) (l r : List (Nat × α)) (a : Nat) :
    sparseRead d (l ++ r) a = if ∃ c ∈ l, c.1 = a then sparseRead d l a else sparseRead d r a := by
  induction l with
  | nil => simp
  | cons c l ih =>
    simp only [List.cons_append, sparseRead, ih, List.mem_cons, exists_eq_or_imp]
    by_cases h : a = c.1
    · simp [h]
    · rw [if_neg h, if_neg h]
      exact if_congr ⟨.inr, fun e => e.resolve_left fun e => h e.symm⟩ rfl rfl

theorem sparseRead_filter {α : Type} (d : α) (p : Nat → Bool) (m : List (Nat × α)) (a : Nat) (h : p a = true) :
    sparseRead d (m.filter fun c => p c.1) a = sparseRead d m a := by
  induction m with
  | nil => rfl
  | cons c m ih =>
    by_cases hc : p c.1 = true
    · simp only [List.filter_cons, hc, if_true, sparseRead, ih]
    · have : a ≠ c.1 := fun e => hc (e ▸ h)
      simp only [List.filter_cons, hc, if_false, sparseRead, ih, if_neg this, Bool.false_eq_true]

theorem mem_indexed (n : Nat) (run : List TagNode) (c : Nat × TagNode) (h : c ∈ indexed n run) :
    n ≤ c.1 ∧ c.1 < n + run.length ∧ c.2 ∈ run := by
  induction run generalizing n with
  | nil => simp [indexed] at h
  | cons v run ih =>
    rcases List.mem_cons.1 h with rfl | h
    · simp
    · have := ih _ h
      exact ⟨by omega, by simp only [List.length_cons]; omega, List.mem_cons_of_mem _ this.2.2⟩

theorem sparseRead_indexed (n : Nat) (run : List TagNode) (a : Nat) :
    sparseRead TagNode.atReset (indexed n run) a =
      if n ≤ a then (run[a - n]?).getD TagNode.atReset else TagNode.atReset := by
  induction run generalizing n with
  | nil => simp [indexed, sparseRead]
  | cons v run ih =>
    simp only [indexed, sparseRead, ih]
    rcases Nat.lt_trichotomy a n with h | rfl | h
    · rw [if_neg (by omega), if_neg (by omega), if_neg (by omega)]
    · simp
    · rw [if_neg (by omega), if_pos (by omega), if_pos (by omega), show a - n = (a - (n + 1)) + 1 by omega,
        List.getElem?_cons_succ]

theorem indexed_fst_mem (n : Nat) (run : List TagNode) (a : Nat) :
    (∃ c ∈ indexed n run, c.1 = a) ↔ n ≤ a ∧ a < n + run.length := by
  induction run generalizing n with
  | nil => simp [indexed]
  | cons v run ih =>
    simp only [indexed, List.mem_cons, exists_eq_or_imp, ih, List.length_cons]
    omega

/-- The node file after a run is stored: the run in its range, every other node as it was. -/
theorem NodeFile.node_setRun (f : NodeFile) (base : Nat) (run : List TagNode) (n : Nat) :
    (f.setRun base run).node n =
      if base ≤ n ∧ n < base + run.length then (run[n - base]?).getD TagNode.atReset else f.node n := by
  unfold NodeFile.setRun NodeFile.node
  rw [sparseRead_append, sparseRead_append]
  by_cases hlt : n < base
  · have hout : ¬ (base ≤ n ∧ n < base + run.length) := by omega
    rw [if_neg hout]
    by_cases hm : ∃ c ∈ f.filter (fun c => decide (c.1 < base)), c.1 = n
    · rw [if_pos (by obtain ⟨c, h1, h2⟩ := hm; exact ⟨c, List.mem_append_left _ h1, h2⟩), if_pos hm]
      exact sparseRead_filter _ (fun a => decide (a < base)) f n (by simpa using hlt)
    · have hnf : ∀ c ∈ f, c.1 ≠ n := fun c hc e => hm ⟨c, List.mem_filter.2 ⟨hc, by simp [e, hlt]⟩, e⟩
      rw [if_neg, sparseRead_of_not_mem _ _ _ hnf, sparseRead_of_not_mem]
      · intro c hc; exact hnf c (List.mem_of_mem_filter hc)
      · rintro ⟨c, hc, e⟩
        rcases List.mem_append.1 hc with hc | hc
        · exact hnf c (List.mem_of_mem_filter hc) e
        · have := (mem_indexed base run c hc).1; omega
  · have hno : ¬ ∃ c ∈ f.filter (fun c => decide (c.1 < base)), c.1 = n := by
      rintro ⟨c, hc, rfl⟩
      have := (List.mem_filter.1 hc).2
      simp at this
      omega
    rw [if_neg hno]
    by_cases hin : base ≤ n ∧ n < base + run.length
    · obtain ⟨c, hc, e⟩ := (indexed_fst_mem base run n).2 hin
      rw [if_pos ⟨c, List.mem_append_right _ hc, e⟩, if_pos hin, sparseRead_indexed, if_pos hin.1]
    · have hni := mt (indexed_fst_mem base run n).1 hin
      rw [if_neg, if_neg hin]
      · exact sparseRead_filter _ (fun a => decide (base + run.length ≤ a)) f n (by simp; omega)
      · rintro ⟨c, hc, e⟩
        rcases List.mem_append.1 hc with hc | hc
        · exact hno ⟨c, hc, e⟩
        · exact hni ⟨c, hc, e⟩

theorem pairwise_indexed (n : Nat) (run : List TagNode) : (indexed n run).Pairwise (fun x y => x.1 < y.1) := by
  induction run generalizing n with
  | nil => exact .nil
  | cons v run ih => exact .cons (fun c hc => by have := (mem_indexed _ _ c hc).1; omega) (ih _)

/-- A run of built nodes keeps the canonical form. -/
theorem NodeFile.wf_setRun (size : Nat) (f : NodeFile) (hf : f.wf size) (base : Nat) (run : List TagNode)
    (hrun : ∀ v ∈ run, v.valid = true) (hb : base + run.length ≤ size) : (f.setRun base run).wf size := by
  obtain ⟨h1, h2, h3⟩ := hf
  unfold NodeFile.setRun
  refine ⟨?_, ?_, ?_⟩
  · rw [List.pairwise_append, List.pairwise_append]
    refine ⟨⟨h1.filter _, pairwise_indexed _ _, fun a ha b hb => ?_⟩, h1.filter _, fun a ha b hb => ?_⟩
    · have := (List.mem_filter.1 ha).2
      have := (mem_indexed _ _ b hb).1
      simp at *; omega
    · have hb' := (List.mem_filter.1 hb).2
      rcases List.mem_append.1 ha with ha | ha
      · have := (List.mem_filter.1 ha).2
        simp at *; omega
      · have := (mem_indexed _ _ a ha).2.1
        simp at *; omega
  all_goals
    intro c hc
    simp only [List.mem_append, List.mem_filter] at hc
    rcases hc with (hc | hc) | hc
  · exact h2 c hc.1
  · have := hrun _ (mem_indexed _ _ c hc).2.2
    intro e; rw [e] at this; cases this
  · exact h2 c hc.1
  · exact h3 c hc.1
  · have := (mem_indexed _ _ c hc).2.1; omega
  · exact h3 c hc.1

end Sys2Proof.Machine
end

