-- ==== Sys2Proof/Machine/Assembler.lean ====
section
/-! DEFINITION. The notation of 30_encoding.md R80 and the pseudo-instructions of R81. The block never sees either: a host
presents the words. -/

namespace Sys2Proof.Machine

/-- A number as the assembler writes it (30_encoding.md R80): decimal (log 19). -/
def asmNumber {w : Nat} (v : BitVec w) : String := toString v.toNat

/-- The line of a command (30_encoding.md R80). -/
def asmText : Instr → String
  | .nop => "nop"
  | .reset => "reset"
  | .regread reg => "regread " ++ asmNumber reg
  | .clrwarn => "clrwarn"
  | .mqInitctx => "mq.initctx"
  | .mqInitdec raw rst addr =>
    "mq.initdec " ++ asmNumber addr ++ (if raw then ", raw" else "") ++ (if rst then ", rst" else "")
  | .mqDecode cxi => "mq.decode " ++ asmNumber cxi
  | .mqCheckbp expected => "mq.checkbp " ++ asmNumber expected
  | .ttInit base w h => "tt.init " ++ asmNumber base ++ ", " ++ asmNumber w ++ ", " ++ asmNumber h
  | .ttDecode node thr => "tt.decode " ++ asmNumber node ++ ", " ++ asmNumber thr
  | .brSetend stop => "br.setend " ++ asmNumber stop
  | .brStart pos => "br.start " ++ asmNumber pos
  | .brGetbits n => "br.getbits " ++ asmNumber n
  | .brFlush => "br.flush"
  | .brGetnpasses => "br.npasses"
  | .brGetlblkinc => "br.lblkinc"
  | .brEph => "br.eph"
  | .brSegcopy len term dst =>
    "br.segcopy " ++ asmNumber dst ++ ", " ++ asmNumber len ++ (if term then ", term" else "")

/-- The pseudo-instructions of 30_encoding.md R81. -/
inductive Pseudo where
  | brGetbit
  | brOpen (pos stop : Word)
  | mqOpen (addr : Word)
  | mqRestart (addr : Word) (raw : Bool)
  | cbTerm (dst : Word)
  | mqSegsym
deriving DecidableEq, Repr

/-- The expansions of 30_encoding.md R81. -/
def Pseudo.expand : Pseudo → List Instr
  | .brGetbit => [.brGetbits 1]
  | .brOpen pos stop => [.brSetend stop, .brStart pos]
  | .mqOpen addr => [.mqInitdec false true addr]
  | .mqRestart addr raw => [.mqInitdec raw false addr]
  | .cbTerm dst => [.brSegcopy 0 true dst]
  | .mqSegsym => [.mqDecode 17, .mqDecode 17, .mqDecode 17, .mqDecode 17]

end Sys2Proof.Machine
end

