-- ==== Sys2Proof/Machine/HostSequences.lean ====
section
/-! DEFINITION. The host sequences of 44_host_sequences.md and the bring-up order of 70_reset_and_hazards.md R253, as programs
of the host: each issues commands and reads the responses. They hold no block state and are no behaviour of the block
(44_host_sequences.md R190); `step` uses none of them (log 18). -/

namespace Sys2Proof.Machine

/-- The block after the host has presented one command and taken its response (30_encoding.md R71). -/
def issue (s : State) (i : Instr) : State :=
  match serve (.command (encode i)) s with
  | .next t => t
  | .fault _ => s
  | .refused _ => s

/-- How a host sequence ends: with a value, with the tile abandoned and the block reset (44_host_sequences.md R199), at a
fault of class IllegalCommand, a bug in the host's own commands (60_exceptions.md R222), at a block whose `STATUS` is not 0
when it is brought into use (70_reset_and_hazards.md R253), or at a host write that the memory port rejects (20_memory.md
R55). -/
inductive HostEnd (α : Type) where
  | done (value : α) (s : State)
  | tileAborted (s : State)
  | commandBug (s : State)
  | notReady (s : State)
  | writeRejected (s : State)
deriving DecidableEq, Repr

/-- InvalidData or OutOfMemory: "it abandons the tile and issues `RESET` before using the block for another tile"
(44_host_sequences.md R199). -/
def abortTile {α : Type} (s : State) : HostEnd α := .tileAborted (issue s .reset)

/-- One command, and on with its `RESULT`, unless the block faulted. A fault of class InvalidData or OutOfMemory aborts the
tile (44_host_sequences.md R199). DESIGN CHOICE: at a fault of class IllegalCommand the sequence ends and issues nothing
more; the spec calls it a host bug and does not say what the host does then (log 22). -/
def issueThen {α : Type} (s : State) (i : Instr) (k : Word → State → HostEnd α) : HostEnd α :=
  let t := issue s i
  if t.faulted then (if t.cause.cls = 4 then .commandBug t else abortTile t) else k t.result t

/-- On with what a sequence gives, unless it ended early. -/
def HostEnd.andThen {α β : Type} (r : HostEnd α) (k : α → State → HostEnd β) : HostEnd β :=
  match r with
  | .done v s => k v s
  | .tileAborted s => .tileAborted s
  | .commandBug s => .commandBug s
  | .notReady s => .notReady s
  | .writeRejected s => .writeRejected s

/-- Commands one after the other whose `RESULT` the host does not use. -/
def issueEach : List Instr → State → HostEnd Unit
  | [], s => .done () s
  | i :: is, s => issueThen s i fun _ t => issueEach is t

/-! ### Strictness (44_host_sequences.md R205) -/

/-- The warning bits of a `STATUS` word (10_state.md R22): a set one is InvalidData to a strict host. -/
def strictViolation (status : Word) : Bool := status.getLsbD 17 || status.getLsbD 18

/-- What follows a `br.eph` or an `mq.checkbp` (44_host_sequences.md R205): a strict host reads `STATUS`, with `regread 0x00`
(log 29), and a set warning aborts the tile; a lenient host goes on. -/
def checkWarnings (strict : Bool) (s : State) : HostEnd Unit :=
  if strict then issueThen s (.regread 0x00) fun status t => if strictViolation status then abortTile t else .done () t
  else .done () s

/-- The warnings cleared when the host, strict or lenient, starts a new tile. -/
def startTile (s : State) : HostEnd Unit := issueEach [.clrwarn] s

/-! ### Bring-up (70_reset_and_hazards.md R253) and tile-parts (44_host_sequences.md R190) -/

/-- Step 1 of 70_reset_and_hazards.md R253: `reset`, unless the block has just been powered on, and the check of `STATUS`;
`ID` too where the host asks for it (`readId`). DESIGN CHOICE: at a `STATUS` other than 0 the sequence ends; the spec does
not say what the host does then (log 25). -/
def readyBlock (justPoweredOn readId : Bool) (s : State) : HostEnd (Option Word) :=
  let t := issue (if justPoweredOn then s else issue s .reset) (.regread 0x00)
  if t.result ≠ 0 then .notReady t
  else if readId then issueThen t (.regread 0x02) fun id u => .done (some id) u
  else .done none t

/-- The host's bytes stored from `a` on through the memory port (20_memory.md R55). DESIGN CHOICE: at the first write the
port rejects the sequence ends, with the bytes before it stored; the spec does not say what the host does then (log 26). The
address never wraps: a size is at most 2^32 - 1, so the write at the last address is rejected. -/
def loadBytes (space : MemSpace) : Word → List Byte → State → HostEnd Unit
  | _, [], s => .done () s
  | a, v :: vs, s =>
    let t := s.hostWrite space a v
    if t.reply = some .rejected then .writeRejected t else loadBytes space (a + 1) vs t

/-- A tile-part as the host places it: its bytes, the PHMEM address of the first of them, and the address of the first
packet's header, which need not be the first byte. -/
structure TilePart where
  address : Word
  bytes : List Byte
  firstPacket : Word
deriving DecidableEq, Repr

/-- Steps 2 and 3 of 70_reset_and_hazards.md R253, and the switch to the next tile-part (44_host_sequences.md R190): the
bytes into PHMEM, the window to their end, the cursor to the first packet. A tile-part that does not fit ends the sequence
(log 26). -/
def openTilePart (part : TilePart) (s : State) : HostEnd Unit :=
  (loadBytes .phmem part.address part.bytes s).andThen fun _ t =>
    issueEach (Pseudo.brOpen part.firstPacket (part.address + BitVec.ofNat 32 part.bytes.length)).expand t

/-- A tag tree as the host places it: its first node and its grid. -/
structure TreePlace where
  base : BitVec 24
  w : Half
  h : Half
deriving DecidableEq, Repr

/-- The first node past the tree (42_tag_tree.md R141). -/
def TreePlace.stop (p : TreePlace) : Nat := p.base.toNat + treeSize (treeLevels 16 p.w.toNat p.h.toNat)

/-- "Over disjoint node ranges" (70_reset_and_hazards.md R253, R259). -/
abbrev TreesDisjoint (trees : List TreePlace) : Prop :=
  trees.Pairwise fun p q => p.stop ≤ q.base.toNat ∨ q.stop ≤ p.base.toNat

/-- The trees of a tile with `n` precincts: those of each precinct, an inclusion and a zero-bitplane tree for each band
(42_tag_tree.md R140, 44_host_sequences.md R204). -/
structure TreePlan (n : Nat) where
  trees : Vector (List TreePlace) n
  disjoint : TreesDisjoint trees.toList.flatten

/-- Trees built by `tt.init`: all of a tile's (step 4 of 70_reset_and_hazards.md R253), or those of a precinct again, which
resets them (42_tag_tree.md R148, 44_host_sequences.md R204). -/
def buildTrees (trees : List TreePlace) : State → HostEnd Unit :=
  issueEach (trees.map fun p => .ttInit p.base p.w p.h)

/-- Steps 1 to 4 of 70_reset_and_hazards.md R253, with the warnings cleared for the new tile (44_host_sequences.md R205; log
29): the value is `ID` where the host asked for it. -/
def bringUp {n : Nat} (justPoweredOn readId : Bool) (part : TilePart) (plan : TreePlan n) (s : State) :
    HostEnd (Option Word) :=
  (readyBlock justPoweredOn readId s).andThen fun id t =>
    (startTile t).andThen fun _ u =>
      (openTilePart part u).andThen fun _ v =>
        (buildTrees plan.trees.toList.flatten v).andThen fun _ w => .done id w

/-! ### Packet header -/

/-- The packet-present bit (44_host_sequences.md R191): an empty packet is flushed and has no body. -/
def presentBit (s : State) : HostEnd Bool :=
  issueThen s (.brGetbits 1) fun present t =>
    if present = 0 then issueThen t .brFlush fun _ u => .done false u else .done true t

/-- Inclusion of a code-block in `layer` (44_host_sequences.md R192); `leaf` is its node in the inclusion tree. -/
def inclusion (s : State) (included : Bool) (leaf : BitVec 24) (layer : Nat) : HostEnd Bool :=
  if included then issueThen s (.brGetbits 1) fun r t => .done (r != 0) t
  else
    issueThen s (.ttDecode leaf (BitVec.ofNat 32 (layer + 1))) fun r t => .done (decide (r.toNat < layer + 1)) t

/-- `nonzerobits` (44_host_sequences.md R193), signed and exact. -/
def nonzeroBits (expn guardbits roiShift : Int) (zbp : Nat) : Int := expn + guardbits - 1 - (zbp - roiShift)

/-- Zero bit-planes on first inclusion (44_host_sequences.md R193; the tile is aborted, 90_conflicts.md C5). -/
def zeroBitplanes (s : State) (leaf : BitVec 24) (expn guardbits roiShift : Int) : HostEnd Int :=
  issueThen s (.ttDecode leaf 0xFFFFFFFF) fun zbp t =>
    let n := nonzeroBits expn guardbits roiShift zbp.toNat
    if n < 0 ∨ 30 < n then abortTile t else .done n t

/-- The number of new passes (44_host_sequences.md R194), with the host's limit `maxPasses`. -/
def newPasses (s : State) (maxPasses passesSoFar : Nat) : HostEnd Nat :=
  issueThen s .brGetnpasses fun r t =>
    if maxPasses < passesSoFar + r.toNat then abortTile t else .done r.toNat t

/-- `cblk.lblock` of a code-block not yet included (44_host_sequences.md R195). -/
def initialLblock : Nat := 3

/-- `floor_log2` (00_scope.md R9). -/
def floorLog2 (n : Nat) : Nat := Nat.log2 n

/-- The `Lblock` increment (44_host_sequences.md R195): the new `Lblock`. -/
def raiseLblock (s : State) (lblock passes : Nat) : HostEnd Nat :=
  issueThen s .brGetlblkinc fun llen t =>
    if 16 < lblock + llen.toNat + floorLog2 passes then abortTile t else .done (lblock + llen.toNat) t

/-! ### Segments (44_host_sequences.md R196) -/

/-- The code-block styles that split the new passes of a code-block without HT (44_host_sequences.md R196). -/
inductive SegmentStyle where
  | plain
  | restart
  | bypass
deriving DecidableEq, Repr

/-- A termination follows pass `p`, counted from the code-block's first pass (44_host_sequences.md R196): in bypass mode
after each of the first 10 passes, then after 2 and 1 passes in turn, as the document has it (91_not_in_source.md N13). -/
def segmentEndsAfter : SegmentStyle → Nat → Bool
  | .plain, _ => false
  | .restart, _ => true
  | .bypass, p => p < 10 || (p - 10) % 3 != 0

/-- A segment of new passes as the host splits them, before its length is read: how many passes, and whether a termination
ends it. -/
structure Split where
  passes : Nat
  terminated : Bool
deriving DecidableEq, Repr

/-- The split of `count` new passes, the first of them pass `p`, with `run` of them in the segment so far
(44_host_sequences.md R196). -/
def segmentSplit (style : SegmentStyle) : Nat → Nat → Nat → List Split
  | 0, _, run => if run = 0 then [] else [⟨run, false⟩]
  | count + 1, p, run =>
    if segmentEndsAfter style p then ⟨run + 1, true⟩ :: segmentSplit style count (p + 1) 0
    else segmentSplit style count (p + 1) (run + 1)

/-- A newly signaled segment: its split and its length in bytes. -/
structure NewSegment where
  split : Split
  len : Nat
deriving DecidableEq, Repr

/-- The length field of a segment of `passes` passes, of `lblock + floor_log2(passes)` bits (44_host_sequences.md R196). -/
def lengthField {α : Type} (s : State) (lblock passes : Nat) (k : Nat → State → HostEnd α) : HostEnd α :=
  issueThen s (.brGetbits (BitVec.ofNat 6 (lblock + floorLog2 passes))) fun len t => k len.toNat t

/-- The length fields, one a segment (44_host_sequences.md R196). -/
def segmentLengths (lblock : Nat) : List Split → State → HostEnd (List NewSegment)
  | [], s => .done [] s
  | p :: ps, s =>
    lengthField s lblock p.passes fun len t =>
      (segmentLengths lblock ps t).andThen fun segs u => .done (⟨p, len⟩ :: segs) u

/-- The segments of an HT code-block after its first Cleanup segment: one pass each, SigProp and MagRef in turn, and each
boundary a termination (44_host_sequences.md R196). -/
def htSplit (passes : Nat) : List Split := List.replicate passes ⟨1, true⟩

/-- The length fields of an HT code-block in placeholder state, and whether it stays in it (44_host_sequences.md R196). They
are split as those of a block without HT. A zero under the conditions the document leaves unsaid (`stays`, of `lblock` and
the field's width; 91_not_in_source.md N14) leaves the passes placeholders; a nonzero value is the first Cleanup segment and
ends the placeholder state. DESIGN CHOICE: a zero without those conditions is an empty segment in that state (log 23). -/
def placeholderLengths (stays : Nat → Nat → Bool) (lblock : Nat) : List Split → State → HostEnd (List NewSegment × Bool)
  | [], s => .done ([], true) s
  | p :: ps, s =>
    lengthField s lblock p.passes fun len t =>
      if len = 0 then
        (placeholderLengths stays lblock ps t).andThen fun r u =>
          if stays lblock (lblock + floorLog2 p.passes) then .done r u
          else .done (⟨⟨p.passes, true⟩, 0⟩ :: r.1, r.2) u
      else
        (segmentLengths lblock (htSplit (ps.map Split.passes).sum) t).andThen fun segs u =>
          .done (⟨⟨p.passes, true⟩, len⟩ :: segs, false) u

/-! ### Code-blocks and packets -/

/-- What the host decides for a whole tile: the pass limit (44_host_sequences.md R194), the open conditions of HT
placeholder passes (R196), and whether it is strict (R205). -/
structure HostChoices where
  maxPasses : Nat
  placeholderStays : Nat → Nat → Bool
  strict : Bool

/-- What the surrounding software gives the host of a code-block: its nodes in the two trees, the terms of
`nonzerobits` (44_host_sequences.md R192, R193) and its style (R196). -/
structure CblkInfo where
  inclLeaf : BitVec 24
  zbpLeaf : BitVec 24
  expn : Int
  guardbits : Int
  roiShift : Int
  style : SegmentStyle
  ht : Bool
deriving DecidableEq, Repr

/-- The host's record of a code-block: what its packets have given so far (44_host_sequences.md R192 to R196), and its place
in CBMEM: `stop` is `cblk.end`, where the next copy goes, and `dataStart` the first byte of each segment, in order (R198). -/
structure Cblk where
  info : CblkInfo
  included : Bool
  nonzerobits : Int
  npasses : Nat
  lblock : Nat
  placeholder : Bool
  stop : Word
  dataStart : List Word
deriving DecidableEq, Repr

/-- A code-block before its first packet, with its region of CBMEM from `first` on. DESIGN CHOICE: its `nonzerobits` is 0
until the first inclusion gives it (44_host_sequences.md R193), so Tier-1 of a code-block that no packet includes issues no
command; the spec does not say what Tier-1 does then (log 27). -/
def Cblk.initial (info : CblkInfo) (first : Word) : Cblk := ⟨info, false, 0, 0, initialLblock, info.ht, first, [first]⟩

/-- The segments of `count` new passes, and whether the code-block is in placeholder state after them
(44_host_sequences.md R196). -/
def newSegments (choices : HostChoices) (b : Cblk) (lblock count : Nat) (s : State) : HostEnd (List NewSegment × Bool) :=
  if b.info.ht && b.placeholder then
    placeholderLengths choices.placeholderStays lblock (segmentSplit b.info.style count b.npasses 0) s
  else
    (segmentLengths lblock (if b.info.ht then htSplit count else segmentSplit b.info.style count b.npasses 0) s).andThen
      fun segs t => .done (segs, false) t

/-- The header of one code-block in `layer` (44_host_sequences.md R192 to R196): its new record and its new segments. -/
def cblkHeader (choices : HostChoices) (layer : Nat) (b : Cblk) (s : State) : HostEnd (Cblk × List NewSegment) :=
  (inclusion s b.included b.info.inclLeaf layer).andThen fun incl t =>
    if incl then
      (if b.included then .done b.nonzerobits t
        else zeroBitplanes t b.info.zbpLeaf b.info.expn b.info.guardbits b.info.roiShift).andThen fun nonzerobits u =>
      (newPasses u choices.maxPasses b.npasses).andThen fun count v =>
      (raiseLblock v b.lblock count).andThen fun lblock w =>
      (newSegments choices b lblock count w).andThen fun r x =>
        .done ({ b with
          included := true, nonzerobits := nonzerobits, npasses := b.npasses + count, lblock := lblock,
          placeholder := r.2 }, r.1) x
    else .done (b, []) t

/-- The headers of the code-blocks in their order (44_host_sequences.md R192). -/
def cblkHeaders (choices : HostChoices) (layer : Nat) : List Cblk → State → HostEnd (List (Cblk × List NewSegment))
  | [], s => .done [] s
  | b :: bs, s =>
    (cblkHeader choices layer b s).andThen fun r t =>
      (cblkHeaders choices layer bs t).andThen fun rs u => .done (r :: rs) u

/-- The end of the header (44_host_sequences.md R197): the EPH check only where the coding style asks for it. -/
def endOfHeader (strict : Bool) (s : State) (eph : Bool) : HostEnd Unit :=
  issueThen s .brFlush fun _ t => if eph then issueThen t .brEph fun _ u => checkWarnings strict u else .done () t

/-- One segment copied, its terminator always appended (44_host_sequences.md R198): where a termination ends it, the next
segment starts after the terminator; else the next copy overwrites it. -/
def copySegment (b : Cblk) (seg : NewSegment) (s : State) : HostEnd Cblk :=
  issueThen s (.brSegcopy (BitVec.ofNat 16 seg.len) true b.stop) fun e t =>
    if seg.split.terminated then .done { b with stop := e, dataStart := b.dataStart ++ [e] } t
    else .done { b with stop := e - 2 } t

/-- The new segments of one code-block, in order. -/
def copySegments : List NewSegment → Cblk → State → HostEnd Cblk
  | [], b, s => .done b s
  | seg :: segs, b, s => (copySegment b seg s).andThen fun b' t => copySegments segs b' t

/-- The packet body (44_host_sequences.md R198): the segments in the order of the header's code-blocks and segments. -/
def packetBody : List (Cblk × List NewSegment) → State → HostEnd (List Cblk)
  | [], s => .done [] s
  | (b, segs) :: rest, s =>
    (copySegments segs b s).andThen fun b' t => (packetBody rest t).andThen fun bs u => .done (b' :: bs) u

/-- One packet of the code-blocks it covers, in raster order (44_host_sequences.md R191 to R198): the records after it. An
empty packet changes none. -/
def packet (choices : HostChoices) (layer : Nat) (eph : Bool) (cblks : List Cblk) (s : State) : HostEnd (List Cblk) :=
  (presentBit s).andThen fun present t =>
    if present then
      (cblkHeaders choices layer cblks t).andThen fun headers u =>
        (endOfHeader choices.strict u eph).andThen fun _ v => packetBody headers v
    else .done cblks t

/-! ### Tier-1 (44_host_sequences.md R200) -/

/-- The coding passes. -/
inductive PassType where
  | significance
  | refinement
  | cleanup
deriving DecidableEq, Repr

/-- The type of pass `p`: the first bitplane has a cleanup pass only, every later one all three in their order
(44_host_sequences.md R200, 90_conflicts.md C4). -/
def passType (p : Nat) : PassType :=
  if p % 3 = 0 then .cleanup else if p % 3 = 1 then .significance else .refinement

/-- The bitplane of pass `p`, from `nonzerobits` - 1 down (44_host_sequences.md R200). -/
def passBitplane (nonzerobits : Int) (p : Nat) : Int := nonzerobits - 1 - (p + 2) / 3

/-- What one pass gave: its type, its decisions and, where a segmentation symbol ends it, whether that is 0xA. -/
structure PassResult where
  type : PassType
  decisions : List Bool
  symbol : Option Bool
deriving DecidableEq, Repr

/-- What the host chooses for the passes of a code-block: the context of each decision, from the passes before and the
decisions of this pass so far, `none` ending the pass (44_host_sequences.md R202), with a bound on the decisions of a pass,
which ends there at the latest (log 29);
which passes are raw; and the coding style's segmentation symbols and context resets (R200). -/
structure PassPlan where
  choose : List PassResult → List Bool → Option (BitVec 5)
  bound : Nat
  raw : Nat → Bool
  segsym : Bool
  resetContexts : Bool

/-- Decisions in the contexts the host chooses, at most `k`, after those it has so far (oldest first). -/
def runPass (choose : List Bool → Option (BitVec 5)) : Nat → List Bool → State → HostEnd (List Bool)
  | 0, ds, s => .done ds s
  | k + 1, ds, s =>
    match choose ds with
    | none => .done ds s
    | some cxi => issueThen s (.mqDecode cxi) fun d t => runPass choose k (ds ++ [d != 0]) t

/-- The segmentation symbol (44_host_sequences.md R201): four UNIFORM decisions, most significant first; true where it is
0xA. A mismatch is only logged. -/
def segmentationSymbol (s : State) : HostEnd Bool :=
  (runPass (fun ds => if ds.length < 4 then some 17 else none) 4 [] s).andThen fun ds t =>
    .done (ds == [true, false, true, false]) t

/-- `mq.checkbp`, a mismatch being only a warning (44_host_sequences.md R200, R205). -/
def checkBytePointer (strict : Bool) (expected : Word) (s : State) : HostEnd Unit :=
  issueThen s (.mqCheckbp expected) fun _ t => checkWarnings strict t

/-- One coding pass after the passes `before` (44_host_sequences.md R200): its decisions, the segmentation symbol at the end
of a cleanup pass where the coding style asks for it, the context reset. -/
def codingPass (plan : PassPlan) (before : List PassResult) (s : State) : HostEnd PassResult :=
  let type := passType before.length
  (runPass (plan.choose before) plan.bound [] s).andThen fun ds t =>
    (if type = .cleanup && plan.segsym then (segmentationSymbol t).andThen fun ok u => .done (some ok) u
      else .done none t).andThen fun symbol u =>
      if plan.resetContexts then issueThen u .mqInitctx fun _ v => .done ⟨type, ds, symbol⟩ v
      else .done ⟨type, ds, symbol⟩ u

/-- The restart of the decoder where a termination follows pass `p` (44_host_sequences.md R200): the byte pointer is checked
against the first FF of the terminator, and the next segment started with its contexts kept. -/
def restartAt (strict : Bool) (start : Word) (raw : Bool) (s : State) : HostEnd Unit :=
  (checkBytePointer strict (start - 2) s).andThen fun _ t => issueThen t (.mqInitdec raw false start) fun _ u => .done () u

/-- The last `k` passes of a code-block, after the passes `before`, where `starts` are the segments not yet started
(44_host_sequences.md R200). A bitplane outside 0 to 29 is fatal. A restart stands between two passes only, never after the
last, and only where the record has the start of the next segment (log 29). -/
def codingPasses (strict : Bool) (plan : PassPlan) (b : Cblk) :
    Nat → List PassResult → List Word → State → HostEnd (List PassResult)
  | 0, before, _, s => .done before s
  | k + 1, before, starts, s =>
    let p := before.length
    let bpno := passBitplane b.nonzerobits p
    if bpno < 0 ∨ 29 < bpno then abortTile s
    else
      (codingPass plan before s).andThen fun r t =>
        match starts with
        | [] => codingPasses strict plan b k (before ++ [r]) [] t
        | start :: later =>
          if segmentEndsAfter b.info.style p && k != 0 then
            (restartAt strict start (plan.raw (p + 1)) t).andThen fun _ u =>
              codingPasses strict plan b k (before ++ [r]) later u
          else codingPasses strict plan b k (before ++ [r]) (start :: later) t

/-- Tier-1 decoding of one code-block, not an HT one (00_scope.md R6), after all packets of its tile (44_host_sequences.md
R200): nothing at all where `nonzerobits` is 0, else the start of the first segment, the passes, and the byte-pointer check
at the code-block's end, `cblk.end` as the rule writes it (log 24). -/
def tier1 (strict : Bool) (plan : PassPlan) (b : Cblk) (s : State) : HostEnd (List PassResult) :=
  match b.dataStart with
  | [] => .done [] s
  | start :: later =>
    if b.nonzerobits = 0 then .done [] s
    else
      issueThen s (.mqInitdec (plan.raw 0) true start) fun _ t =>
        (codingPasses strict plan b b.npasses [] later t).andThen fun rs u =>
          (checkBytePointer strict b.stop u).andThen fun _ v => .done rs v

/-! ### A whole tile (70_reset_and_hazards.md R253) -/

/-- What comes next in the packet stream of a tile with `n` precincts, as the host places it: a packet of one of them, in
the order of the packet iterator, which is not the block's (00_scope.md R6); a new tile-part (44_host_sequences.md R190); the
"explicit coding-style reset" of a precinct's trees, for which the source does not name the event (R204, 91_not_in_source.md
N7; log 28). -/
inductive StreamItem (n : Nat) where
  | packet (precinct : Fin n) (layer : Nat) (eph : Bool)
  | tilePart (part : TilePart)
  | codingStyleReset (precinct : Fin n)
deriving DecidableEq, Repr

/-- Step 5 of 70_reset_and_hazards.md R253: the packets one after the other (44_host_sequences.md R203), each on the records
its precinct's code-blocks have from the packets before. Trees are rebuilt at a coding-style reset and never otherwise
(R204); the records stay as they are (log 28). -/
def packetStream {n : Nat} (choices : HostChoices) (plan : TreePlan n) :
    List (StreamItem n) → Vector (List Cblk) n → State → HostEnd (Vector (List Cblk) n)
  | [], precincts, s => .done precincts s
  | .packet i layer eph :: items, precincts, s =>
    (packet choices layer eph (precincts.get i) s).andThen fun cblks t =>
      packetStream choices plan items (precincts.set i cblks) t
  | .tilePart part :: items, precincts, s =>
    (openTilePart part s).andThen fun _ t => packetStream choices plan items precincts t
  | .codingStyleReset i :: items, precincts, s =>
    (buildTrees (plan.trees.get i) s).andThen fun _ t => packetStream choices plan items precincts t

/-- Step 6 of 70_reset_and_hazards.md R253: Tier-1 of the code-blocks one after the other, each with its own start and
contexts (44_host_sequences.md R200, R203). -/
def tier1Each (strict : Bool) (plan : Cblk → PassPlan) : List Cblk → State → HostEnd (List (List PassResult))
  | [], s => .done [] s
  | b :: bs, s =>
    (tier1 strict (plan b) b s).andThen fun rs t =>
      (tier1Each strict plan bs t).andThen fun rss u => .done (rs :: rss) u

/-- One tile from bring-up to its last decision, steps 1 to 6 of 70_reset_and_hazards.md R253. HT code-blocks are not decoded
(00_scope.md R6). -/
def decodeTile {n : Nat} (choices : HostChoices) (passes : Cblk → PassPlan) (justPoweredOn readId : Bool) (part : TilePart)
    (plan : TreePlan n) (items : List (StreamItem n)) (precincts : Vector (List Cblk) n) (s : State) :
    HostEnd (List (List PassResult)) :=
  (bringUp justPoweredOn readId part plan s).andThen fun _ t =>
    (packetStream choices plan items precincts t).andThen fun precincts u =>
      tier1Each choices.strict passes (precincts.toList.flatten.filter fun b => !b.info.ht) u

/-- A segment as the host stores it itself, its terminator FF FF with it where it writes one (70_reset_and_hazards.md R253,
R257). -/
structure HostSegment where
  address : Word
  bytes : List Byte
  terminated : Bool
deriving DecidableEq, Repr

/-- The segments stored in CBMEM through the host port; one that does not fit ends the sequence (log 26). -/
def loadSegments : List HostSegment → State → HostEnd Unit
  | [], s => .done () s
  | seg :: segs, s =>
    (loadBytes .cbmem seg.address (seg.bytes ++ endMarker seg.terminated) s).andThen fun _ t => loadSegments segs t

/-- MQ-only use: steps 2 to 5 of 70_reset_and_hazards.md R253 are skipped, and the host writes CBMEM directly. -/
def decodeSegments (strict : Bool) (passes : Cblk → PassPlan) (justPoweredOn readId : Bool) (segments : List HostSegment)
    (cblks : List Cblk) (s : State) : HostEnd (List (List PassResult)) :=
  (readyBlock justPoweredOn readId s).andThen fun _ t =>
    (startTile t).andThen fun _ u => (loadSegments segments u).andThen fun _ v => tier1Each strict passes cblks v

end Sys2Proof.Machine
end

