-- ==== Sys2Proof/Tests/Slice0.lean ====
section
/-! SUPPORT. Tests. The expected values are those of spec/95_test_vectors.md or of the examples in the rules, named at each
test; the witnesses at the end meet the hypotheses of the statements in Certificates/Slice0/Obligations.lean. -/

namespace Sys2Proof.Tests

open Sys2Proof Sys2Proof.Machine

/-! ### Small states -/

/-- An instance with 64 bytes in each memory and 64 nodes. -/
def demoCfg : Config := ⟨64, 64, 64, 17⟩

/-- The state at power-on with the bytes `ph` and `cb` at address 0 of PHMEM and CBMEM. -/
def demo (ph cb : List Byte) : State :=
  State.powerOn demoCfg (Memory.writeBytes [] 0 ph) (Memory.writeBytes [] 0 cb)

/-- The window set to the bytes `ph`, the cursor at its start: `br.setend`, `br.start 0`. -/
def reader (ph : List Byte) : State := { demo ph [] with brEnd := BitVec.ofNat 32 ph.length, brinit := true }

/-- The MQ unit with the segment `cb` and the given registers. -/
def segment (cb : List Byte) (a : Half) (c bp : Word) : State :=
  { demo [] cb with mqA := a, mqC := c, mqBp := bp, mqinit := true }

/-- The next state, where there is one. -/
def next (o : Host.Outcome State Fault Refusal) : State :=
  match o with
  | .next s => s
  | .fault _ => demo [] []
  | .refused _ => demo [] []

/-- A reader with the tree over two leaves, nodes 0 and 1, and root 2, in which the root is known to be `v` and leaf 0 at
least `x`. -/
def pair (v x : Word) (ph : List Byte) : State :=
  { reader ph with nodes := [(0, ⟨true, x, false, some 2⟩), (1, ⟨true, 0, false, some 2⟩), (2, ⟨true, v, true, none⟩)] }

/-- A reader with that tree as `TT_INIT` leaves it. -/
def newPair (ph : List Byte) : State :=
  { reader ph with nodes := [(0, ⟨true, 0, false, some 2⟩), (1, ⟨true, 0, false, some 2⟩), (2, ⟨true, 0, false, none⟩)] }

/-! ### Value checks: one ill-formed command for each (30_encoding.md R74) -/

theorem test_wellFormed_reg : Instr.wellFormed demoCfg (.regread 0x06) = false := by decide
theorem test_wellFormed_cxi : Instr.wellFormed demoCfg (.mqDecode 19) = false := by decide
theorem test_wellFormed_w : Instr.wellFormed demoCfg (.ttInit 0 0 1) = false := by decide
theorem test_wellFormed_h : Instr.wellFormed demoCfg (.ttInit 0 1 0) = false := by decide
theorem test_wellFormed_end : Instr.wellFormed demoCfg (.brSetend 65) = false := by decide
theorem test_wellFormed_n : Instr.wellFormed demoCfg (.brGetbits 33) = false := by decide

/-! ### Decoding: words written out from 30_encoding.md R70, R73, R74 -/

theorem test_decode_nop : decode 0x0000000000000000 = .ok .nop := by decide
theorem test_decode_reset : decode 0x0100000000000000 = .ok .reset := by decide
theorem test_decode_regread : decode 0x0200003300000000 = .ok (.regread 0x33) := by decide
theorem test_decode_clrwarn : decode 0x0300000000000000 = .ok .clrwarn := by decide
theorem test_decode_mqInitctx : decode 0x1000000000000000 = .ok .mqInitctx := by decide
theorem test_decode_mqInitdec : decode 0x11000001000000A5 = .ok (.mqInitdec true false 0xA5) := by decide
theorem test_decode_mqDecode : decode 0x1200001200000000 = .ok (.mqDecode 18) := by decide
theorem test_decode_mqCheckbp : decode 0x1300000080000002 = .ok (.mqCheckbp 0x80000002) := by decide
theorem test_decode_ttInit : decode 0x2000001000030002 = .ok (.ttInit 0x10 3 2) := by decide
theorem test_decode_ttDecode : decode 0x21123456FFFFFFFF = .ok (.ttDecode 0x123456 0xFFFFFFFF) := by decide
theorem test_decode_brSetend : decode 0x3000000000000005 = .ok (.brSetend 5) := by decide
theorem test_decode_brStart : decode 0x3100000000000007 = .ok (.brStart 7) := by decide
theorem test_decode_brGetbits : decode 0x3200002000000000 = .ok (.brGetbits 32) := by decide
theorem test_decode_brFlush : decode 0x3300000000000000 = .ok .brFlush := by decide
theorem test_decode_brGetnpasses : decode 0x3400000000000000 = .ok .brGetnpasses := by decide
theorem test_decode_brGetlblkinc : decode 0x3500000000000000 = .ok .brGetlblkinc := by decide
theorem test_decode_brEph : decode 0x3600000000000000 = .ok .brEph := by decide
theorem test_decode_brSegcopy : decode 0x3701000300000010 = .ok (.brSegcopy 3 true 0x10) := by decide
theorem test_decode_reserved_opcode : decode 0x0400000000000000 = .error .reservedOpcode := by decide
theorem test_decode_reserved_bits : decode 0x3702000000000000 = .error .reservedBits := by decide

/-! ### One step each -/

/-- 40_control.md R92: from BR_EXHAUSTED, `STATUS` 0x00010101, `reset` gives `STATUS` 0 and `RESULT` 0. -/
theorem test_reset : let s := { reader [] with cause := .brExhausted, result := 7 }
    let t := next (exec .reset s)
    s.statusWord = 0x00010101 ∧ t.statusWord = 0 ∧ t.result = 0 ∧ t.brinit = false := by decide

/-- 40_control.md R93: `regread 0x02` gives 0x4D515450, while faulted too. -/
theorem test_regread_id : (next (exec (.regread 0x02) { demo [] [] with cause := .mqRange })).result = 0x4D515450 := by
  decide

/-- 40_control.md R94: `STATUS` 0x00020000, then `clrwarn` gives `STATUS` 0. -/
theorem test_clrwarn : let s := { demo [] [] with warnEph := true }
    s.statusWord = 0x00020000 ∧ (next (exec .clrwarn s)).statusWord = 0 := by decide

/-- 41_mq_decoder.md R110: with `CX[1]` = 36, `mq.initctx` gives `CX[1]` = 0, `CX[0]` = 8, `CX[17]` = 92, `CX[18]` = 6. -/
theorem test_mqInitctx : let t := next (exec .mqInitctx ((demo [] []).setCx 1 36))
    t.cx.get 1 = 0 ∧ t.cx.get 0 = 8 ∧ t.cx.get 17 = 92 ∧ t.cx.get 18 = 6 := by decide

/-- MQ-I: the first bytes 12 34. -/
theorem test_mqInitdec : let t := next (exec (.mqInitdec false true 0) (demo [] [0x12, 0x34, 0xFF, 0xFF]))
    t.mqA = 0x8000 ∧ t.mqC = 0x76E58080 ∧ t.mqBp = 1 ∧ t.mqinit = true := by decide

/-- MQ-I: the first bytes FF 80, where the 7-bit byte borrows. -/
theorem test_mqInitdec_stuffed : let t := next (exec (.mqInitdec false true 0) (demo [] [0xFF, 0x80, 0xFF, 0xFF]))
    t.mqC = 0xFFFF0100 ∧ t.mqBp = 1 := by decide

/-- MQ-2, row 4 from row 3: an LPS in state 5 that inputs a byte. -/
theorem test_mqDecode_lps :
    let t := next (exec (.mqDecode 0) ((segment [0x0E, 0x98, 0xFF, 0xFF] 0xF17C 0xF1670100 1).setCx 0 10))
    t.result = 1 ∧ t.mqA = 0x8840 ∧ t.mqC = 0x83000040 ∧ t.mqBp = 2 ∧ t.cx.get 0 = 66 := by decide

/-- MQ-5, decision 2 from decision 1: a raw bit where the counter is spent. -/
theorem test_mqDecode_raw :
    let t := next (exec (.mqDecode 0) { segment [0xB2, 0xF0, 0xFF, 0xFF] 0x8000 0x4D0F0100 1 with raw := true })
    t.result = 0 ∧ t.mqA = 0x8000 ∧ t.mqC = 0x9A1E0002 ∧ t.mqBp = 2 := by decide

/-- MQ-F6: one byte short. -/
theorem test_mqCheckbp : let t := next (exec (.mqCheckbp 2) (segment [0x12, 0x34] 0x8000 0x76E58080 1))
    t.result = 0xFFFFFFFF ∧ t.statusWord = 0x40000 := by decide

/-- TT-1: the parents of the 3 x 2 tree. -/
theorem test_ttInit : let t := next (exec (.ttInit 0 3 2) (demo [] []))
    t.result = 9 ∧ (List.range 9).map (fun n => (t.node n).parent) =
      [some 6, some 6, some 7, some 6, some 6, some 7, some 8, some 8, none] := by decide

/-- TT-F2: a tree of 21 nodes where 16 fit. -/
theorem test_ttInit_capacity :
    (next (exec (.ttInit 0 4 4) { demo [] [] with cfg := ⟨64, 64, 16, 17⟩ })).statusWord = 0x10305 := by decide

/-- TT-2: the walk of node 0 stops at the root. -/
theorem test_ttDecode :
    let t := next (exec (.ttDecode 0 1) (next (exec (.ttInit 0 3 2) (reader [0x58, 0x80]))))
    t.result = 1 ∧ t.brPos = 0 ∧ t.brBitidx = 7 ∧ (t.node 8).val = 1 ∧ (t.node 6).val = 0 := by decide

/-- TT-4: the bits 0 0 0 1 under the unbounded threshold. -/
theorem test_ttDecode_unbounded :
    let t := next (exec (.ttDecode 0 0xF) { reader [0x10] with nodes := [(0, ⟨true, 0, false, none⟩)] })
    t.result = 3 ∧ t.brBitidx = 4 ∧ (t.node 0).vis = true := by decide

/-- 43_bitstream.md R162. -/
theorem test_brSetend : (next (exec (.brSetend 5) (demo [] []))).brEnd = 5 := by decide

/-- 43_bitstream.md R163. -/
theorem test_brStart : let t := next (exec (.brStart 9) { demo [] [] with brBitidx := 3 })
    t.brPos = 9 ∧ t.brBitidx = 8 ∧ t.brinit = true := by decide

/-- BR-GB: five bytes FF give 32 bits, 8 + 7 + 7 + 7 and 3 of the fifth byte's 7. -/
theorem test_brGetbits : let t := next (exec (.brGetbits 32) (reader [0xFF, 0xFF, 0xFF, 0xFF, 0xFF]))
    t.result = 0xFFFFFFFF ∧ t.brPos = 4 ∧ t.brBitidx = 4 := by decide

/-- 43_bitstream.md R165: `80 FF 92` after one bit. -/
theorem test_brFlush : let t := next (exec .brFlush { reader [0x80, 0xFF, 0x92] with brBitidx := 7 })
    t.brPos = 1 ∧ t.brBitidx = 8 := by decide

/-- BR-NP: `FF 7F 80` is 164 passes. -/
theorem test_brGetnpasses : let t := next (exec .brGetnpasses (reader [0xFF, 0x7F, 0x80]))
    t.result = 164 ∧ t.brPos = 2 ∧ t.brBitidx = 7 := by decide

/-- 43_bitstream.md R167: `FF 7F 00` is 15. -/
theorem test_brGetlblkinc : (next (exec .brGetlblkinc (reader [0xFF, 0x7F, 0x00]))).result = 15 := by decide

/-- 43_bitstream.md R168: the marker at the cursor. -/
theorem test_brEph : let t := next (exec .brEph { reader [0x80, 0xFF, 0x92] with brPos := 1 })
    t.result = 1 ∧ t.brPos = 3 ∧ t.warnEph = false := by decide

/-- 43_bitstream.md R169: `br.segcopy 0x10, 3, term`. -/
theorem test_brSegcopy :
    let t := next (exec (.brSegcopy 3 true 0x10) { reader [0x80, 0xDE, 0xAD, 0xBE, 0xEF] with brPos := 1 })
    (List.range 5).map (fun k => t.cbByte (0x10 + k)) = [0xDE, 0xAD, 0xBE, 0xFF, 0xFF] ∧ t.brPos = 4 ∧
      t.result = 0x15 := by decide

/-- 20_memory.md R55: a host write past the end is rejected. -/
theorem test_hostWrite_rejected : ((demo [] []).hostWrite .phmem 64 1).reply = some .rejected := by decide

/-- 30_encoding.md R80: the text of the example word. -/
theorem test_asmText : asmText (.brSegcopy 16 true 3) = "br.segcopy 3, 16, term" := by decide

/-! ### Host sequences -/

/-- 44_host_sequences.md R196: in bypass mode one pass each up to the tenth, then 2 and 1; the last segment is still open. -/
theorem test_segmentSplit : segmentSplit .bypass 5 9 0 = [⟨1, true⟩, ⟨2, true⟩, ⟨1, true⟩, ⟨1, false⟩] := by decide

/-- 44_host_sequences.md R200: cleanup alone on the first bitplane, then all three passes. -/
theorem test_passes : (List.range 5).map (fun p => (passType p, passBitplane 2 p)) =
    [(.cleanup, 1), (.significance, 0), (.refinement, 0), (.cleanup, 0), (.significance, -1)] := by decide

/-- 42_tag_tree.md R142: the trees over 3 x 2 and 1 x 1 leaves take 9 nodes and 1, so the ranges [0, 9) and [9, 10). -/
theorem test_treesDisjoint : TreesDisjoint [⟨0, 3, 2⟩, ⟨9, 1, 1⟩] ∧ ¬ TreesDisjoint [⟨0, 3, 2⟩, ⟨8, 1, 1⟩] := by decide

/-- 95_test_vectors.md S3, rows 3 and 5. -/
theorem test_nonzeroBits : nonzeroBits 8 1 0 9 = -1 ∧ nonzeroBits 8 1 3 10 = 1 := by decide

/-! ### Witnesses: states and operands that meet the hypotheses of each statement together -/

theorem witness_EncodeReadsBackDecode : decode 0x3701000300000010 = .ok (.brSegcopy 3 true 0x10) := by decide

/-- Both ends of each reserved range, and the opcodes beside them. -/
theorem witness_ReservedOpcodesFault : (demo [] []).cause = .none ∧
    (∀ opc ∈ [0x04, 0x0F, 0x14, 0x1F, 0x22, 0x2F, 0x38, 0xFF], reservedOpcode opc = true) ∧
    ∀ opc ∈ [0x03, 0x10, 0x13, 0x20, 0x21, 0x30, 0x37], reservedOpcode opc = false := by decide

/-- A zero check and a value check that fail. -/
theorem witness_MalformedWordsFault :
    (reservedOpcode (opcField 0x0000000000000001) = false ∧
      ∀ i, decode 0x0000000000000001 = .ok i → i.wellFormed (demo [] []).cfg = false) ∧
    reservedOpcode (opcField 0x1200001300000000) = false ∧
      ∀ i, decode 0x1200001300000000 = .ok i → i.wellFormed (demo [] []).cfg = false := by
  refine ⟨⟨by decide, fun i h => ?_⟩, by decide, fun i h => ?_⟩
  · rw [show decode 0x0000000000000001 = .error .reservedBits by decide] at h; cases h
  · rw [show decode 0x1200001300000000 = .ok (.mqDecode 19) by decide] at h; cases h; decide

theorem witness_StepRunsCommand : ((demo [] []).present 0).port = .command 0 :: [] ∧ decode 0 = .ok .nop ∧
    exec .nop { (demo [] []).present 0 with port := [] } = .next (demo [] []) := ⟨rfl, by decide, rfl⟩

theorem witness_EveryWordGetsOneResponse : ((demo [] []).present 0x01).port = .command 0x01 :: [] := by decide

/-- The last byte of a memory, and the first address past it. -/
theorem witness_HostPortReadsAndWrites :
    (demo [1] [2]).phmem.wf (demo [1] [2]).cfg.phmemSize.toNat ∧ (demo [1] [2]).cbmem.wf (demo [1] [2]).cfg.cbmemSize.toNat ∧
    { demo [1] [2] with port := [.hostWrite .phmem 63 5] }.port = .hostWrite .phmem 63 5 :: [] ∧
    { demo [1] [2] with port := [.hostRead .cbmem 63] }.port = .hostRead .cbmem 63 :: [] ∧
    (63 : Word).toNat < (demo [1] [2]).sizeOf .phmem ∧ (63 : Word).toNat < (demo [1] [2]).sizeOf .cbmem ∧
    (demo [1] [2]).sizeOf .phmem ≤ (64 : Word).toNat := by decide

theorem witness_OnlySegcopyWritesMemory : exec .nop (demo [1] [2]) = .next (demo [1] [2]) := rfl

theorem witness_CanonicalMemoryIsItsBytes : Memory.wf 64 [(0, 1), (63, 2)] ∧
    ∀ a, Memory.read [(0, 1), (63, 2)] a = Memory.read [(0, 1), (63, 2)] a := ⟨by decide, fun _ => rfl⟩

/-- A faulted block and a word that is neither a `RESET` nor a well-formed `REGREAD`. -/
theorem witness_FaultedBlockRefuses :
    ({ demo [] [] with cause := .mqRange } |>.present 0).port = .command 0 :: [] ∧
    { demo [] [] with cause := .mqRange }.cause ≠ .none ∧ 0 ≠ encode .reset ∧
    ∀ reg, registerDefined reg = true → 0 ≠ encode (.regread reg) := by decide

/-- A faulted block that stays so, and one that a `RESET` word brings back. -/
theorem witness_OnlyResetLeavesFault :
    (∃ t, step ({ demo [] [] with cause := .mqRange } |>.present 0) = .next t ∧ t.cause = .mqRange) ∧
    (∃ t, step ({ demo [] [] with cause := .mqRange } |>.present 0x0100000000000000) = .next t ∧ t.cause = .none) ∧
    { demo [] [] with cause := .mqRange }.cause ≠ .none := ⟨⟨_, rfl, rfl⟩, ⟨_, rfl, rfl⟩, by decide⟩

/-- A listed cause, a reserved opcode, a warning set, warnings cleared, a refusal. -/
theorem witness_CausesByCommand :
    (∃ t, executeWord 0x3200002100000000 (demo [] []) = .next t ∧ t.cause = .illegalField) ∧
    (∃ t, executeWord 0x0400000000000000 (demo [] []) = .next t ∧ t.cause = .illegalOpcode) ∧
    (∃ t, executeWord 0x3600000000000000 (reader []) = .next t ∧ t.warnEph = true) ∧
    (∃ t, executeWord 0x1300000000000002 (segment [] 0x8000 0 1) = .next t ∧ t.warnBp = true) ∧
    (∃ t, executeWord 0x0300000000000000 { demo [] [] with warnEph := true, warnBp := true } = .next t ∧
      t.warnEph = false ∧ t.warnBp = false) ∧
    ∃ t, executeWord 0x3300000000000000 { demo [] [] with cause := .mqRange } = .next t ∧
      t = { demo [] [] with cause := .mqRange } :=
  ⟨⟨_, rfl, rfl⟩, ⟨_, rfl, rfl⟩, ⟨_, rfl, rfl⟩, ⟨_, rfl, rfl⟩, ⟨_, rfl, rfl, rfl⟩, ⟨_, rfl, rfl⟩⟩

theorem witness_PreCheckFaultsChangeStatusOnly : (demo [] []).cause = .none ∧
    ∃ t, executeWord 0x0400000000000000 (demo [] []) = .next t ∧ t.cause ∈ preCheckCauses := ⟨rfl, _, rfl, by decide⟩

/-- BR_EXHAUSTED in a field read, in `BR_FLUSH` and in `TT_DECODE`. -/
theorem witness_ExhaustedLeavesOpenOnly :
    (reader []).cause = .none ∧ (reader []).nodes.wf (reader []).cfg.ttNodes.toNat ∧
    (∃ t, exec (.brGetbits 1) (reader []) = .next t ∧ t.cause = .brExhausted) ∧
    (∃ t, exec .brFlush (reader []) = .next t ∧ t.cause = .brExhausted) ∧
    (newPair []).cause = .none ∧ (newPair []).nodes.wf (newPair []).cfg.ttNodes.toNat ∧
    ∃ t, exec (.ttDecode 0 1) (newPair []) = .next t ∧ t.cause = .brExhausted :=
  ⟨rfl, by decide, ⟨_, rfl, rfl⟩, ⟨_, rfl, rfl⟩, rfl, by decide, _, rfl, rfl⟩

/-- MQ_RANGE in `MQ_INITDEC` and in `MQ_DECODE`. -/
theorem witness_RangeFaultLeavesOpenOnly :
    (demo [] []).cause = .none ∧ (∃ t, exec (.mqInitdec false true 63) (demo [] []) = .next t ∧ t.cause = .mqRange) ∧
    (segment [] 0x8000 0 63).cause = .none ∧
      ∃ t, exec (.mqDecode 18) { segment [] 0x8000 0 63 with raw := true } = .next t ∧ t.cause = .mqRange :=
  ⟨rfl, ⟨_, rfl, rfl⟩, rfl, _, rfl, rfl⟩

/-- Units not initialized, with operands at the ends of their ranges, and a cursor off a byte boundary. -/
theorem witness_UninitializedUnitsFault :
    (demo [] []).cause = .none ∧ (demo [] []).mqinit = false ∧ (demo [] []).brinit = false ∧ (18 : BitVec 5).toNat ≤ 18 ∧
    (32 : BitVec 6).toNat ≤ 32 ∧ { reader [1] with brBitidx := 7 }.cause = .none ∧
    { reader [1] with brBitidx := 7 }.brBitidx ≠ 8 := by decide

/-- The invariant holds of a block at power-on with parameters in range. -/
theorem inv_demo : (demo [1] [2]).Inv where
  config := by decide
  contexts := by decide
  bitidx := by decide
  window := by decide
  interval := by decide
  parents := fun n p h => by cases h
  phmem := by decide
  cbmem := by decide
  nodes := by decide

theorem witness_StepKeepsInvariant : (demo [1] [2]).Inv ∧
    ∃ t, step ((demo [1] [2])) = .next t := ⟨inv_demo, _, rfl⟩

theorem witness_PowerOnHasInvariant :
    Config.Valid demoCfg ∧ Memory.wf demoCfg.phmemSize.toNat [(63, 1)] ∧ Memory.wf demoCfg.cbmemSize.toNat [(0, 2)] := by
  decide

theorem witness_NopChangesNothing : (demo [] []).cause = .none := rfl

theorem witness_ClrwarnClearsWarnings : { demo [] [] with warnBp := true }.cause = .none := rfl

/-- Both ends of each range of numbers that no register has. -/
theorem witness_RegreadFollowsRegisterMap :
    ∀ reg ∈ ([0x06, 0x07, 0x0C, 0x0F, 0x23, 0x2F, 0x34, 0xFF] : List (BitVec 8)),
      reg = 0x06 ∨ reg = 0x07 ∨ (0x0C ≤ reg ∧ reg ≤ 0x0F) ∨ (0x23 ≤ reg ∧ reg ≤ 0x2F) ∨ 0x34 ≤ reg := by decide

theorem witness_ContextTransitions : (0 : BitVec 7).toNat ≤ 93 ∧ (93 : BitVec 7).toNat ≤ 93 := by decide

theorem witness_InitialContextsLoaded : (demo [] []).cause = .none ∧
    (∃ t, exec (.mqInitdec false true 0) (demo [] [0x12, 0x34]) = .next t ∧ t.cause = .none) ∧
    ∃ t, exec .reset (demo [] []) = .next t := ⟨rfl, ⟨_, rfl, rfl⟩, _, rfl⟩

/-- The last pointer with a byte after it inside CBMEM, and the next. -/
theorem witness_ByteInFollowsEscapes :
    (62 : Word).toNat + 1 < (demo [] []).cfg.cbmemSize.toNat ∧ (demo [] []).cfg.cbmemSize.toNat ≤ (63 : Word).toNat + 1 := by
  decide

theorem witness_InitdecStartsSegment : (demo [] []).cause = .none ∧
    (62 : Word).toNat + 1 < (demo [] []).cfg.cbmemSize.toNat ∧ (demo [] []).cfg.cbmemSize.toNat ≤ (63 : Word).toNat + 1 := by
  decide

/-- MQ-2, rows 2 and 4, and MQ-1, decision 2: no renormalization (at the last byte of CBMEM too), the MPS side with one, and
the LPS side. A spent counter at the last byte of CBMEM runs out; two bytes after the pointer are enough. -/
theorem witness_MqDecodeArithmetic :
    (∀ s ∈ [(segment [0x0E, 0x98, 0xFF, 0xFF] 0xF5BE 0xF1670100 1).setCx 0 10,
        (segment [0x0E, 0x98, 0xFF, 0xFF] 0x8000 0x78B38080 1).setCx 0 8,
        (segment [0x0E, 0x98, 0xFF, 0xFF] 0xF17C 0xF1670100 1).setCx 0 10,
        (segment [] 0xF5BE 0x01670100 63).setCx 0 10],
      s.cause = .none ∧ s.mqinit = true ∧ s.raw = false ∧ (0 : BitVec 5).toNat = (0 : Fin 19).val ∧
      0x8000 ≤ s.mqA.toNat ∧ (s.cx.get 0).toNat ≤ 93) ∧
    ((segment [] 0x8000 0x80 61).mqBp.toNat + 2 < (segment [] 0x8000 0x80 61).cfg.cbmemSize.toNat ∧
      ¬ (segment [] 0x8000 0x80 61).RunsOut 1 0x80 61) ∧
    (segment [] 0x8000 0x100 63).RunsOut 1 0x100 63 :=
  ⟨by decide, ⟨by decide, State.not_runsOut _ 1 0x4000 _ _ (by decide) (by decide) (by decide) (by decide) (by decide)⟩,
    .inl ⟨by decide, by decide⟩⟩

/-- A counter that lasts, at the last byte of CBMEM, a spent one with a byte to read, and one without. -/
theorem witness_MqDecodeRaw :
    (∀ s ∈ [{ segment [] 0x8000 0x80 63 with raw := true }, { segment [] 0x8000 0x100 62 with raw := true }],
      s.cause = .none ∧ s.mqinit = true ∧ s.raw = true ∧ (18 : BitVec 5).toNat ≤ 18 ∧
      ¬ s.InputMissing s.mqC s.mqBp) ∧
    { segment [] 0x8000 0x100 63 with raw := true }.InputMissing 0x100 63 := by
  unfold State.InputMissing; decide

theorem witness_CheckbpWarnsOnMismatch : (segment [] 0x8000 0 1).cause = .none ∧ (segment [] 0x8000 0 1).mqinit = true ∧
    (demo [] []).cause = .none ∧ (demo [] []).mqinit = false := by decide

/-- The invariant holds of a block that decodes. -/
theorem inv_segment : (segment [0x0E, 0x98, 0xFF, 0xFF] 0xF5BE 0xF1670100 1).Inv where
  config := by decide
  contexts := by decide
  bitidx := by decide
  window := by decide
  interval := by decide
  parents := fun n p h => by cases h
  phmem := by decide
  cbmem := by decide
  nodes := by decide

theorem witness_MqDecodeBounds : (segment [0x0E, 0x98, 0xFF, 0xFF] 0xF5BE 0xF1670100 1).Inv ∧
    (segment [0x0E, 0x98, 0xFF, 0xFF] 0xF5BE 0xF1670100 1).cause = .none ∧
    ∃ t, exec (.mqDecode 0) (segment [0x0E, 0x98, 0xFF, 0xFF] 0xF5BE 0xF1670100 1) = .next t ∧ t.cause = .none :=
  ⟨inv_segment, rfl, _, rfl, rfl⟩

/-- The lowest byte that makes a marker, and the highest. -/
theorem witness_MarkerHoldsPointer : ∀ b ∈ [0x90, 0xFF],
    let s := segment [0xFF, b] 0x8000 0x80 0
    s.cause = .none ∧ s.mqinit = true ∧ (18 : BitVec 5).toNat ≤ 18 ∧ s.mqBp.toNat + 1 < s.cfg.cbmemSize.toNat ∧
    s.cbByte s.mqBp.toNat = 0xFF ∧ 0x8F < (s.cbByte (s.mqBp.toNat + 1)).toNat := by decide

/-- A segment of one byte and an empty one, and decisions in the first and the last context. -/
theorem witness_TerminatedSegmentReadBound :
    (demo [] [0xBF, 0xFF, 0xFF]).cause = .none ∧ (demo [] [0xBF, 0xFF, 0xFF]).Terminated (0 : Word).toNat 1 ∧
    (demo [] [0xFF, 0xFF]).Terminated (0 : Word).toNat 0 ∧ ∀ cxi ∈ ([0, 18] : List (BitVec 5)), cxi.toNat ≤ 18 := by
  unfold State.Terminated; decide

/-- 42_tag_tree.md R142: a 2 x 1 tree has 3 nodes. -/
theorem count_pair : treeCount 2 1 = 3 := by decide

/-- A tree that fits exactly, one node more, and a side 0. -/
theorem witness_TtInitBuildsTree : (demo [] []).cause = .none ∧ (2 : Half) ≠ 0 ∧ (1 : Half) ≠ 0 ∧
    (61 : BitVec 24).toNat + treeCount (2 : Half).toNat (1 : Half).toNat ≤ (demo [] []).cfg.ttNodes.toNat ∧
    (demo [] []).cfg.ttNodes.toNat < (62 : BitVec 24).toNat + treeCount (2 : Half).toNat (1 : Half).toNat ∧
    (0 : Half) = 0 := by
  have := count_pair
  refine ⟨rfl, by decide, by decide, ?_, ?_, rfl⟩
  · show 61 + treeCount 2 1 ≤ 64; omega
  · show 64 < 62 + treeCount 2 1; omega

/-- The walk from a leaf of the tree over two leaves to its root. -/
theorem walk_newPair (ph : List Byte) : (newPair ph).IsWalk (some 0) [0, 2] none :=
  ⟨rfl, rfl, rfl, rfl, rfl, by simp⟩

theorem witness_NewTreeWalksAreShort : (reader []).cause = .none ∧
    exec (.ttInit 0 2 1) (reader []) = .next { newPair [] with result := 3 } ∧
    { newPair [] with result := 3 }.cause = .none ∧ (0 : BitVec 24).toNat ≤ 0 ∧
    0 < (0 : BitVec 24).toNat + treeCount (2 : Half).toNat (1 : Half).toNat ∧
    { newPair [] with result := 3 }.IsWalk (some 0) [0, 2] none := by
  refine ⟨rfl, rfl, rfl, Nat.le_refl _, ?_, ⟨rfl, rfl, rfl, rfl, rfl, by simp⟩⟩
  have := count_pair
  show 0 < 0 + treeCount 2 1; omega

/-- The byte 5F: the root's code 0 1, then the leaf's code 0 1 under the threshold 5; the root has value 1, the leaf 2. -/
theorem witness_TtDecodeFollowsDescent : (newPair [0x5F]).cause = .none ∧ (newPair [0x5F]).brinit = true ∧
    (newPair [0x5F]).nodes.wf (newPair [0x5F]).cfg.ttNodes.toNat ∧
    (0 : BitVec 24).toNat < (newPair [0x5F]).cfg.ttNodes.toNat ∧
    ((newPair [0x5F]).node (0 : BitVec 24).toNat).valid = true ∧
    (newPair [0x5F]).IsWalk (some (0 : BitVec 24).toNat) [0, 2] none ∧ [0, 2].length ≤ (newPair [0x5F]).cfg.ttStack ∧
    tagDescent (5 : Word).toNat ([0, 2].reverse.map fun m => ((newPair [0x5F]).node m).val.toNat)
      ((newPair [0x5F]).walkStart [0, 2] none).toNat (newPair [0x5F]).headerBits =
      some ([(1, true), (2, true)], 2, [true, true, true, true]) :=
  ⟨rfl, rfl, by decide, by decide, rfl, walk_newPair _, by decide, by decide⟩

/-- A node past the file, a node not built, a walk longer than the stack, and no header bit. -/
theorem witness_TtDecodeFaults :
    (newPair []).cause = .none ∧ (newPair []).brinit = true ∧ (newPair []).nodes.wf (newPair []).cfg.ttNodes.toNat ∧
    ¬ ((64 : BitVec 24).toNat < (newPair []).cfg.ttNodes.toNat ∧ ((newPair []).node (64 : BitVec 24).toNat).valid = true) ∧
    ¬ ((3 : BitVec 24).toNat < (newPair []).cfg.ttNodes.toNat ∧ ((newPair []).node (3 : BitVec 24).toNat).valid = true) ∧
    { newPair [] with cfg := ⟨64, 64, 3, 1⟩ }.IsWalk (some 0) [0, 2] none ∧
    { newPair [] with cfg := ⟨64, 64, 3, 1⟩ }.cfg.ttStack < [0, 2].length ∧
    (newPair []).IsWalk (some 0) [0, 2] none ∧ [0, 2].length ≤ (newPair []).cfg.ttStack ∧
    tagDescent (1 : Word).toNat ([0, 2].reverse.map fun m => ((newPair []).node m).val.toNat)
      ((newPair []).walkStart [0, 2] none).toNat (newPair []).headerBits = none :=
  ⟨rfl, rfl, by decide, by decide, by decide, ⟨rfl, rfl, rfl, rfl, rfl, by simp⟩, by decide, walk_newPair _, by decide,
    by decide⟩

/-- The walk to the visited root, which is known to be 3 where the leaf is known to be at least 5, and to a root not yet
visited. -/
theorem witness_TtZeroThresholdReturnsStart : (pair 3 5 []).cause = .none ∧ (pair 3 5 []).brinit = true ∧
    (0 : BitVec 24).toNat < (pair 3 5 []).cfg.ttNodes.toNat ∧ ((pair 3 5 []).node (0 : BitVec 24).toNat).valid = true ∧
    (pair 3 5 []).IsWalk (some (0 : BitVec 24).toNat) [0] (some 2) ∧ [0].length ≤ (pair 3 5 []).cfg.ttStack ∧
    (newPair []).IsWalk (some 0) [0, 2] none :=
  ⟨rfl, rfl, by decide, rfl, ⟨rfl, rfl, rfl, fun _ h => by cases h; rfl⟩, by decide, walk_newPair _⟩

theorem witness_TtResultBelowThresholdIsExact : (newPair [0x5F]).cause = .none ∧
    (newPair [0x5F]).nodes.wf (newPair [0x5F]).cfg.ttNodes.toNat ∧
    ∃ t, exec (.ttDecode 0 5) (newPair [0x5F]) = .next t ∧ t.cause = .none ∧ t.result.toNat < (5 : Word).toNat :=
  ⟨rfl, by decide, _, rfl, rfl, by decide⟩

theorem pair_node (v x : Word) (ph : List Byte) (n : Nat) :
    (pair v x ph).node n = if n = 0 then ⟨true, x, false, some 2⟩ else if n = 1 then ⟨true, 0, false, some 2⟩
      else if n = 2 then ⟨true, v, true, none⟩ else TagNode.atReset := rfl

theorem order_pair : (pair 3 5 []).ReadOrder := by
  intro n p _ h
  obtain rfl : p = 2 := by
    rw [pair_node] at h
    split at h
    · exact (Option.some.inj h).symm
    · split at h
      · exact (Option.some.inj h).symm
      · split at h <;> cases h
  rfl

/-- The invariant holds of a tree whose root is known to be 3 and whose leaf 0 is known to be at least 5. -/
theorem inv_pair : (pair 3 5 []).Inv where
  config := by decide
  contexts := by decide
  bitidx := by decide
  window := by decide
  interval := by decide
  parents := by
    intro n p _ h
    rw [pair_node] at h
    split at h
    · cases Option.some.inj h; subst n; decide
    · split at h
      · cases Option.some.inj h; subst n; decide
      · split at h <;> cases h
  phmem := by decide
  cbmem := by decide
  nodes := by decide

theorem witness_TtSatisfiedThresholdReturnsNodeValue : (pair 3 5 []).Inv ∧
    (pair 3 5 []).ReadOrder ∧
    (pair 3 5 []).cause = .none ∧
    ∃ t, exec (.ttDecode 0 2) (pair 3 5 []) = .next t ∧ t.cause = .none ∧
      (2 : Word).toNat ≤ ((pair 3 5 []).node (0 : BitVec 24).toNat).val.toNat :=
  ⟨inv_pair, order_pair, rfl, _, rfl, rfl, by decide⟩

/-- A threshold just above the parent's value, and one the parent's value has reached; the root, visited. -/
theorem witness_TtSatisfiedThresholdReadsNoBit : (pair 3 5 []).nodes.wf (pair 3 5 []).cfg.ttNodes.toNat ∧
    (pair 3 5 []).ReadOrder ∧ (pair 3 5 []).cause = .none ∧
    (∀ thr ∈ ([3, 4] : List Word), (∃ t, exec (.ttDecode 0 thr) (pair 3 5 []) = .next t ∧ t.cause = .none) ∧
      thr.toNat ≤ ((pair 3 5 []).node (0 : BitVec 24).toNat).val.toNat) ∧
    ((pair 3 5 []).node 0).vis = false ∧ ((pair 3 5 []).node 0).parent = some 2 ∧ ((pair 3 5 []).node 0).val ≠ 0 ∧
    (∃ t, exec (.ttDecode 2 3) (pair 3 5 []) = .next t ∧ t.cause = .none) ∧ ((pair 3 5 []).node 2).vis = true := by
  refine ⟨by decide, order_pair, rfl, fun thr h => ?_, rfl, rfl, by decide, ⟨_, rfl, rfl⟩, rfl⟩
  simp only [List.mem_cons, List.not_mem_nil, or_false] at h
  rcases h with rfl | rfl
  · exact ⟨⟨_, rfl, rfl⟩, by decide⟩
  · exact ⟨⟨_, rfl, rfl⟩, by decide⟩

/-- The tree was read with no threshold above 4. -/
theorem within_pair : (pair 3 5 []).ReadWithin (fun _ => 4) := by
  intro n p hv h
  have hp := order_pair n p hv h
  refine ⟨hp, fun _ => ?_⟩
  rw [pair_node] at hp ⊢
  split at hp
  · cases hp
  · split at hp
    · cases hp
    · split at hp
      · next h0 h1 h2 => simp [h2]
      · cases hp

theorem bounds_pair : (pair 3 5 []).BoundsRise (fun _ => 4) := fun _ _ _ => Nat.le_refl _

/-- The threshold at the bound, one above it, and the node's value itself. -/
theorem witness_TtSatisfiedThresholdInOrder : (pair 3 5 []).cause = .none ∧ (pair 3 5 []).brinit = true ∧
    (pair 3 5 []).nodes.wf (pair 3 5 []).cfg.ttNodes.toNat ∧ 0 < (pair 3 5 []).cfg.ttStack ∧
    (0 : BitVec 24).toNat < (pair 3 5 []).cfg.ttNodes.toNat ∧ ((pair 3 5 []).node (0 : BitVec 24).toNat).valid = true ∧
    (pair 3 5 []).ReadWithin (fun _ => 4) ∧
    ∀ thr ∈ ([4, 5] : List Word), (fun _ => 4) (0 : BitVec 24).toNat ≤ thr.toNat ∧ 0 < thr.toNat ∧
      thr.toNat ≤ ((pair 3 5 []).node (0 : BitVec 24).toNat).val.toNat := by
  refine ⟨rfl, rfl, by decide, by decide, by decide, rfl, within_pair, fun thr h => ?_⟩
  simp only [List.mem_cons, List.not_mem_nil, or_false] at h
  rcases h with rfl | rfl <;> exact ⟨by decide, by decide, by decide⟩

/-- A decode of the tree, and a new tree beside it, from node 3 on. -/
theorem witness_ReadOrderIsKept : (pair 3 5 []).nodes.wf (pair 3 5 []).cfg.ttNodes.toNat ∧ (pair 3 5 []).ReadOrder ∧
    (∃ t, exec (.ttDecode 0 5) (pair 3 5 []) = .next t ∧ t.cause ≠ .brExhausted) ∧
    (∃ t, exec (.ttInit 3 1 1) (pair 3 5 []) = .next t ∧ t.cause ≠ .brExhausted) ∧
    ∀ n p, ((pair 3 5 []).node n).parent = some p → p < 3 := by
  refine ⟨by decide, order_pair, ⟨_, rfl, by decide⟩, ⟨_, rfl, by decide⟩, fun n p h => ?_⟩
  rw [pair_node] at h
  split at h
  · cases h; decide
  · split at h
    · cases h; decide
    · split at h <;> cases h

/-- A decode at the bound, and a new tree beside the old one. -/
theorem witness_ReadWithinIsKept : (pair 3 5 []).nodes.wf (pair 3 5 []).cfg.ttNodes.toNat ∧
    (pair 3 5 []).ReadWithin (fun _ => 4) ∧ (pair 3 5 []).BoundsRise (fun _ => 4) ∧
    (∃ t, exec (.ttDecode 0 4) (pair 3 5 []) = .next t ∧ t.cause ≠ .brExhausted) ∧
    (4 : Word).toNat ≤ (fun _ => 4) (0 : BitVec 24).toNat ∧
    (∃ t, exec (.ttInit 3 1 1) (pair 3 5 []) = .next t ∧ t.cause ≠ .brExhausted) ∧
    ∀ n p, ((pair 3 5 []).node n).parent = some p → p < 3 :=
  ⟨by decide, within_pair, bounds_pair, ⟨_, rfl, by decide⟩, by decide, witness_ReadOrderIsKept.2.2.2⟩

/-- A decode that raises the values of both nodes of its walk. -/
theorem witness_NodeValuesOnlyRise : (newPair [0x5F]).nodes.wf (newPair [0x5F]).cfg.ttNodes.toNat ∧
    (Instr.ttDecode 0 5).resetsNodes = false ∧
    ∃ t, exec (.ttDecode 0 5) (newPair [0x5F]) = .next t ∧ t.cause ≠ .brExhausted := ⟨by decide, rfl, _, rfl, by decide⟩

/-- The other leaf decoded in between. -/
theorem witness_TtResultsAreMonotone : (newPair [0x5F]).nodes.wf (newPair [0x5F]).cfg.ttNodes.toNat ∧
    (newPair [0x5F]).cause = .none ∧ (1 : Word).toNat ≤ (5 : Word).toNat ∧
    (∀ i ∈ [Instr.ttDecode 1 2, .brGetbits 1], i.resetsNodes = false) ∧
    ∃ t, exec (.ttDecode 0 1) (newPair [0x5F]) = .next t ∧ t.cause = .none ∧
      ∃ u, State.afterAll [.ttDecode 1 2, .brGetbits 1] t = some u ∧
        ∃ v, exec (.ttDecode 0 5) u = .next v ∧ v.cause = .none :=
  ⟨by decide, rfl, by decide, by decide, _, rfl, rfl, _, rfl, _, rfl, rfl⟩

/-- `END` at the size of PHMEM. -/
theorem witness_SetendSetsWindow : (demo [] []).cause = .none ∧ (64 : Word).toNat ≤ (demo [] []).cfg.phmemSize.toNat ∧
    ¬ (65 : Word).toNat ≤ (demo [] []).cfg.phmemSize.toNat := by decide

theorem witness_StartPlacesCursor : (demo [] []).cause = .none := rfl

/-- As many bits as are left, and one more. -/
theorem witness_GetbitsReadsField : (reader [0xFF, 0x7F]).cause = .none ∧ (reader [0xFF, 0x7F]).brinit = true ∧
    (15 : BitVec 6).toNat ≤ 32 ∧ (15 : BitVec 6).toNat ≤ (reader [0xFF, 0x7F]).headerBits.length ∧
    (reader [0xFF, 0x7F]).headerBits.length < (16 : BitVec 6).toNat := by decide

/-- A byte that is no 0xFF, last of the window; a 0xFF with one byte after it; a 0xFF last of the window; none. -/
theorem witness_FlushRealigns :
    (∀ s ∈ [reader [0x80], reader [0xFF, 0x00], reader [0xFF], reader []], s.cause = .none ∧ s.brinit = true) ∧
    ((reader [0x80]).brPos.toNat < (reader [0x80]).brEnd.toNat ∧ ¬ (reader [0x80]).phByte 0 = 0xFF) ∧
    ((reader [0xFF, 0x00]).brPos.toNat + 1 < (reader [0xFF, 0x00]).brEnd.toNat ∧ (reader [0xFF, 0x00]).phByte 0 = 0xFF) ∧
    ((reader [0xFF]).phByte 0 = 0xFF ∧ (reader [0xFF]).brEnd.toNat ≤ (reader [0xFF]).brPos.toNat + 1) ∧
    (reader []).brEnd.toNat ≤ (reader []).brPos.toNat := by decide

/-- The shortest and the longest code, and bits that begin no code. -/
theorem witness_NpassesReadsCode :
    (reader [0x00]).cause = .none ∧ (reader [0x00]).brinit = true ∧
    (reader [0x00]).headerBits = passesCode 1 ++ List.replicate 7 false ∧
    (reader [0xFF, 0x7F, 0x80]).headerBits = passesCode 164 ++ List.replicate 7 false ∧
    ∀ p rest, 1 ≤ p → p ≤ 164 → (reader []).headerBits ≠ passesCode p ++ rest := by
  refine ⟨rfl, rfl, by decide, by decide, fun p rest _ _ h => ?_⟩
  have : passesCode p = [] := (List.append_eq_nil_iff.1 h.symm).1
  unfold passesCode at this
  split at this
  · cases this
  · split at this
    · cases this
    · split at this
      · cases this
      · split at this <;> cases this

/-- No 1 bit before the 0, fifteen, and no 0. -/
theorem witness_LblkincCountsOnes : (reader [0x00]).cause = .none ∧ (reader [0x00]).brinit = true ∧
    (reader [0x00]).headerBits = List.replicate 0 true ++ false :: List.replicate 7 false ∧
    (reader [0xFF, 0x7F, 0x00]).headerBits = List.replicate 15 true ++ false :: List.replicate 7 false ∧
    false ∉ (reader [0xFF, 0x7F]).headerBits := by decide

theorem witness_EphSkipsMarkerOrWarns :
    ∀ s ∈ [reader [0xFF, 0x92], reader [0xFF], reader [0xFF, 0x93]],
      s.cause = .none ∧ s.brinit = true ∧ s.brBitidx = 8 := by decide

/-- A copy that reaches the ends of the window and of CBMEM, one that overruns, one that does not fit. -/
theorem witness_SegcopyCopiesBytes : let s := reader [1, 2, 3]
    s.cause = .none ∧ s.brinit = true ∧ s.brBitidx = 8 ∧ s.cbmem.wf s.cfg.cbmemSize.toNat ∧
    (s.brPos.toNat + (3 : Half).toNat ≤ s.brEnd.toNat ∧
      (59 : Word).toNat + (3 : Half).toNat + (if true then 2 else 0) ≤ s.cfg.cbmemSize.toNat) ∧
    s.brEnd.toNat < s.brPos.toNat + (4 : Half).toNat ∧
    s.cfg.cbmemSize.toNat < (60 : Word).toNat + (3 : Half).toNat + if true then 2 else 0 := by decide

/-- The cursor on the 0xFF, and on the byte after it with 7 bits left; a completed read, and one that faults. -/
theorem witness_StuffedBitIsNotExamined :
    (∀ s ∈ [reader [0xFF, 0x00, 0xA5], { reader [0xFF, 0x00, 0xA5] with brPos := 1, brBitidx := 7 }],
      s.phmem.wf s.cfg.phmemSize.toNat ∧ 0 < 1 ∧ s.phByte (1 - 1) = 0xFF ∧ s.phByte 1 &&& 0x7F ≠ 0x7F ∧
      (s.brPos.toNat = 1 → s.brBitidx.toNat ≤ 7)) ∧
    (Instr.brGetbits 15).readsHeader = true ∧
    (∃ t, exec (.brGetbits 15) (reader [0xFF, 0x00, 0xA5]) = .next t ∧ t.cause = .none) ∧
    ∃ t, exec (.brGetbits 32) (reader [0xFF, 0x00, 0xA5]) = .next t ∧ t.cause = .brExhausted :=
  ⟨by decide, rfl, ⟨_, rfl, rfl⟩, _, rfl, rfl⟩

theorem witness_UnitsShareNoOtherState : (Instr.mqCheckbp 0).inMq = true ∧ (Instr.brStart 3).inTtBr = true ∧
    (∃ t, exec (.mqCheckbp 0) (segment [] 0x8000 0 1) = .next t ∧ t.draws = 0) ∧
    ∃ t, exec (.brStart 3) (demo [] []) = .next t ∧ t.draws = 0 :=
  ⟨rfl, rfl, ⟨_, rfl, rfl⟩, _, rfl, rfl⟩

end Sys2Proof.Tests
end

section
/-! The units share no other state (00_scope.md R2, 70_reset_and_hazards.md R254).

A change of the registers of one unit, `State.withTtBrOf u` or `State.withMqOf u`, commutes with every command of the other.
Both halves of the statement follow: what the command leaves alone is the case `u = s`, and the independence is the case of
any `u`. The refusal and the checks a command begins with (30_encoding.md R78) are dealt with once, for any such change, so
that only the data parts of the commands are left to each unit. -/

namespace Sys2Proof.Machine

/-! ### Checks under a change of registers -/

/-- A change of the state that leaves `CAUSE` alone and commutes with fault entry. -/
structure IgnoresCause (f : State → State) : Prop where
  cause_eq : ∀ s, (f s).cause = s.cause
  raise : ∀ s c, (f s).raise c = f (s.raise c)

theorem ignoresCause_withTtBrOf (u : State) : IgnoresCause (·.withTtBrOf u) :=
  ⟨fun _ => rfl, fun s c => by by_cases h : s.cause = .none <;> simp [State.raise, State.withTtBrOf, h]⟩

theorem ignoresCause_withMqOf (u : State) : IgnoresCause (·.withMqOf u) :=
  ⟨fun _ => rfl, fun s c => by by_cases h : s.cause = .none <;> simp [State.raise, State.withMqOf, h]⟩

/-- A command that does the same before and after the change `f` of the state. -/
def CommutesWith (f : State → State) (run : State → Host.Outcome State Fault Refusal) : Prop :=
  ∀ s t, run s = .next t → run (f s) = .next (f t)

section
variable {f : State → State} (hf : IgnoresCause f) {s t t' : State} {ok ok' : Bool}
include hf

/-- A value check that the change does not touch. -/
theorem IgnoresCause.requireField (hok : ok' = ok) (ht : t' = f t) :
    (f s).requireField ok' t' = f (s.requireField ok t) := by
  subst hok ht
  rcases s.requireField_cases t ok' with ⟨h, e⟩ | ⟨h, e⟩
  · rw [e, (f s).requireField_true _ _ h]
  · rw [e, (f s).requireField_false _ _ h, hf.raise]

/-- A state check that the change does not touch. -/
theorem IgnoresCause.requireState (hok : ok' = ok) (ht : t' = f t) :
    (f s).requireState ok' t' = f (s.requireState ok t) := by
  subst hok ht
  rcases s.requireState_cases t ok' with ⟨h, e⟩ | ⟨h, e⟩
  · rw [e, (f s).requireState_true _ _ h]
  · rw [e, (f s).requireState_false _ _ h, hf.raise]

/-- A check on data, with its own fault, that the change does not touch. -/
theorem IgnoresCause.requireData {p : Prop} {_ : Decidable p} {c : Cause} (ht : t' = f t) :
    (if p then t' else (f s).raise c) = f (if p then t else s.raise c) := by
  subst ht
  by_cases h : p
  · rw [if_pos h, if_pos h]
  · rw [if_neg h, if_neg h, hf.raise]

/-- A command commutes with the change where what it does in an unfaulted block does. -/
theorem IgnoresCause.unlessFaulted {data : State → State} (hd : ∀ s, data (f s) = f (data s)) :
    CommutesWith f fun s => .next (s.unlessFaulted (data s)) := by
  intro s t h
  cases h
  refine congrArg Host.Outcome.next ?_
  by_cases hc : s.cause = .none
  · rw [s.unlessFaulted_of_none _ hc, (f s).unlessFaulted_of_none _ ((hf.cause_eq s).trans hc), hd]
  · rw [s.unlessFaulted_of_ne _ hc, (f s).unlessFaulted_of_ne _ (by rwa [hf.cause_eq])]

end

/-! ### The MQ unit reads no register of the TT and BR units -/

section
variable (s u : State)

@[simp] theorem State.withTtBrOf_self : s.withTtBrOf s = s := rfl

@[simp] theorem State.withTtBrOf_raw : (s.withTtBrOf u).raw = s.raw := rfl
@[simp] theorem State.withTtBrOf_cx : (s.withTtBrOf u).cx = s.cx := rfl
@[simp] theorem State.withTtBrOf_mqBp : (s.withTtBrOf u).mqBp = s.mqBp := rfl

@[simp] theorem State.mqRegs_withTtBrOf : (s.withTtBrOf u).mqRegs = s.mqRegs := rfl
@[simp] theorem State.byteIn_withTtBrOf (c bp : Word) : (s.withTtBrOf u).byteIn c bp = s.byteIn c bp := rfl
@[simp] theorem State.refill_withTtBrOf (c bp : Word) : (s.withTtBrOf u).refill c bp = s.refill c bp := rfl
@[simp] theorem State.rawBit_withTtBrOf (r : MqRegs) : (s.withTtBrOf u).rawBit r = s.rawBit r := rfl
@[simp] theorem State.initDec_withTtBrOf (addr : Word) : (s.withTtBrOf u).initDec addr = s.initDec addr := rfl

@[simp] theorem State.renormd_withTtBrOf (k : Nat) (r : MqRegs) : (s.withTtBrOf u).renormd k r = s.renormd k r := by
  induction k generalizing r with
  | zero => rfl
  | succ k ih => simp only [State.renormd, State.refill_withTtBrOf, ih]

@[simp] theorem State.exchange_withTtBrOf (st : BitVec 7) (lps : Bool) (r : MqRegs) :
    (s.withTtBrOf u).exchange st lps r = s.exchange st lps r := by
  simp only [State.exchange, State.renormd_withTtBrOf]

@[simp] theorem State.decideArith_withTtBrOf (st : BitVec 7) (r : MqRegs) :
    (s.withTtBrOf u).decideArith st r = s.decideArith st r := by
  simp only [State.decideArith, State.exchange_withTtBrOf]

/-- MQ_RANGE in `MQ_INITDEC`: the values drawn are those of the number of the fault (log 4). -/
theorem State.rangeInInitdec_withTtBrOf : (s.withTtBrOf u).rangeInInitdec = s.rangeInInitdec.withTtBrOf u := by
  unfold State.rangeInInitdec
  rw [← (ignoresCause_withTtBrOf u).raise]
  rfl

/-- See `State.rangeInInitdec_withTtBrOf`. -/
theorem State.rangeInDecode_withTtBrOf (i : Fin 19) :
    (s.withTtBrOf u).rangeInDecode i = (s.rangeInDecode i).withTtBrOf u := by
  unfold State.rangeInDecode
  rw [← (ignoresCause_withTtBrOf u).raise]
  rfl

theorem State.mqDecide_withTtBrOf (i : Fin 19) : (s.withTtBrOf u).mqDecide i = (s.mqDecide i).withTtBrOf u := by
  simp only [State.mqDecide, State.withTtBrOf_raw, State.withTtBrOf_cx, State.mqRegs_withTtBrOf,
    State.rawBit_withTtBrOf, State.decideArith_withTtBrOf]
  split
  · cases s.rawBit s.mqRegs with
    | none => exact s.rangeInDecode_withTtBrOf u i
    | some p => rfl
  · cases s.decideArith (s.cx.get i) s.mqRegs with
    | none => exact s.rangeInDecode_withTtBrOf u i
    | some d => rfl

end

section
variable (u : State)

theorem execMqInitctx_withTtBrOf : CommutesWith (·.withTtBrOf u) execMqInitctx :=
  (ignoresCause_withTtBrOf u).unlessFaulted fun _ => rfl

theorem execMqInitdec_withTtBrOf (raw rst : Bool) (addr : Word) :
    CommutesWith (·.withTtBrOf u) (execMqInitdec raw rst addr) := by
  refine (ignoresCause_withTtBrOf u).unlessFaulted fun s => ?_
  simp only [State.initDec_withTtBrOf]
  cases s.initDec addr with
  | none => exact s.rangeInInitdec_withTtBrOf u
  | some r => cases rst <;> rfl

theorem execMqDecode_withTtBrOf (cxi : BitVec 5) : CommutesWith (·.withTtBrOf u) (execMqDecode cxi) := by
  have hf := ignoresCause_withTtBrOf u
  refine hf.unlessFaulted fun s => ?_
  cases contextIndex cxi with
  | none => exact hf.raise s .illegalField
  | some i => exact hf.requireState rfl (s.mqDecide_withTtBrOf u i)

theorem execMqCheckbp_withTtBrOf (expected : Word) : CommutesWith (·.withTtBrOf u) (execMqCheckbp expected) := by
  have hf := ignoresCause_withTtBrOf u
  refine hf.unlessFaulted fun s => hf.requireState rfl ?_
  rw [State.withTtBrOf_mqBp]
  split <;> rfl

/-- A command of the MQ unit commutes with every change of the TT and BR registers, the nodes and PHMEM. -/
theorem exec_withTtBrOf (i : Instr) (hi : i.inMq = true) : CommutesWith (·.withTtBrOf u) (exec i) := by
  cases i with
  | mqInitctx => exact execMqInitctx_withTtBrOf u
  | mqInitdec raw rst addr => exact execMqInitdec_withTtBrOf u raw rst addr
  | mqDecode cxi => exact execMqDecode_withTtBrOf u cxi
  | mqCheckbp expected => exact execMqCheckbp_withTtBrOf u expected
  | _ => cases hi

end

/-! ### The TT and BR units read no register of the MQ unit -/

section
variable (s u : State)

@[simp] theorem State.withMqOf_self : s.withMqOf s = s := rfl

@[simp] theorem State.withMqOf_cfg : (s.withMqOf u).cfg = s.cfg := rfl
@[simp] theorem State.withMqOf_nodes : (s.withMqOf u).nodes = s.nodes := rfl

@[simp] theorem State.node_withMqOf (n : Nat) : (s.withMqOf u).node n = s.node n := rfl
@[simp] theorem State.cursor_withMqOf : (s.withMqOf u).cursor = s.cursor := rfl
@[simp] theorem State.getBit_withMqOf (c : Cursor) : (s.withMqOf u).getBit c = s.getBit c := rfl
@[simp] theorem State.flushed_withMqOf : (s.withMqOf u).flushed = s.flushed := rfl
@[simp] theorem State.bitBound_withMqOf : (s.withMqOf u).bitBound = s.bitBound := rfl
@[simp] theorem State.ephAtCursor_withMqOf : (s.withMqOf u).ephAtCursor = s.ephAtCursor := rfl

@[simp] theorem State.getBits_withMqOf (n r : Nat) (c : Cursor) : (s.withMqOf u).getBits n r c = s.getBits n r c := by
  induction n generalizing r c with
  | zero => rfl
  | succ n ih => simp only [State.getBits, State.getBit_withMqOf, ih]

@[simp] theorem State.getNPasses_withMqOf (c : Cursor) : (s.withMqOf u).getNPasses c = s.getNPasses c := by
  simp only [State.getNPasses, State.getBit_withMqOf, State.getBits_withMqOf]

@[simp] theorem State.countOnes_withMqOf (k n : Nat) (c : Cursor) :
    (s.withMqOf u).countOnes k n c = s.countOnes k n c := by
  induction k generalizing n c with
  | zero => rfl
  | succ k ih => simp only [State.countOnes, State.getBit_withMqOf, ih]

@[simp] theorem State.walkUp_withMqOf (room : Nat) (n : Option Nat) (stack : List Nat) :
    (s.withMqOf u).walkUp room n stack = s.walkUp room n stack := by
  induction room generalizing n stack with
  | zero => cases n <;> rfl
  | succ room ih => cases n <;> simp only [State.walkUp, State.node_withMqOf, ih]

@[simp] theorem State.startValue_withMqOf (stack : List Nat) (top : Option Nat) :
    (s.withMqOf u).startValue stack top = s.startValue stack top := by
  cases top <;> cases stack <;> rfl

@[simp] theorem State.nodeCode_withMqOf (room : Nat) (cur : Word) (c : Cursor) :
    (s.withMqOf u).nodeCode room cur c = s.nodeCode room cur c := by
  induction room generalizing cur c with
  | zero => rfl
  | succ room ih => simp only [State.nodeCode, State.getBit_withMqOf, ih]

@[simp] theorem State.descend_withMqOf (thr : Word) (stack : List Nat) (cur : Word) (file : NodeFile) (c : Cursor) :
    (s.withMqOf u).descend thr stack cur file c = s.descend thr stack cur file c := by
  induction stack generalizing cur file c with
  | nil => rfl
  | cons n stack ih => simp only [State.descend, State.nodeCode_withMqOf, ih]

@[simp] theorem State.chainToRoot_withMqOf (k n : Nat) : (s.withMqOf u).chainToRoot k n = s.chainToRoot k n := by
  induction k generalizing n with
  | zero => rfl
  | succ k ih => simp only [State.chainToRoot, State.node_withMqOf, ih]

/-- BR_EXHAUSTED in a read: the values drawn are those of the number of the fault (log 4). -/
theorem State.exhaustedInRead_withMqOf : (s.withMqOf u).exhaustedInRead = s.exhaustedInRead.withMqOf u := by
  unfold State.exhaustedInRead
  rw [← (ignoresCause_withMqOf u).raise]
  rfl

/-- See `State.exhaustedInRead_withMqOf`. -/
theorem State.exhaustedInFlush_withMqOf : (s.withMqOf u).exhaustedInFlush = s.exhaustedInFlush.withMqOf u := by
  unfold State.exhaustedInFlush
  rw [← (ignoresCause_withMqOf u).raise]
  rfl

/-- See `State.exhaustedInRead_withMqOf`. -/
theorem State.exhaustedInDecode_withMqOf (n : Nat) :
    (s.withMqOf u).exhaustedInDecode n = (s.exhaustedInDecode n).withMqOf u := by
  simp only [State.exhaustedInDecode, State.exhaustedInRead_withMqOf, State.chainToRoot_withMqOf]
  rfl

theorem State.finishRead_withMqOf (r : Option (Nat × Cursor)) :
    (s.withMqOf u).finishRead r = (s.finishRead r).withMqOf u := by
  cases r with
  | none => exact s.exhaustedInRead_withMqOf u
  | some p => rfl

theorem State.segcopied_withMqOf (len : Half) (term : Bool) (dst : Word) :
    (s.withMqOf u).segcopied len term dst = (s.segcopied len term dst).withMqOf u :=
  have hf := ignoresCause_withMqOf u
  hf.requireData (hf.requireData rfl)

theorem State.ttDecide_withMqOf (n : Nat) (thr : Word) :
    (s.withMqOf u).ttDecide n thr = (s.ttDecide n thr).withMqOf u := by
  have hf := ignoresCause_withMqOf u
  refine hf.requireData ?_
  simp only [State.withMqOf_cfg, State.withMqOf_nodes, State.cursor_withMqOf, State.walkUp_withMqOf,
    State.startValue_withMqOf, State.descend_withMqOf]
  rcases s.walkUp s.cfg.ttStack (some n) [] with _ | ⟨stack, top⟩
  · exact hf.raise s .ttDepth
  · dsimp only
    cases s.descend thr stack (s.startValue stack top) s.nodes s.cursor with
    | none => exact s.exhaustedInDecode_withMqOf u n
    | some r => rfl

end

section
variable (u : State)

theorem execTtInit_withMqOf (base : BitVec 24) (w h : Half) : CommutesWith (·.withMqOf u) (execTtInit base w h) :=
  have hf := ignoresCause_withMqOf u
  hf.unlessFaulted fun _ => hf.requireField rfl (hf.requireData rfl)

theorem execTtDecode_withMqOf (node : BitVec 24) (thr : Word) : CommutesWith (·.withMqOf u) (execTtDecode node thr) :=
  have hf := ignoresCause_withMqOf u
  hf.unlessFaulted fun s => hf.requireState rfl (s.ttDecide_withMqOf u node.toNat thr)

theorem execBrSetend_withMqOf (stop : Word) : CommutesWith (·.withMqOf u) (execBrSetend stop) :=
  have hf := ignoresCause_withMqOf u
  hf.unlessFaulted fun _ => hf.requireField rfl rfl

theorem execBrStart_withMqOf (pos : Word) : CommutesWith (·.withMqOf u) (execBrStart pos) :=
  (ignoresCause_withMqOf u).unlessFaulted fun _ => rfl

theorem execBrGetbits_withMqOf (n : BitVec 6) : CommutesWith (·.withMqOf u) (execBrGetbits n) := by
  have hf := ignoresCause_withMqOf u
  refine hf.unlessFaulted fun s => hf.requireField rfl (hf.requireState rfl ?_)
  rw [State.cursor_withMqOf, State.getBits_withMqOf, State.finishRead_withMqOf]

theorem execBrFlush_withMqOf : CommutesWith (·.withMqOf u) execBrFlush := by
  have hf := ignoresCause_withMqOf u
  refine hf.unlessFaulted fun s => hf.requireState rfl ?_
  simp only [State.flushed_withMqOf]
  cases s.flushed with
  | none => exact s.exhaustedInFlush_withMqOf u
  | some c => rfl

theorem execBrGetnpasses_withMqOf : CommutesWith (·.withMqOf u) execBrGetnpasses := by
  have hf := ignoresCause_withMqOf u
  refine hf.unlessFaulted fun s => hf.requireState rfl ?_
  rw [State.cursor_withMqOf, State.getNPasses_withMqOf, State.finishRead_withMqOf]

theorem execBrGetlblkinc_withMqOf : CommutesWith (·.withMqOf u) execBrGetlblkinc := by
  have hf := ignoresCause_withMqOf u
  refine hf.unlessFaulted fun s => hf.requireState rfl ?_
  rw [State.cursor_withMqOf, State.bitBound_withMqOf, State.countOnes_withMqOf, State.finishRead_withMqOf]

theorem execBrEph_withMqOf : CommutesWith (·.withMqOf u) execBrEph := by
  have hf := ignoresCause_withMqOf u
  refine hf.unlessFaulted fun s => hf.requireState rfl ?_
  rw [State.ephAtCursor_withMqOf]
  cases s.ephAtCursor <;> rfl

theorem execBrSegcopy_withMqOf (len : Half) (term : Bool) (dst : Word) :
    CommutesWith (·.withMqOf u) (execBrSegcopy len term dst) :=
  have hf := ignoresCause_withMqOf u
  hf.unlessFaulted fun s => hf.requireState rfl (s.segcopied_withMqOf u len term dst)

/-- A command of the TT or BR unit commutes with every change of the MQ registers and contexts. -/
theorem exec_withMqOf (i : Instr) (hi : i.inTtBr = true) : CommutesWith (·.withMqOf u) (exec i) := by
  cases i with
  | ttInit base w h => exact execTtInit_withMqOf u base w h
  | ttDecode node thr => exact execTtDecode_withMqOf u node thr
  | brSetend stop => exact execBrSetend_withMqOf u stop
  | brStart pos => exact execBrStart_withMqOf u pos
  | brGetbits n => exact execBrGetbits_withMqOf u n
  | brFlush => exact execBrFlush_withMqOf u
  | brGetnpasses => exact execBrGetnpasses_withMqOf u
  | brGetlblkinc => exact execBrGetlblkinc_withMqOf u
  | brEph => exact execBrEph_withMqOf u
  | brSegcopy len term dst => exact execBrSegcopy_withMqOf u len term dst
  | _ => cases hi

end

/-! ### The statement -/

/-- What a command that commutes with putting any state's registers in leaves alone: those registers, as the case of its
own. -/
theorem CommutesWith.eq_put {put : State → State → State} {run : State → Host.Outcome State Fault Refusal} {s t : State}
    (hself : put s s = s) (hc : CommutesWith (put · s) run) (h : run s = .next t) : t = put t s := by
  have hput := hc s t h
  simp only [hself, h, Host.Outcome.next.injEq] at hput
  exact hput

/-- Settles O59: each unit's commands commute with every change of the other unit's registers. A drawn value is a function
of the number of its fault (log 4), so in the model this holds past an in-flight fault too, of which the statement does not
speak. -/
theorem unitsShareNoOtherState : Obligations.UnitsShareNoOtherState := by
  intro i s t u h
  constructor
  · intro hi
    exact ⟨(exec_withTtBrOf s i hi).eq_put s.withTtBrOf_self h, fun _ => exec_withTtBrOf u i hi s t h⟩
  · intro hi
    exact ⟨(exec_withMqOf s i hi).eq_put s.withMqOf_self h, fun _ => exec_withMqOf u i hi s t h⟩

end Sys2Proof.Machine
end

section
/-! Refusal, the checks and fault entry (30_encoding.md R78, 60_exceptions.md R223, R224), for any property of the state. -/

namespace Sys2Proof.Machine

/-- What holds of the state and of a command's effect in an unfaulted block holds after the command. -/
theorem State.unlessFaulted_of {P : State → Prop} {s t : State} (hs : P s) (ht : s.cause = .none → P t) :
    P (s.unlessFaulted t) := by
  by_cases h : s.cause = .none
  · rw [s.unlessFaulted_of_none t h]; exact ht h
  · rw [s.unlessFaulted_of_ne t h]; exact hs

theorem State.raise_of {P : State → Prop} {s : State} {c : Cause} (hs : P s)
    (hc : s.cause = .none → P { s with cause := c }) : P (s.raise c) := by
  by_cases h : s.cause = .none
  · rw [s.raise_of_none c h]; exact hc h
  · rw [s.raise_of_ne c h]; exact hs

theorem State.requireField_of {P : State → Prop} {s t : State} {ok : Bool} (hfault : P (s.raise .illegalField))
    (ht : ok = true → P t) : P (s.requireField ok t) := by
  rcases s.requireField_cases t ok with ⟨h, e⟩ | ⟨-, e⟩
  · rw [e]; exact ht h
  · rw [e]; exact hfault

theorem State.requireState_of {P : State → Prop} {s t : State} {ok : Bool} (hfault : P (s.raise .illegalState))
    (ht : ok = true → P t) : P (s.requireState ok t) := by
  rcases s.requireState_cases t ok with ⟨h, e⟩ | ⟨-, e⟩
  · rw [e]; exact ht h
  · rw [e]; exact hfault

end Sys2Proof.Machine
end

section
/-! How the commands that read header bits move the cursor and the node file (43_bitstream.md R161, 42_tag_tree.md R146).

Every such command moves the cursor by uses of `GetBit()` alone, so a fact about the cursor is proved of `GetBit()` once. The
descent of `TT_DECODE` writes nodes of its stack alone, and raises them. -/

namespace Sys2Proof.Machine

/-! ### The cursor -/

/-- The cursor `c'` is reached from `c` by uses of `GetBit()`. -/
def State.ReadsTo (s : State) (c c' : Cursor) : Prop := ∃ k, s.cursorAfter k c = some c'

theorem State.ReadsTo.refl (s : State) (c : Cursor) : s.ReadsTo c c := ⟨0, rfl⟩

theorem State.ReadsTo.trans {s : State} {c c' c'' : Cursor} (h : s.ReadsTo c c') (h' : s.ReadsTo c' c'') :
    s.ReadsTo c c'' := by
  obtain ⟨j, hj⟩ := h
  obtain ⟨k, hk⟩ := h'
  exact ⟨j + k, (s.cursorAfter_add j k c c' hj).trans hk⟩

theorem State.readsTo_of_getBit {s : State} {c c' : Cursor} {b : Bool} (h : s.getBit c = some (b, c')) :
    s.ReadsTo c c' := ⟨1, by simp only [State.cursorAfter, h]⟩

/-- A legal bit count stays legal (10_state.md R33). -/
theorem State.ReadsTo.bitidx_le {s : State} {c c' : Cursor} (h : s.ReadsTo c c') (h8 : c.bitidx.toNat ≤ 8) :
    c'.bitidx.toNat ≤ 8 := by
  obtain ⟨k, hk⟩ := h
  exact s.cursorAfter_bitidx k c c' hk h8

theorem State.readsTo_of_getBits {s : State} {n r v : Nat} {c c' : Cursor} (h : s.getBits n r c = some (v, c')) :
    s.ReadsTo c c' := by
  induction n generalizing r c with
  | zero => cases h; exact .refl s _
  | succ n ih =>
    rw [State.getBits] at h
    cases hg : s.getBit c with
    | none => simp [hg] at h
    | some p => rw [hg] at h; exact (State.readsTo_of_getBit hg).trans (ih h)

theorem State.readsTo_of_countOnes {s : State} {k n v : Nat} {c c' : Cursor} (h : s.countOnes k n c = some (v, c')) :
    s.ReadsTo c c' := by
  induction k generalizing n c with
  | zero => cases h
  | succ k ih =>
    rw [State.countOnes] at h
    cases hg : s.getBit c with
    | none => simp [hg] at h
    | some p =>
      obtain ⟨b, c₁⟩ := p
      rw [hg] at h
      cases b with
      | false => cases h; exact State.readsTo_of_getBit hg
      | true => exact (State.readsTo_of_getBit hg).trans (ih h)

theorem State.readsTo_of_getNPasses {s : State} {v : Nat} {c c' : Cursor} (h : s.getNPasses c = some (v, c')) :
    s.ReadsTo c c' := by
  unfold State.getNPasses at h
  split at h
  · cases h
  · next h₁ => cases h; exact State.readsTo_of_getBit h₁
  · next c₁ h₁ =>
    refine (State.readsTo_of_getBit h₁).trans ?_
    split at h
    · cases h
    · next h₂ => cases h; exact State.readsTo_of_getBit h₂
    · next c₂ h₂ =>
      refine (State.readsTo_of_getBit h₂).trans ?_
      split at h
      · cases h
      · next h₃ =>
        refine (State.readsTo_of_getBits h₃).trans ?_
        split at h
        · cases h; exact .refl s _
        · split at h
          · cases h
          · next h₄ =>
            refine (State.readsTo_of_getBits h₄).trans ?_
            split at h
            · cases h; exact .refl s _
            · split at h
              · cases h
              · next h₅ => cases h; exact State.readsTo_of_getBits h₅

/-- The code of one node moves the cursor by `GetBit()`, and never lowers the value. -/
theorem State.nodeCode_spec {s : State} {room : Nat} {cur v : Word} {seen : Bool} {c c' : Cursor}
    (h : s.nodeCode room cur c = some (v, seen, c')) (hroom : cur.toNat + room < 2 ^ 32) :
    s.ReadsTo c c' ∧ cur.toNat ≤ v.toNat := by
  induction room generalizing cur c with
  | zero => cases h; exact ⟨.refl s _, Nat.le_refl _⟩
  | succ room ih =>
    rw [State.nodeCode] at h
    cases hg : s.getBit c with
    | none => simp [hg] at h
    | some p =>
      obtain ⟨b, c₁⟩ := p
      rw [hg] at h
      cases b with
      | true => cases h; exact ⟨State.readsTo_of_getBit hg, Nat.le_refl _⟩
      | false =>
        have hsucc : (cur + 1).toNat = cur.toNat + 1 := by bv_omega
        obtain ⟨hreads, hle⟩ := ih h (by omega)
        exact ⟨(State.readsTo_of_getBit hg).trans hreads, by omega⟩

/-! ### The nodes the descent leaves -/

/-- The node `b` keeps `VALID` and `PARENT` of `a`, and its value is no lower. -/
structure TagNode.Raised (a b : TagNode) : Prop where
  valid : b.valid = a.valid
  parent : b.parent = a.parent
  val : a.val.toNat ≤ b.val.toNat

theorem TagNode.Raised.refl (a : TagNode) : a.Raised a := ⟨rfl, rfl, Nat.le_refl _⟩

theorem TagNode.Raised.trans {a b c : TagNode} (h : a.Raised b) (h' : b.Raised c) : a.Raised c :=
  ⟨h'.valid.trans h.valid, h'.parent.trans h.parent, Nat.le_trans h.val h'.val⟩

/-- All that one round of the descent does: it is over, or the node on top of the stack is raised and the rest follows. -/
theorem State.descend_cons_cases {s : State} {thr : Word} {t : Nat} {stack : List Nat} {cur : Word} {f : NodeFile}
    {c : Cursor} {r : Word × NodeFile × Cursor} (h : s.descend thr (t :: stack) cur f c = some r) :
    r = (cur, f, c) ∨ ∃ v node c₁, s.ReadsTo c c₁ ∧ (f.node t).Raised node ∧
      s.descend thr stack v (f.setNode t node) c₁ = some r := by
  rw [State.descend] at h
  split at h
  · refine .inr ?_
    dsimp only at h
    have hstart : (f.node t).val.toNat ≤ (if cur < (f.node t).val then (f.node t).val else cur).toNat := by
      split
      · exact Nat.le_refl _
      · next hlt => exact Nat.not_lt.1 hlt
    generalize (if cur < (f.node t).val then (f.node t).val else cur) = start at h hstart
    cases hcode : s.nodeCode (thr.toNat - start.toNat) start c with
    | none => simp [hcode] at h
    | some p =>
      obtain ⟨v, seen, c₁⟩ := p
      rw [hcode] at h
      obtain ⟨hreads, hle⟩ := State.nodeCode_spec hcode (by omega)
      exact ⟨v, { f.node t with val := v, vis := (f.node t).vis || seen }, c₁, hreads,
        ⟨rfl, rfl, Nat.le_trans hstart hle⟩, h⟩
  · exact .inl (Option.some.inj h).symm

section
variable {s : State} {thr : Word} {stack : List Nat} {cur v : Word} {f f' : NodeFile} {c c' : Cursor}

/-- The descent moves the cursor by `GetBit()` alone. -/
theorem State.readsTo_of_descend (h : s.descend thr stack cur f c = some (v, f', c')) : s.ReadsTo c c' := by
  induction stack generalizing cur f c with
  | nil => cases h; exact .refl s _
  | cons t stack ih =>
    rcases State.descend_cons_cases h with he | ⟨_, _, _, hreads, -, h⟩
    · cases he; exact .refl s _
    · exact hreads.trans (ih h)

/-- The descent raises nodes of its stack and leaves every other node as it is. -/
theorem State.node_descend (h : s.descend thr stack cur f c = some (v, f', c')) (hf : f.Pairwise (fun x y => x.1 < y.1))
    (m : Nat) : (f.node m).Raised (f'.node m) ∧ (m ∉ stack → f'.node m = f.node m) := by
  induction stack generalizing cur f c with
  | nil => cases h; exact ⟨.refl _, fun _ => rfl⟩
  | cons t stack ih =>
    rcases State.descend_cons_cases h with he | ⟨_, node, _, -, hraised, h⟩
    · cases he; exact ⟨.refl _, fun _ => rfl⟩
    · obtain ⟨hrest, hsame⟩ := ih h (f.pairwise_setNode hf t node)
      rw [f.node_setNode hf] at hrest hsame
      by_cases hm : m = t
      · subst hm
        rw [if_pos rfl] at hrest
        exact ⟨hraised.trans hrest, fun hnot => absurd List.mem_cons_self hnot⟩
      · rw [if_neg hm] at hrest hsame
        exact ⟨hrest, fun hnot => hsame fun hmem => hnot (List.mem_cons_of_mem _ hmem)⟩

/-- A descent over nodes of the file keeps the file's canonical form. -/
theorem State.wf_descend (h : s.descend thr stack cur f c = some (v, f', c')) {size : Nat} (hf : f.wf size)
    (hstack : ∀ m ∈ stack, m < size) : f'.wf size := by
  induction stack generalizing cur f c with
  | nil => cases h; exact hf
  | cons t stack ih =>
    rcases State.descend_cons_cases h with he | ⟨_, node, _, -, -, h⟩
    · cases he; exact hf
    · exact ih h (f.wf_setNode size hf t node (hstack t List.mem_cons_self)) fun m hm =>
        hstack m (List.mem_cons_of_mem _ hm)

end

/-! ### What `TT_DECODE` can do -/

/-- The nodes stacked by the walk are unvisited. -/
theorem State.vis_of_mem_walkUp {s : State} {room n : Nat} {stack : List Nat} {top : Option Nat}
    (h : s.walkUp room (some n) [] = some (stack, top)) : ∀ m ∈ stack, (s.node m).vis = false := by
  obtain ⟨path, hwalk, rfl, -⟩ := s.isWalk_of_walkUp room (some n) top stack [] h
  simpa using State.IsWalk.vis s (some n) top path hwalk

/-- Where parent links are as 10_state.md R43 says, the nodes stacked by the walk from a built node are nodes of the file. -/
theorem State.lt_of_mem_walkUp {s : State} {room n : Nat} {stack : List Nat} {top : Option Nat}
    (h : s.walkUp room (some n) [] = some (stack, top)) (hp : s.ParentsOk) (hn : n < s.cfg.ttNodes.toNat)
    (hv : (s.node n).valid = true) : ∀ m ∈ stack, m < s.cfg.ttNodes.toNat := by
  obtain ⟨path, hwalk, rfl, -⟩ := s.isWalk_of_walkUp room (some n) top stack [] h
  obtain ⟨path', top', hwalk', hmem⟩ := s.exists_isWalk hp n hv hn
  obtain rfl := s.isWalk_unique (some n) top top' path path' hwalk hwalk'
  intro m hm
  exact (hmem m (by simpa using hm)).2.2

/-- All that the data part of `TT_DECODE` can do (42_tag_tree.md R146): a fault that changes nothing else, BR_EXHAUSTED from
a built node, or a descent down the stack of the walk from it. -/
theorem State.ttDecide_cases (s : State) (n : Nat) (thr : Word) :
    (∃ c, c ≠ .brExhausted ∧ s.ttDecide n thr = s.raise c) ∨
      n < s.cfg.ttNodes.toNat ∧ (s.node n).valid = true ∧
        (s.ttDecide n thr = s.exhaustedInDecode n ∨
          ∃ stack top cur v f c, s.walkUp s.cfg.ttStack (some n) [] = some (stack, top) ∧
            s.descend thr stack cur s.nodes s.cursor = some (v, f, c) ∧
            s.ttDecide n thr = (({ s with nodes := f } : State).setCursor c).setResult v) := by
  unfold State.ttDecide
  split
  · next hbuilt =>
    obtain ⟨hn, hv⟩ := hbuilt
    rcases hwalk : s.walkUp s.cfg.ttStack (some n) [] with _ | ⟨stack, top⟩
    · exact .inl ⟨.ttDepth, by decide, rfl⟩
    · refine .inr ⟨hn, hv, ?_⟩
      dsimp only
      rcases hdesc : s.descend thr stack (s.startValue stack top) s.nodes s.cursor with _ | ⟨v, f, c⟩
      · exact .inl rfl
      · exact .inr ⟨stack, top, _, v, f, c, rfl, hdesc, rfl⟩
  · exact .inl ⟨.ttMissingNode, by decide, rfl⟩

end Sys2Proof.Machine
end

section
/-! The parent links of a tree that `TT_INIT` builds (42_tag_tree.md R141): each names a later node of the same tree. -/

namespace Sys2Proof.Machine

theorem treeLevels_eq_cons (k w h : Nat) : ∃ rest, treeLevels k w h = (w, h) :: rest := by
  cases k with
  | zero => exact ⟨[], rfl⟩
  | succ k =>
    rw [treeLevels]
    split
    · next h₁ => exact ⟨[], by rw [h₁.1, h₁.2]⟩
    · exact ⟨_, rfl⟩

/-- As many nodes as the tree has. -/
theorem length_treeNodes_treeLevels (k w h off : Nat) (hw : 1 ≤ w) (hh : 1 ≤ h) (hk : rootLevel w h ≤ k) :
    (treeNodes off (treeLevels k w h)).length = treeSize (treeLevels k w h) := by
  have hlevels := treeLevels_eq k w h hw hh hk
  obtain ⟨hrootW, hrootH⟩ := levelDim_rootLevel w h hw hh
  refine length_treeNodes off _ (by simp [hlevels]) ?_
  simp [hlevels, hrootW, hrootH]

/-- The first level lies in the tree. -/
theorem le_length_treeNodes (k w h off : Nat) (hw : 1 ≤ w) (hh : 1 ≤ h) (hk : rootLevel w h ≤ k) :
    w * h ≤ (treeNodes off (treeLevels k w h)).length := by
  obtain ⟨rest, hrest⟩ := treeLevels_eq_cons k w h
  rw [length_treeNodes_treeLevels k w h off hw hh hk, hrest]
  simp [treeSize]

theorem mem_levelNodes {w h above wAbove : Nat} {v : TagNode} (hv : v ∈ levelNodes w h above wAbove) :
    ∃ i < h, ∃ j < w, v = ⟨true, 0, false, some (above + i / 2 * wAbove + j / 2)⟩ := by
  simp only [levelNodes, List.mem_flatMap, List.mem_map, List.mem_range] at hv
  obtain ⟨i, hi, j, hj, rfl⟩ := hv
  exact ⟨i, hi, j, hj, rfl⟩

/-- `TT_INIT` marks every node of the tree as built. -/
theorem valid_of_mem_treeNodes {off : Nat} {levels : List (Nat × Nat)} {v : TagNode} (hv : v ∈ treeNodes off levels) :
    v.valid = true := by
  induction levels generalizing off with
  | nil => cases hv
  | cons l levels ih =>
    cases levels with
    | nil => rw [List.mem_singleton.1 hv]
    | cons l' rest =>
      rcases List.mem_append.1 hv with hv | hv
      · obtain ⟨_, _, _, _, rfl⟩ := mem_levelNodes hv
        rfl
      · exact ih hv

theorem treeNodes_treeLevels_succ (k w h off : Nat) (hne : ¬ (w = 1 ∧ h = 1)) :
    treeNodes off (treeLevels (k + 1) w h) =
      levelNodes w h (off + w * h) ((w + 1) / 2) ++
        treeNodes (off + w * h) (treeLevels k ((w + 1) / 2) ((h + 1) / 2)) := by
  obtain ⟨rest, hrest⟩ := treeLevels_eq_cons k ((w + 1) / 2) ((h + 1) / 2)
  rw [treeLevels, if_neg hne, hrest, treeNodes]

/-- The parent of a node of a level is a node of the level above, by its row and column. -/
theorem levelNodes_parent {w h above wAbove hAbove p : Nat} {v : TagNode} (hv : v ∈ levelNodes w h above wAbove)
    (hp : v.parent = some p) (hw : w ≤ 2 * wAbove) (hh : h ≤ 2 * hAbove) :
    above ≤ p ∧ p < above + wAbove * hAbove := by
  obtain ⟨i, hi, j, hj, rfl⟩ := mem_levelNodes hv
  obtain rfl := Option.some.inj hp
  have hrow : (i / 2 + 1) * wAbove ≤ hAbove * wAbove := Nat.mul_le_mul_right _ (by omega)
  rw [Nat.add_mul, Nat.mul_comm hAbove] at hrow
  omega

/-- The parent of a node of the tree is a later node of the tree. -/
theorem treeNodes_parent (k w h off : Nat) (hw : 1 ≤ w) (hh : 1 ≤ h) (hk : rootLevel w h ≤ k) (x p : Nat) (v : TagNode)
    (hv : (treeNodes off (treeLevels k w h))[x]? = some v) (hp : v.parent = some p) :
    off + x < p ∧ p < off + (treeNodes off (treeLevels k w h)).length := by
  have hroot : ∀ off l, v ∉ treeNodes off [l] := by
    intro off l hmem
    rw [List.mem_singleton.1 hmem] at hp
    cases hp
  induction k generalizing w h off x with
  | zero => exact absurd (List.mem_of_getElem? hv) (hroot _ _)
  | succ k ih =>
    by_cases hne : w = 1 ∧ h = 1
    · rw [treeLevels, if_pos hne] at hv
      exact absurd (List.mem_of_getElem? hv) (hroot _ _)
    rw [rootLevel_succ w h hw hh hne, Nat.add_le_add_iff_right] at hk
    rw [treeNodes_treeLevels_succ k w h off hne] at hv ⊢
    rw [List.length_append, length_levelNodes]
    by_cases hx : x < w * h
    · rw [List.getElem?_append_left (by rwa [length_levelNodes])] at hv
      obtain ⟨hlow, hhigh⟩ := levelNodes_parent (hAbove := (h + 1) / 2) (List.mem_of_getElem? hv) hp (by omega) (by omega)
      have habove := le_length_treeNodes k ((w + 1) / 2) ((h + 1) / 2) (off + w * h) (by omega) (by omega) hk
      omega
    · rw [List.getElem?_append_right (by rw [length_levelNodes]; omega), length_levelNodes] at hv
      have hrest := ih _ _ (off + w * h) (by omega) (by omega) hk _ hv
      omega

end Sys2Proof.Machine
end

section
/-! Every step keeps the invariant of the state (10_state.md R43).

First each shared operation: refusal, the checks, fault entry, the writes of registers, the in-flight faults
(60_exceptions.md R225). Then the data parts of the commands, unit by unit, and the ports. -/

namespace Sys2Proof.Machine

/-! ### The invariant under the shared operations -/

namespace State.Inv

variable {s : State} (hs : s.Inv)
include hs

theorem raise (c : Cause) : (s.raise c).Inv :=
  State.raise_of hs fun h => { hs with interval := fun _ => hs.interval h }

theorem unlessFaulted {t : State} (ht : s.cause = .none → t.Inv) : (s.unlessFaulted t).Inv :=
  State.unlessFaulted_of hs ht

theorem requireField {t : State} {ok : Bool} (ht : ok = true → t.Inv) : (s.requireField ok t).Inv :=
  State.requireField_of (hs.raise _) ht

theorem requireState {t : State} {ok : Bool} (ht : ok = true → t.Inv) : (s.requireState ok t).Inv :=
  State.requireState_of (hs.raise _) ht

theorem setResult (v : Word) : (s.setResult v).Inv := { hs with }

theorem setCursor {c : Cursor} (hc : c.bitidx.toNat ≤ 8) : (s.setCursor c).Inv := { hs with bitidx := hc }

theorem setMqRegs {r : MqRegs} (hr : 0x8000 ≤ r.a.toNat) : (s.setMqRegs r).Inv := { hs with interval := fun _ _ => hr }

theorem setCx (i : Fin 19) {v : BitVec 7} (hv : v.toNat ≤ 93) : (s.setCx i v).Inv :=
  { hs with
    contexts := fun j => by
      have hj := hs.contexts j
      simp only [State.setCx_cx, Vector.get_eq_getElem, Vector.getElem_set] at hj ⊢
      split
      · exact hv
      · exact hj }

theorem respond : s.respond.Inv := { hs with }

/-- What the descent of `TT_DECODE` or a lost walk leaves: nodes that keep `VALID` and `PARENT`. -/
theorem withNodes {f : NodeFile} (hvalid : ∀ m, (f.node m).valid = (s.node m).valid)
    (hparent : ∀ m, (f.node m).parent = (s.node m).parent) (hf : f.wf s.cfg.ttNodes.toNat) :
    ({ s with nodes := f } : State).Inv :=
  { hs with
    nodes := hf
    parents := fun n p hv hp => by
      obtain ⟨hlt, hpv, hp⟩ := hs.parents n p ((hvalid n).symm.trans hv) ((hparent n).symm.trans hp)
      exact ⟨hlt, (hvalid p).trans hpv, hp⟩ }

/-! ### In-flight faults -/

theorem exhaustedInRead (h : s.cause = .none) : s.exhaustedInRead.Inv := by
  rw [s.exhaustedInRead_eq h]
  exact { hs with bitidx := freeBrBitidx_le _, interval := nofun }

theorem exhaustedInFlush (h : s.cause = .none) : s.exhaustedInFlush.Inv := by
  rw [s.exhaustedInFlush_eq h]
  exact { hs with bitidx := freeBrBitidx_le _, interval := nofun }

theorem exhaustedInDecode (h : s.cause = .none) {n : Nat} (hn : n < s.cfg.ttNodes.toNat)
    (hv : (s.node n).valid = true) : (s.exhaustedInDecode n).Inv := by
  have hkept := s.nodes.node_lose hs.nodes.1 s.draws (s.chainToRoot s.cfg.ttNodes.toNat n)
  have hwf := s.nodes.wf_lose s.cfg.ttNodes.toNat hs.nodes s.draws (s.chainToRoot s.cfg.ttNodes.toNat n)
    fun m hm => s.chainToRoot_lt hs.parents _ n m hv hn hm
  rw [s.exhaustedInDecode_eq n h]
  exact { hs.withNodes (fun m => (hkept m).1) (fun m => (hkept m).2.1) hwf with
    bitidx := freeBrBitidx_le _, interval := nofun }

theorem rangeInInitdec (h : s.cause = .none) : s.rangeInInitdec.Inv := by
  rw [s.rangeInInitdec_eq h]
  exact { hs with contexts := fun i => by simpa [Vector.get_eq_getElem] using freeContext_le s.draws i, interval := nofun }

theorem rangeInDecode (h : s.cause = .none) (i : Fin 19) : (s.rangeInDecode i).Inv := by
  rw [s.rangeInDecode_eq i h]
  exact { hs.setCx i (freeContext_le s.draws i) with interval := nofun }

end State.Inv

/-! ### The MQ unit -/

/-- Bit 15 of an interval says that it is at least 0x8000 (41_mq_decoder.md R102). -/
theorem half_getLsbD_fifteen (a : Half) : a.getLsbD 15 = decide (0x8000 ≤ a.toNat) :=
  (BitVec.msb_eq_getLsbD_last a).symm.trans (BitVec.msb_eq_decide a)

/-- After a conditional exchange the interval is at least 0x8000 again, and the context legal. -/
theorem State.exchange_spec {s : State} {st : BitVec 7} {lps : Bool} {r : MqRegs} {d : Decision}
    (h : s.exchange st lps r = some d) (hst : st.toNat ≤ 93)
    (ha : lps = false → 1 ≤ r.a.toNat ∧ r.a.toNat ≤ 0x7FFF) : 0x8000 ≤ d.regs.a.toNat ∧ d.context.toNat ≤ 93 := by
  have hstart : 1 ≤ (if lps then qe st else r.a).toNat ∧ (if lps then qe st else r.a).toNat ≤ 0x7FFF := by
    cases lps with
    | false => exact ha rfl
    | true =>
      obtain ⟨hlow, hhigh⟩ := qe_bounds st hst
      exact ⟨hlow, Nat.le_trans hhigh (by decide)⟩
  unfold State.exchange at h
  cases hr : s.renormd 15 ⟨if lps then qe st else r.a, r.c, r.bp⟩ with
  | none => simp [hr] at h
  | some r' =>
    have hnorm : 0x8000 ≤ r'.a.toNat := s.renormd_normalized _ _ hr hstart.1 hstart.2
    simp only [hr] at h
    split at h
    · cases h; exact ⟨hnorm, nmps_le st hst⟩
    · cases h; exact ⟨hnorm, nlps_le st hst⟩

/-- An arithmetic decision keeps the interval at least 0x8000 and the context legal (41_mq_decoder.md R114). -/
theorem State.decideArith_spec {s : State} {st : BitVec 7} {r : MqRegs} {d : Decision} (h : s.decideArith st r = some d)
    (hst : st.toNat ≤ 93) (ha : 0x8000 ≤ r.a.toNat) : 0x8000 ≤ d.regs.a.toNat ∧ d.context.toNat ≤ 93 := by
  have hq := qe_bounds st hst
  have hsub : (r.a - qe st).toNat = r.a.toNat - (qe st).toNat := BitVec.toNat_sub_of_le (BitVec.le_def.2 (by omega))
  simp only [State.decideArith, half_getLsbD_fifteen, decide_eq_true_eq] at h
  split at h
  · split at h
    · next hnorm => cases h; exact ⟨hnorm, hst⟩
    · exact State.exchange_spec h hst fun _ => by dsimp only; omega
  · exact State.exchange_spec h hst nofun

/-- A raw decision leaves `MQ_A` alone (41_mq_decoder.md R105). -/
theorem State.rawBit_a {s : State} {r r' : MqRegs} {bit : Bool} (h : s.rawBit r = some (bit, r')) : r'.a = r.a := by
  unfold State.rawBit at h
  split at h <;> cases h
  rfl

/-- A segment starts with the interval 0x8000 (41_mq_decoder.md R108). -/
theorem State.initDec_a {s : State} {addr : Word} {r : MqRegs} (h : s.initDec addr = some r) : r.a = 0x8000 := by
  unfold State.initDec at h
  split at h
  · cases h
  · split at h <;> cases h
    rfl

theorem initialContexts_le : ∀ i : Fin 19, (initialContexts.get i).toNat ≤ 93 := by decide

/-- `BR_FLUSH` leaves the cursor byte-aligned (43_bitstream.md R165). -/
theorem State.flushed_bitidx {s : State} {c : Cursor} (h : s.flushed = some c) : c.bitidx = 8 := by
  unfold State.flushed at h
  split at h
  · cases h
  · split at h
    · split at h <;> cases h
      rfl
    · cases h; rfl

/-- In its range, the node file after a run is stored holds the run. -/
theorem NodeFile.getElem?_setRun (f : NodeFile) (base : Nat) (run : List TagNode) (n : Nat) (hlow : base ≤ n)
    (hhigh : n < base + run.length) : run[n - base]? = some ((f.setRun base run).node n) := by
  have hlt : n - base < run.length := by omega
  rw [f.node_setRun, if_pos ⟨hlow, hhigh⟩, List.getElem?_eq_getElem hlt, Option.getD_some]

theorem NodeFile.node_setRun_of_not_mem (f : NodeFile) (base : Nat) (run : List TagNode) (n : Nat)
    (hn : ¬ (base ≤ n ∧ n < base + run.length)) : (f.setRun base run).node n = f.node n := by
  rw [f.node_setRun, if_neg hn]

namespace State.Inv

variable {s : State} (hs : s.Inv)
include hs

theorem initContexts : s.initContexts.Inv := { hs with contexts := initialContexts_le }

theorem mqDecide (h : s.cause = .none) (hinit : s.mqinit = true) (i : Fin 19) : (s.mqDecide i).Inv := by
  have ha := hs.interval h hinit
  unfold State.mqDecide
  split
  · rcases hr : s.rawBit s.mqRegs with _ | ⟨bit, r⟩
    · exact hs.rangeInDecode h i
    · exact (hs.setMqRegs (by rw [State.rawBit_a hr]; exact ha)).setResult _
  · cases hd : s.decideArith (s.cx.get i) s.mqRegs with
    | none => exact hs.rangeInDecode h i
    | some d =>
      obtain ⟨hinterval, hcontext⟩ := State.decideArith_spec hd (hs.contexts i) ha
      exact ((hs.setMqRegs hinterval).setCx i hcontext).setResult _

/-- The registers `MQ_INITDEC` sets up for a segment; it computes them before it loads any context (41_mq_decoder.md R111). -/
theorem startSegment {t : State} {addr : Word} {r : MqRegs} (hr : t.initDec addr = some r) (raw : Bool) :
    ({ s.setMqRegs r with raw := raw, mqinit := true } : State).Inv :=
  { hs with interval := fun _ _ => by rw [State.setMqRegs_mqA, State.initDec_a hr]; decide }

/-! ### The TT unit -/

/-- A run of built nodes, each with its parent later in the run, keeps the parent links of the file: those from outside
into the run still end at a built node. -/
theorem setRun (base : Nat) (run : List TagNode) (hbuilt : ∀ v ∈ run, v.valid = true)
    (hparent : ∀ x p v, run[x]? = some v → v.parent = some p → base + x < p ∧ p < base + run.length)
    (hfit : base + run.length ≤ s.cfg.ttNodes.toNat) :
    ({ s with nodes := s.nodes.setRun base run } : State).Inv := by
  have hvalid : ∀ n, base ≤ n → n < base + run.length → ((s.nodes.setRun base run).node n).valid = true :=
    fun n hlow hhigh => hbuilt _ (List.mem_of_getElem? (s.nodes.getElem?_setRun base run n hlow hhigh))
  have hout := s.nodes.node_setRun_of_not_mem base run
  refine { hs with nodes := s.nodes.wf_setRun _ hs.nodes base run hbuilt hfit, parents := ?_ }
  intro n p (hv : ((s.nodes.setRun base run).node n).valid = true)
    (hp : ((s.nodes.setRun base run).node n).parent = some p)
  change n < p ∧ ((s.nodes.setRun base run).node p).valid = true ∧ p < s.cfg.ttNodes.toNat
  by_cases hn : base ≤ n ∧ n < base + run.length
  · obtain ⟨hlt, hend⟩ := hparent (n - base) p _ (s.nodes.getElem?_setRun base run n hn.1 hn.2) hp
    exact ⟨by omega, hvalid p (by omega) hend, by omega⟩
  · rw [hout n hn] at hv hp
    obtain ⟨hlt, hpv, hend⟩ := hs.parents n p hv hp
    refine ⟨hlt, ?_, hend⟩
    by_cases hpin : base ≤ p ∧ p < base + run.length
    · exact hvalid p hpin.1 hpin.2
    · rw [hout p hpin]; exact hpv

/-- The data part of `TT_INIT`. -/
theorem initTree (base : Nat) (w h : Half) (hw : w ≠ 0) (hh : h ≠ 0)
    (hfit : base + treeSize (treeLevels 16 w.toNat h.toNat) ≤ s.cfg.ttNodes.toNat) :
    ({ s with nodes := s.nodes.setRun base (treeNodes base (treeLevels 16 w.toNat h.toNat)) } : State).Inv := by
  have hw' : 1 ≤ w.toNat := by bv_omega
  have hh' : 1 ≤ h.toNat := by bv_omega
  have hk := rootLevel_le w.toNat h.toNat w.isLt h.isLt
  refine hs.setRun base _ (fun v hv => valid_of_mem_treeNodes hv) (treeNodes_parent 16 _ _ base hw' hh' hk) ?_
  rwa [length_treeNodes_treeLevels 16 _ _ base hw' hh' hk]

theorem ttDecide (h : s.cause = .none) (n : Nat) (thr : Word) : (s.ttDecide n thr).Inv := by
  rcases s.ttDecide_cases n thr with ⟨c, -, e⟩ | ⟨hn, hv, e | ⟨stack, top, cur, v, f, c, hwalk, hdesc, e⟩⟩
  · rw [e]; exact hs.raise c
  · rw [e]; exact hs.exhaustedInDecode h hn hv
  · have hnode := State.node_descend hdesc hs.nodes.1
    have hwf := State.wf_descend hdesc hs.nodes (State.lt_of_mem_walkUp hwalk hs.parents hn hv)
    have hbits := (State.readsTo_of_descend hdesc).bitidx_le hs.bitidx
    rw [e]
    exact ((hs.withNodes (fun m => (hnode m).1.valid) (fun m => (hnode m).1.parent) hwf).setCursor hbits).setResult v

/-! ### The BR unit -/

/-- The end of a command that reads a field, where the field was read by `GetBit()` alone. -/
theorem finishRead (h : s.cause = .none) {r : Option (Nat × Cursor)}
    (hr : ∀ v c, r = some (v, c) → s.ReadsTo s.cursor c) : (s.finishRead r).Inv := by
  cases r with
  | none => exact hs.exhaustedInRead h
  | some p => exact (hs.setCursor ((hr p.1 p.2 rfl).bitidx_le hs.bitidx)).setResult _

theorem segcopied (len : Half) (term : Bool) (dst : Word) : (s.segcopied len term dst).Inv := by
  unfold State.segcopied
  dsimp only
  split
  · split
    · next hfit =>
      have hcb : (s.cbmem.writeBytes dst.toNat (s.bodyBytes len.toNat ++ endMarker term)).wf s.cfg.cbmemSize.toNat := by
        refine Memory.wf_writeBytes _ _ _ hs.cbmem _ ?_
        simpa [State.bodyBytes, Nat.add_assoc] using hfit
      exact { hs with cbmem := hcb }
    · exact hs.raise .cbCapacity
  · exact hs.raise .phSegOverrun

/-! ### The host memory port -/

theorem hostWrite (space : MemSpace) (a : Word) (v : Byte) : (s.hostWrite space a v).Inv := by
  unfold State.hostWrite
  split
  · next ha =>
    cases space with
    | phmem => exact { hs with phmem := s.phmem.wf_write _ hs.phmem a.toNat v ha }
    | cbmem => exact { hs with cbmem := s.cbmem.wf_write _ hs.cbmem a.toNat v ha }
  · exact { hs with }

theorem hostRead (space : MemSpace) (a : Word) : (s.hostRead space a).Inv := by
  unfold State.hostRead
  split <;> exact { hs with }

/-! ### The reset action -/

theorem resetAction : s.resetAction.Inv :=
  { hs with
    contexts := initialContexts_le
    bitidx := Nat.le_refl 8
    window := Nat.zero_le _
    interval := nofun
    parents := nofun
    nodes := by simp [NodeFile.wf, sparseWf] }

end State.Inv

/-! ### Commands and steps -/

/-- Every command keeps the invariant. -/
theorem State.Inv.exec {s t : State} (hs : s.Inv) {i : Instr} (h : exec i s = .next t) : t.Inv := by
  cases i with
  | nop => cases h; exact hs.unlessFaulted fun _ => hs
  | reset => cases h; exact hs.resetAction
  | regread reg =>
    cases h
    split
    · exact hs.setResult _
    · exact hs.unlessFaulted fun _ => hs.raise _
  | clrwarn => cases h; exact hs.unlessFaulted fun _ => { hs with }
  | mqInitctx => cases h; exact hs.unlessFaulted fun _ => hs.initContexts
  | mqInitdec raw rst addr =>
    cases h
    refine hs.unlessFaulted fun hc => ?_
    split
    · exact hs.rangeInInitdec hc
    · next r hr =>
      cases rst with
      | false => exact hs.startSegment hr raw
      | true => exact hs.initContexts.startSegment hr raw
  | mqDecode cxi =>
    cases h
    refine hs.unlessFaulted fun hc => ?_
    split
    · exact hs.raise _
    · exact hs.requireState fun hinit => hs.mqDecide hc hinit _
  | mqCheckbp expected =>
    cases h
    refine hs.unlessFaulted fun _ => hs.requireState fun _ => ?_
    split
    · exact hs.setResult _
    · exact { hs with }
  | ttInit base w h' =>
    cases h
    refine hs.unlessFaulted fun _ => hs.requireField fun hsides => ?_
    simp only [Bool.and_eq_true, bne_iff_ne] at hsides
    dsimp only
    split
    · next hfit => exact (hs.initTree base.toNat w h' hsides.1 hsides.2 hfit).setResult _
    · exact hs.raise _
  | ttDecode node thr => cases h; exact hs.unlessFaulted fun hc => hs.requireState fun _ => hs.ttDecide hc _ thr
  | brSetend stop =>
    cases h
    exact hs.unlessFaulted fun _ => hs.requireField fun hle => { hs with window := of_decide_eq_true hle }
  | brStart pos => cases h; exact hs.unlessFaulted fun _ => { hs with bitidx := Nat.le_refl 8 }
  | brGetbits n =>
    cases h
    exact hs.unlessFaulted fun hc => hs.requireField fun _ => hs.requireState fun _ =>
      hs.finishRead hc fun _ _ hr => State.readsTo_of_getBits hr
  | brFlush =>
    cases h
    refine hs.unlessFaulted fun hc => hs.requireState fun _ => ?_
    split
    · exact hs.exhaustedInFlush hc
    · next c hf => exact hs.setCursor (by rw [State.flushed_bitidx hf]; decide)
  | brGetnpasses =>
    cases h
    exact hs.unlessFaulted fun hc => hs.requireState fun _ =>
      hs.finishRead hc fun _ _ hr => State.readsTo_of_getNPasses hr
  | brGetlblkinc =>
    cases h
    exact hs.unlessFaulted fun hc => hs.requireState fun _ =>
      hs.finishRead hc fun _ _ hr => State.readsTo_of_countOnes hr
  | brEph =>
    cases h
    refine hs.unlessFaulted fun _ => hs.requireState fun _ => ?_
    split <;> exact { hs with }
  | brSegcopy len term dst =>
    cases h
    exact hs.unlessFaulted fun _ => hs.requireState fun _ => hs.segcopied len term dst

/-- Every word on the command port keeps the invariant. -/
theorem State.Inv.executeWord {s t : State} (hs : s.Inv) {w : CommandWord} (h : executeWord w s = .next t) : t.Inv := by
  unfold Machine.executeWord at h
  split at h
  · exact hs.exec h
  · cases h
    exact hs.unlessFaulted fun _ => hs.raise _

/-- Whatever the host presents, serving it keeps the invariant. -/
theorem State.Inv.serve {s t : State} (hs : s.Inv) {e : PortEvent} (h : serve e s = .next t) : t.Inv := by
  cases e with
  | command w =>
    rw [Machine.serve] at h
    cases hw : Machine.executeWord w s with
    | next u => rw [hw] at h; cases h; exact (hs.executeWord hw).respond
    | fault r => rw [hw] at h; cases h
    | refused r => rw [hw] at h; cases h
  | hostWrite space a v => cases h; exact hs.hostWrite space a v
  | hostRead space a => cases h; exact hs.hostRead space a

/-- Settles O22: a waiting block stays as it is, and what is served next, taken from the port, keeps the invariant. -/
theorem stepKeepsInvariant : Obligations.StepKeepsInvariant := by
  intro s t hs h
  unfold step serveNext at h
  split at h
  · cases h; exact hs
  · next e rest _ =>
    have htaken : ({ s with port := rest } : State).Inv := { hs with }
    exact htaken.serve h

end Sys2Proof.Machine
end

section
/-! The nodes under every command but `TT_INIT` and `RESET` (10_state.md R35, 42_tag_tree.md R146, R148): only `TT_DECODE`
writes the node file at all. -/

namespace Sys2Proof.Machine

/-! ### The commands that leave the node file alone -/

section
variable {s t : State} {f : NodeFile}

theorem State.nodes_unlessFaulted (hs : s.nodes = f) (ht : t.nodes = f) : (s.unlessFaulted t).nodes = f :=
  State.unlessFaulted_of (P := fun u => u.nodes = f) hs fun _ => ht

theorem State.nodes_requireField {ok : Bool} (hs : s.nodes = f) (ht : t.nodes = f) : (s.requireField ok t).nodes = f :=
  State.requireField_of (P := fun u => u.nodes = f) ((s.raise_nodes _).trans hs) fun _ => ht

theorem State.nodes_requireState {ok : Bool} (hs : s.nodes = f) (ht : t.nodes = f) : (s.requireState ok t).nodes = f :=
  State.requireState_of (P := fun u => u.nodes = f) ((s.raise_nodes _).trans hs) fun _ => ht

end

theorem State.nodes_finishRead (s : State) (r : Option (Nat × Cursor)) : (s.finishRead r).nodes = s.nodes := by
  cases r with
  | none => exact State.raise_nodes _ _
  | some p => rfl

theorem State.nodes_segcopied (s : State) (len : Half) (term : Bool) (dst : Word) :
    (s.segcopied len term dst).nodes = s.nodes := by
  unfold State.segcopied
  dsimp only
  split
  · split
    · rfl
    · exact s.raise_nodes _
  · exact s.raise_nodes _

/-- No command but `TT_INIT`, `RESET` and `TT_DECODE` writes the node file. -/
theorem nodes_of_exec {i : Instr} {s t : State} (hreset : i.resetsNodes = false)
    (hdecode : ∀ node thr, i ≠ .ttDecode node thr) (h : exec i s = .next t) : t.nodes = s.nodes := by
  by_cases hmq : i.inMq = true
  · have hframe : t = t.withTtBrOf s := ((unitsShareNoOtherState i s t s h).1 hmq).1
    exact (congrArg State.nodes hframe).trans rfl
  cases i with
  | nop => cases h; exact State.nodes_unlessFaulted rfl rfl
  | regread reg =>
    cases h
    split
    · rfl
    · exact State.nodes_unlessFaulted rfl (s.raise_nodes _)
  | clrwarn => cases h; exact State.nodes_unlessFaulted rfl rfl
  | ttDecode node thr => exact absurd rfl (hdecode node thr)
  | brSetend stop => cases h; exact State.nodes_unlessFaulted rfl (State.nodes_requireField rfl rfl)
  | brStart pos => cases h; exact State.nodes_unlessFaulted rfl rfl
  | brGetbits n =>
    cases h
    exact State.nodes_unlessFaulted rfl
      (State.nodes_requireField rfl (State.nodes_requireState rfl (s.nodes_finishRead _)))
  | brFlush =>
    cases h
    refine State.nodes_unlessFaulted rfl (State.nodes_requireState rfl ?_)
    split
    · exact State.raise_nodes _ _
    · rfl
  | brGetnpasses => cases h; exact State.nodes_unlessFaulted rfl (State.nodes_requireState rfl (s.nodes_finishRead _))
  | brGetlblkinc => cases h; exact State.nodes_unlessFaulted rfl (State.nodes_requireState rfl (s.nodes_finishRead _))
  | brEph =>
    cases h
    refine State.nodes_unlessFaulted rfl (State.nodes_requireState rfl ?_)
    split <;> rfl
  | brSegcopy len term dst =>
    cases h
    exact State.nodes_unlessFaulted rfl (State.nodes_requireState rfl (s.nodes_segcopied len term dst))
  | reset => cases hreset
  | ttInit base w h => cases hreset
  | mqInitctx => exact absurd rfl hmq
  | mqInitdec raw rst addr => exact absurd rfl hmq
  | mqDecode cxi => exact absurd rfl hmq
  | mqCheckbp expected => exact absurd rfl hmq

/-! ### `TT_DECODE` -/

/-- The node `b` follows `a` where no value is unspecified: it keeps `VALID` and `PARENT`, its value is no lower, and it is
`a` itself where `a` is visited. -/
structure TagNode.Follows (a b : TagNode) : Prop extends a.Raised b where
  visited : a.vis = true → b = a

theorem TagNode.Follows.refl (a : TagNode) : a.Follows a := ⟨.refl a, fun _ => rfl⟩

theorem State.node_raise (s : State) (c : Cause) (m : Nat) : (s.raise c).node m = s.node m := by
  rw [State.node, State.raise_nodes]
  rfl

theorem State.node_ttDecide (s : State) (hf : s.nodes.wf s.cfg.ttNodes.toNat) (hc : s.cause = .none) (n : Nat) (thr : Word)
    (hne : (s.ttDecide n thr).cause ≠ .brExhausted) (m : Nat) : (s.node m).Follows ((s.ttDecide n thr).node m) := by
  rcases s.ttDecide_cases n thr with ⟨c, -, e⟩ | ⟨-, -, e | ⟨stack, top, cur, v, f, c, hwalk, hdesc, e⟩⟩
  · rw [e, s.node_raise]; exact .refl _
  · rw [e, s.exhaustedInDecode_eq n hc] at hne
    exact absurd rfl hne
  · obtain ⟨hraised, hsame⟩ := State.node_descend hdesc hf.1 m
    rw [e]
    refine ⟨hraised, fun hvis => hsame fun hm => ?_⟩
    rw [State.vis_of_mem_walkUp hwalk m hm] at hvis
    cases hvis

theorem node_of_exec_ttDecode {s t : State} {node : BitVec 24} {thr : Word} (hf : s.nodes.wf s.cfg.ttNodes.toNat)
    (h : exec (.ttDecode node thr) s = .next t) (hne : s.cause = .none → t.cause ≠ .brExhausted) (m : Nat) :
    (s.node m).Follows (t.node m) := by
  cases h
  by_cases hc : s.cause = .none
  · rw [s.unlessFaulted_of_none _ hc] at hne ⊢
    rcases s.requireState_cases (s.ttDecide node.toNat thr) s.brinit with ⟨-, e⟩ | ⟨-, e⟩
    · rw [e] at hne ⊢
      exact s.node_ttDecide hf hc node.toNat thr (hne hc) m
    · rw [e, s.node_raise]; exact .refl _
  · rw [s.unlessFaulted_of_ne _ hc]; exact .refl _

/-- Settles O48: `TT_DECODE` writes the unvisited nodes of its walk alone, and no other command writes a node. -/
theorem nodeValuesOnlyRise : Obligations.NodeValuesOnlyRise := by
  intro i s t m hf hreset h hne
  suffices hfollows : (s.node m).Follows (t.node m) from
    ⟨hfollows.val, hfollows.visited, hfollows.valid, hfollows.parent⟩
  by_cases hdecode : ∃ node thr, i = .ttDecode node thr
  · obtain ⟨node, thr, rfl⟩ := hdecode
    exact node_of_exec_ttDecode hf h hne m
  · have hnodes : t.nodes = s.nodes := nodes_of_exec hreset (fun node thr e => hdecode ⟨node, thr, e⟩) h
    rw [State.node, State.node, hnodes]
    exact .refl _

end Sys2Proof.Machine
end

section
/-! The registers as the host sees them: `STATUS` and the register map (10_state.md R22, R39), and the initial context states
(R30). -/

namespace Sys2Proof.Machine

/-! ### STATUS -/

/-- The code of every cause stands in the table of 60_exceptions.md R221. -/
theorem Cause.code_mem_causeTable (c : Cause) : (c, c.code.toNat) ∈ causeTable := by
  cases c <;> decide

section
variable (s : State)

theorem State.statusWord_code : s.statusWord.extractLsb' 0 8 = s.cause.code :=
  BitVec.extractLsb'_append_eq_right

theorem State.statusWord_class : s.statusWord.extractLsb' 8 3 = s.cause.cls := by
  rw [State.statusWord, BitVec.extractLsb'_append_eq_of_le (by decide)]
  exact BitVec.extractLsb'_append_eq_right

/-- `FAULTED`, `WARN_EPH` and `WARN_BP`. -/
theorem State.statusWord_flags :
    s.statusWord.getLsbD 16 = s.faulted ∧ s.statusWord.getLsbD 17 = s.warnEph ∧ s.statusWord.getLsbD 18 = s.warnBp := by
  simp only [State.statusWord, BitVec.getLsbD_append, Nat.reduceLT, Nat.reduceSub, if_false]
  simp

/-- The bits between `CLASS` and `FAULTED`, and those above the warnings, read 0. -/
theorem State.statusWord_reserved : s.statusWord.extractLsb' 11 5 = 0 ∧ s.statusWord.extractLsb' 19 13 = 0 := by
  constructor
  · unfold State.statusWord
    iterate 2 rw [BitVec.extractLsb'_append_eq_of_le (by decide)]
    exact BitVec.extractLsb'_append_eq_right
  · unfold State.statusWord
    iterate 6 rw [BitVec.extractLsb'_append_eq_of_le (by decide)]
    exact BitVec.extractLsb'_zero

end

/-- Settles O12: the layout of `STATUS` and the table of codes. -/
theorem statusFields : Obligations.StatusFields := by
  intro s
  obtain ⟨hfaulted, heph, hbp⟩ := s.statusWord_flags
  obtain ⟨hlow, hhigh⟩ := s.statusWord_reserved
  exact ⟨s.statusWord_code, s.statusWord_class, hlow, hfaulted, heph, hbp, hhigh,
    _, s.cause.code_mem_causeTable, congrArg BitVec.toNat s.statusWord_code⟩

/-! ### The register map -/

theorem exec_regread_of_some {s : State} {reg : BitVec 8} {v : Word} (h : s.readRegister reg = some v) :
    exec (.regread reg) s = .next { s with result := v } := by
  show execRegread reg s = _
  rw [execRegread, h]
  rfl

theorem exec_regread_of_undefined {s : State} {reg : BitVec 8} (h : registerDefined reg = false) :
    exec (.regread reg) s = .next (if s.cause = .none then { s with cause := .illegalField } else s) := by
  show execRegread reg s = _
  rw [execRegread, (s.readRegister_eq_none_iff reg).2 h]
  dsimp only
  by_cases hc : s.cause = .none
  · rw [if_pos hc, s.unlessFaulted_of_none _ hc, s.raise_of_none _ hc]
  · rw [if_neg hc, s.unlessFaulted_of_ne _ hc]

theorem State.mqCtrlWord_eq (s : State) : s.mqCtrlWord = BitVec.ofNat 32 (s.raw.toNat + 2 * s.mqinit.toNat) := by
  unfold State.mqCtrlWord
  cases s.raw <;> cases s.mqinit <;> rfl

theorem State.brCtrlWord_eq (s : State) : s.brCtrlWord = BitVec.ofNat 32 s.brinit.toNat := by
  unfold State.brCtrlWord
  cases s.brinit <;> rfl

/-- Registers 0x10 to 0x22 are the contexts in order. -/
theorem State.readRegister_context (s : State) (i : Fin 19) :
    s.readRegister (BitVec.ofNat 8 (0x10 + i.val)) = some ((s.cx.get i).setWidth 32) := by
  fin_cases i <;> rfl

/-- The numbers the map does not list fail the value check of `REGREAD`. -/
theorem registerDefined_of_reserved : ∀ reg : BitVec 8,
    reg = 0x06 ∨ reg = 0x07 ∨ (0x0C ≤ reg ∧ reg ≤ 0x0F) ∨ (0x23 ≤ reg ∧ reg ≤ 0x2F) ∨ 0x34 ≤ reg →
      registerDefined reg = false := by decide

/-- Settles O26: each number of the map is looked up, and a number outside it fails the value check. -/
theorem regreadFollowsRegisterMap : Obligations.RegreadFollowsRegisterMap := by
  intro s
  have hread := @exec_regread_of_some s
  exact ⟨hread rfl, hread rfl, hread rfl, hread rfl, hread rfl, hread rfl, hread rfl, hread rfl, hread rfl,
    hread (congrArg some s.mqCtrlWord_eq), fun i => hread (s.readRegister_context i), hread rfl, hread rfl, hread rfl,
    hread (congrArg some s.brCtrlWord_eq), fun reg hreg => exec_regread_of_undefined (registerDefined_of_reserved reg hreg)⟩

/-! ### The initial context states -/

/-- The table of 10_state.md R30. -/
theorem initialContexts_get : ∀ i : Fin 19, (initialContexts.get i).toNat =
    if i.val = 0 then 8 else if i.val = 17 then 92 else if i.val = 18 then 6 else 0 := by decide

/-- A completed `MQ_INITDEC` with `RST` = 1 leaves the initial context states (41_mq_decoder.md R111). -/
theorem cx_of_exec_mqInitdec_rst {s t : State} {raw : Bool} {addr : Word} (hc : s.cause = .none)
    (h : exec (.mqInitdec raw true addr) s = .next t) (htc : t.cause = .none) : t.cx = initialContexts := by
  cases h
  rw [s.unlessFaulted_of_none _ hc] at htc ⊢
  split at htc
  · rw [s.rangeInInitdec_eq hc] at htc; cases htc
  · rfl

/-- Settles O28: each of the four loads the one table of initial context states. -/
theorem initialContextsLoaded : Obligations.InitialContextsLoaded := by
  intro s initial
  have hinitial : initial initialContexts := initialContexts_get
  refine ⟨fun hc => ⟨initialContexts, ?_, hinitial⟩, fun raw addr t hc h htc => ?_, fun t h => ?_, fun _ _ _ => hinitial⟩
  · exact congrArg Host.Outcome.next (s.unlessFaulted_of_none _ hc)
  · rw [cx_of_exec_mqInitdec_rst hc h htc]; exact hinitial
  · cases h; exact hinitial

end Sys2Proof.Machine
end

section
/-! Canonical stores with equal contents are equal lists (log 3): what a canonical store lists is told by its reads. -/

namespace Sys2Proof.Machine

section
variable {α : Type} [DecidableEq α] {d : α} {size : Nat} {m m' : List (Nat × α)}

/-- A canonical store lists exactly the places that do not read as unlisted, each with the value it reads as. -/
theorem mem_iff_sparseRead (hm : sparseWf d size m) (c : Nat × α) : c ∈ m ↔ c.2 ≠ d ∧ sparseRead d m c.1 = c.2 := by
  obtain ⟨hrising, hlisted, -⟩ := hm
  constructor
  · intro hc
    exact ⟨hlisted c hc, sparseRead_eq_of_mem d m hrising c hc⟩
  · rintro ⟨hne, hread⟩
    have hplace : ∃ e ∈ m, e.1 = c.1 := by
      by_contra hnone
      push Not at hnone
      exact hne (hread.symm.trans (sparseRead_of_not_mem d m c.1 hnone))
    obtain ⟨e, he, hfst⟩ := hplace
    have hsnd : e.2 = c.2 := by rw [← sparseRead_eq_of_mem d m hrising e he, hfst, hread]
    rwa [← Prod.ext hfst hsnd]

/-- Canonical stores that read the same at every place are the same list. -/
theorem eq_of_sparseRead_eq (hm : sparseWf d size m) (hm' : sparseWf d size m')
    (hread : ∀ a, sparseRead d m a = sparseRead d m' a) : m = m' := by
  have hirrefl : Std.Irrefl fun x y : Nat × α => x.1 < y.1 := ⟨fun x => Nat.lt_irrefl x.1⟩
  have hantisymm : Std.Antisymm fun x y : Nat × α => x.1 < y.1 := ⟨fun _ _ h h' => absurd h (Nat.lt_asymm h')⟩
  refine hm.1.eq_of_mem_iff hm'.1 fun c => ?_
  rw [mem_iff_sparseRead hm, mem_iff_sparseRead hm', hread]

end

/-- Settles O11: a memory is a sparse store of bytes. -/
theorem canonicalMemoryIsItsBytes : Obligations.CanonicalMemoryIsItsBytes :=
  fun _ _ _ hm hm' hread => eq_of_sparseRead_eq hm hm' hread

end Sys2Proof.Machine
end

section
/-! The host memory port (20_memory.md R55): how a step serves an access, and what it leaves. -/

namespace Sys2Proof.Machine

section
variable (s : State) (space : MemSpace)

/-! ### The port and the bytes -/

/-- A step takes the oldest event from the port and serves it. -/
theorem step_of_port {e : PortEvent} {rest : List PortEvent} (h : s.port = e :: rest) :
    step s = serve e { s with port := rest } := by
  rw [step, serveNext, h]

/-- Storing a byte writes nothing but the memories. -/
theorem State.storeByte_eq (a : Nat) (v : Byte) : s.storeByte space a v =
    { s with phmem := (s.storeByte space a v).phmem, cbmem := (s.storeByte space a v).cbmem } := by
  cases space <;> rfl

/-- The byte stored reads back, and every other byte of both memories reads as before. -/
theorem State.byteOf_storeByte (hph : s.phmem.wf s.cfg.phmemSize.toNat) (hcb : s.cbmem.wf s.cfg.cbmemSize.toNat)
    (a : Nat) (v : Byte) (sp : MemSpace) (b : Nat) :
    (s.storeByte space a v).byteOf sp b = if sp = space ∧ b = a then v else s.byteOf sp b := by
  cases space with
  | phmem =>
    cases sp with
    | phmem => simpa [State.byteOf, State.storeByte, State.phByte] using s.phmem.read_write hph.1 a b v
    | cbmem => rfl
  | cbmem =>
    cases sp with
    | phmem => rfl
    | cbmem => simpa [State.byteOf, State.storeByte, State.cbByte] using s.cbmem.read_write hcb.1 a b v

theorem State.hostWrite_of_lt {a : Word} (h : a.toNat < s.sizeOf space) (v : Byte) :
    s.hostWrite space a v = { s.storeByte space a.toNat v with reply := some .written } := if_pos h

theorem State.hostWrite_of_le {a : Word} (h : s.sizeOf space ≤ a.toNat) (v : Byte) :
    s.hostWrite space a v = { s with reply := some .rejected } := if_neg (Nat.not_lt.2 h)

theorem State.hostRead_of_lt {a : Word} (h : a.toNat < s.sizeOf space) :
    s.hostRead space a = { s with reply := some (.readData (s.byteOf space a.toNat)) } := if_pos h

theorem State.hostRead_of_le {a : Word} (h : s.sizeOf space ≤ a.toNat) :
    s.hostRead space a = { s with reply := some .rejected } := if_neg (Nat.not_lt.2 h)

/-! ### The step that serves an access -/

/-- Taking an event from the port changes no size. -/
theorem State.sizeOf_withPort (rest : List PortEvent) : ({ s with port := rest } : State).sizeOf space = s.sizeOf space := by
  cases space <;> rfl

/-- Taking an event from the port changes no byte. -/
theorem State.byteOf_withPort (rest : List PortEvent) (a : Nat) :
    ({ s with port := rest } : State).byteOf space a = s.byteOf space a := by
  cases space <;> rfl

/-- Taking an event from the port changes nothing a store makes of the memories. -/
theorem State.storeByte_withPort (rest : List PortEvent) (a : Nat) (v : Byte) :
    ({ s with port := rest } : State).storeByte space a v = { s.storeByte space a v with port := rest } := by
  cases space <;> rfl

variable {space} {a : Word} {v : Byte} {rest : List PortEvent}

theorem step_hostWrite_of_lt (hport : s.port = .hostWrite space a v :: rest) (ha : a.toNat < s.sizeOf space) :
    step s = .next { s with
      port := rest
      reply := some .written
      phmem := (s.storeByte space a.toNat v).phmem
      cbmem := (s.storeByte space a.toNat v).cbmem } := by
  rw [← s.sizeOf_withPort space rest] at ha
  rw [step_of_port s hport, serve, State.hostWrite_of_lt _ space ha, s.storeByte_withPort, s.storeByte_eq]

theorem step_hostWrite_of_le (hport : s.port = .hostWrite space a v :: rest) (ha : s.sizeOf space ≤ a.toNat) :
    step s = .next { s with port := rest, reply := some .rejected } := by
  rw [← s.sizeOf_withPort space rest] at ha
  rw [step_of_port s hport, serve, State.hostWrite_of_le _ space ha]

theorem step_hostRead_of_lt (hport : s.port = .hostRead space a :: rest) (ha : a.toNat < s.sizeOf space) :
    step s = .next { s with port := rest, reply := some (.readData (s.byteOf space a.toNat)) } := by
  rw [← s.sizeOf_withPort space rest] at ha
  rw [step_of_port s hport, serve, State.hostRead_of_lt _ space ha, s.byteOf_withPort]

theorem step_hostRead_of_le (hport : s.port = .hostRead space a :: rest) (ha : s.sizeOf space ≤ a.toNat) :
    step s = .next { s with port := rest, reply := some .rejected } := by
  rw [← s.sizeOf_withPort space rest] at ha
  rw [step_of_port s hport, serve, State.hostRead_of_le _ space ha]

end

/-- Settles O9: the write by the byte it stores, the read by the byte it answers, and either one past the size. -/
theorem hostPortReadsAndWrites : Obligations.HostPortReadsAndWrites := by
  intro s space a v rest
  refine ⟨fun hph hcb hport ha => ?_, step_hostRead_of_lt s, ?_⟩
  · refine ⟨_, _, step_hostWrite_of_lt s hport ha, fun sp b => ?_⟩
    rw [← s.storeByte_eq space]
    exact s.byteOf_storeByte space hph hcb a.toNat v sp b
  · rintro (hport | hport) ha
    · exact step_hostWrite_of_le s hport ha
    · exact step_hostRead_of_le s hport ha

end Sys2Proof.Machine
end

section
/-! The memories under every command (20_memory.md R51, R65, 43_bitstream.md R170): `BR_SEGCOPY` writes CBMEM, and no command
writes anything else of them. -/

namespace Sys2Proof.Machine

/-- Both memories of `t` are those of `s`. -/
structure State.KeepsMemories (s t : State) : Prop where
  phmem : t.phmem = s.phmem
  cbmem : t.cbmem = s.cbmem

/-! ### The shared operations -/

namespace State.KeepsMemories

theorem refl (s : State) : s.KeepsMemories s := ⟨rfl, rfl⟩

section
variable {s t : State} (ht : s.KeepsMemories t)
include ht

theorem raise (c : Cause) : s.KeepsMemories (t.raise c) :=
  ⟨(t.raise_phmem c).trans ht.phmem, (t.raise_cbmem c).trans ht.cbmem⟩

theorem unlessFaulted : s.KeepsMemories (s.unlessFaulted t) := State.unlessFaulted_of (.refl s) fun _ => ht

theorem requireField (ok : Bool) : s.KeepsMemories (s.requireField ok t) :=
  State.requireField_of ((refl s).raise _) fun _ => ht

theorem requireState (ok : Bool) : s.KeepsMemories (s.requireState ok t) :=
  State.requireState_of ((refl s).raise _) fun _ => ht

end

/-! ### In-flight faults and the data parts of the commands -/

variable (s : State)

theorem exhaustedInRead : s.KeepsMemories s.exhaustedInRead :=
  ⟨State.raise_phmem _ _, State.raise_cbmem _ _⟩

theorem exhaustedInFlush : s.KeepsMemories s.exhaustedInFlush :=
  ⟨State.raise_phmem _ _, State.raise_cbmem _ _⟩

theorem exhaustedInDecode (n : Nat) : s.KeepsMemories (s.exhaustedInDecode n) :=
  ⟨(exhaustedInRead s).phmem, (exhaustedInRead s).cbmem⟩

theorem rangeInInitdec : s.KeepsMemories s.rangeInInitdec :=
  ⟨State.raise_phmem _ _, State.raise_cbmem _ _⟩

theorem rangeInDecode (i : Fin 19) : s.KeepsMemories (s.rangeInDecode i) :=
  ⟨State.raise_phmem _ _, State.raise_cbmem _ _⟩

theorem mqDecide (i : Fin 19) : s.KeepsMemories (s.mqDecide i) := by
  unfold State.mqDecide
  split
  · cases s.rawBit s.mqRegs with
    | none => exact rangeInDecode s i
    | some p => exact ⟨rfl, rfl⟩
  · cases s.decideArith (s.cx.get i) s.mqRegs with
    | none => exact rangeInDecode s i
    | some d => exact ⟨rfl, rfl⟩

theorem ttDecide (n : Nat) (thr : Word) : s.KeepsMemories (s.ttDecide n thr) := by
  rcases s.ttDecide_cases n thr with ⟨c, -, e⟩ | ⟨-, -, e | ⟨stack, top, cur, v, f, c, -, -, e⟩⟩
  · rw [e]; exact (refl s).raise c
  · rw [e]; exact exhaustedInDecode s n
  · rw [e]; exact ⟨rfl, rfl⟩

theorem finishRead (r : Option (Nat × Cursor)) : s.KeepsMemories (s.finishRead r) := by
  cases r with
  | none => exact exhaustedInRead s
  | some p => exact ⟨rfl, rfl⟩

end State.KeepsMemories

/-! ### Commands -/

/-- No command but `BR_SEGCOPY` writes a memory. -/
theorem keepsMemories_of_exec {i : Instr} {s t : State} (hcopy : ∀ len term dst, i ≠ .brSegcopy len term dst)
    (h : exec i s = .next t) : s.KeepsMemories t := by
  cases i with
  | nop => cases h; exact (State.KeepsMemories.refl s).unlessFaulted
  | reset => cases h; exact ⟨rfl, rfl⟩
  | regread reg =>
    cases h
    split
    · exact ⟨rfl, rfl⟩
    · exact ((State.KeepsMemories.refl s).raise _).unlessFaulted
  | clrwarn => cases h; exact State.KeepsMemories.unlessFaulted ⟨rfl, rfl⟩
  | mqInitctx => cases h; exact State.KeepsMemories.unlessFaulted ⟨rfl, rfl⟩
  | mqInitdec raw rst addr =>
    cases h
    refine State.KeepsMemories.unlessFaulted ?_
    split
    · exact .rangeInInitdec s
    · cases rst <;> exact ⟨rfl, rfl⟩
  | mqDecode cxi =>
    cases h
    refine State.KeepsMemories.unlessFaulted ?_
    split
    · exact (State.KeepsMemories.refl s).raise _
    · exact (State.KeepsMemories.mqDecide s _).requireState _
  | mqCheckbp expected =>
    cases h
    refine (State.KeepsMemories.requireState ?_ _).unlessFaulted
    split <;> exact ⟨rfl, rfl⟩
  | ttInit base w h' =>
    cases h
    refine (State.KeepsMemories.requireField ?_ _).unlessFaulted
    dsimp only
    split
    · exact ⟨rfl, rfl⟩
    · exact (State.KeepsMemories.refl s).raise _
  | ttDecode node thr => cases h; exact ((State.KeepsMemories.ttDecide s _ thr).requireState _).unlessFaulted
  | brSetend stop =>
    cases h
    refine (State.KeepsMemories.requireField ?_ _).unlessFaulted
    exact ⟨rfl, rfl⟩
  | brStart pos => cases h; exact State.KeepsMemories.unlessFaulted ⟨rfl, rfl⟩
  | brGetbits n =>
    cases h
    exact (((State.KeepsMemories.finishRead s _).requireState _).requireField _).unlessFaulted
  | brFlush =>
    cases h
    refine (State.KeepsMemories.requireState ?_ _).unlessFaulted
    split
    · exact .exhaustedInFlush s
    · exact ⟨rfl, rfl⟩
  | brGetnpasses => cases h; exact ((State.KeepsMemories.finishRead s _).requireState _).unlessFaulted
  | brGetlblkinc => cases h; exact ((State.KeepsMemories.finishRead s _).requireState _).unlessFaulted
  | brEph =>
    cases h
    refine (State.KeepsMemories.requireState ?_ _).unlessFaulted
    split <;> exact ⟨rfl, rfl⟩
  | brSegcopy len term dst => exact absurd rfl (hcopy len term dst)

theorem State.phmem_segcopied (s : State) (len : Half) (term : Bool) (dst : Word) :
    (s.segcopied len term dst).phmem = s.phmem := by
  unfold State.segcopied
  dsimp only
  split
  · split
    · rfl
    · exact s.raise_phmem _
  · exact s.raise_phmem _

/-- `BR_SEGCOPY` reads PHMEM and does not write it. -/
theorem phmem_of_exec_brSegcopy {s t : State} {len : Half} {term : Bool} {dst : Word}
    (h : exec (.brSegcopy len term dst) s = .next t) : t.phmem = s.phmem := by
  cases h
  have hcopied : (s.requireState (s.brinit && s.byteAligned) (s.segcopied len term dst)).phmem = s.phmem :=
    State.requireState_of (P := fun u => u.phmem = s.phmem) (s.raise_phmem _) fun _ => s.phmem_segcopied len term dst
  exact State.unlessFaulted_of (P := fun u => u.phmem = s.phmem) rfl fun _ => hcopied

/-- Settles O10: `BR_SEGCOPY` keeps PHMEM, and every other command keeps both memories. -/
theorem onlySegcopyWritesMemory : Obligations.OnlySegcopyWritesMemory := by
  intro i s t h
  by_cases hi : ∃ len term dst, i = .brSegcopy len term dst
  · obtain ⟨len, term, dst, rfl⟩ := hi
    exact ⟨phmem_of_exec_brSegcopy h, .inr ⟨len, term, dst, rfl⟩⟩
  · have hkept : s.KeepsMemories t := keepsMemories_of_exec (fun len term dst e => hi ⟨len, term, dst, e⟩) h
    exact ⟨hkept.phmem, .inl hkept.cbmem⟩

end Sys2Proof.Machine
end

section
/-! The rows of the encoding (30_encoding.md R73, R74): the zero check and the operand fields of each row, one arm per row
where the row has operands. The decoder is tied to them by `decodeFields_of_row`, the encoder by the round trips of the
operand fields, and the row masks by `zerosHold_iff_masks`. -/

namespace Sys2Proof

/-- The zero check of a command's row (30_encoding.md R74). -/
def Instr.zerosHold : Instr → BitVec 24 → Word → Bool
  | .regread _, a, b => a.extractLsb' 8 16 == 0 && b == 0
  | .mqInitdec _ _ _, a, _ => a.extractLsb' 2 22 == 0
  | .mqDecode _, a, b => a.extractLsb' 5 19 == 0 && b == 0
  | .mqCheckbp _, a, _ => a == 0
  | .ttInit _ _ _, _, _ => true
  | .ttDecode _ _, _, _ => true
  | .brSetend _, a, _ => a == 0
  | .brStart _, a, _ => a == 0
  | .brGetbits _, a, b => a.extractLsb' 6 18 == 0 && b == 0
  | .brSegcopy _ _ _, a, _ => a.extractLsb' 17 7 == 0
  | _, a, b => a == 0 && b == 0

/-- The command of the same row with the operands that the fields `a` and `b` hold (30_encoding.md R74). -/
def Instr.withOperands : Instr → BitVec 24 → Word → Instr
  | .regread _, a, _ => .regread (a.extractLsb' 0 8)
  | .mqInitdec _ _ _, a, b => .mqInitdec (a.getLsbD 0) (a.getLsbD 1) b
  | .mqDecode _, a, _ => .mqDecode (a.extractLsb' 0 5)
  | .mqCheckbp _, _, b => .mqCheckbp b
  | .ttInit _ _ _, a, b => .ttInit a (b.extractLsb' 16 16) (b.extractLsb' 0 16)
  | .ttDecode _ _, a, b => .ttDecode a b
  | .brSetend _, _, b => .brSetend b
  | .brStart _, _, b => .brStart b
  | .brGetbits _, a, _ => .brGetbits (a.extractLsb' 0 6)
  | .brSegcopy _ _ _, a, b => .brSegcopy (a.extractLsb' 0 16) (a.getLsbD 16) b
  | i, _, _ => i

@[simp] theorem opcodeOf_withOperands (i : Instr) (a : BitVec 24) (b : Word) :
    opcodeOf (i.withOperands a b) = opcodeOf i := by cases i <;> rfl

/-- On the opcode of a row the decoder makes that row's zero check and reads that row's operands. -/
theorem decodeFields_of_row (i : Instr) (a : BitVec 24) (b : Word) :
    decodeFields (opcodeOf i) a b = zeroChecked (i.zerosHold a b) (i.withOperands a b) := by cases i <;> rfl

theorem zeroChecked_eq_ok_iff {zeros : Bool} {i j : Instr} : zeroChecked zeros i = .ok j ↔ zeros = true ∧ i = j := by
  cases zeros <;> simp [zeroChecked]

/-! ### Operand fields, from commands and back -/

theorem ofBool_getLsbD {n : Nat} (x : BitVec n) (k : Nat) : BitVec.ofBool (x.getLsbD k) = x.extractLsb' k 1 := by
  ext i hi
  simp [show i = 0 by omega]

/-- A field whose high bits are zero is its low bits, extended. -/
theorem zero_append_low {m n : Nat} {x : BitVec (m + n)} (h : x.extractLsb' n m = 0) : 0#m ++ x.extractLsb' 0 n = x := by
  rw [← BitVec.extractLsb'_append_extractLsb' (x := x), h, BitVec.extractLsb'_append_eq_right]
  rfl

/-- A field whose bits above a flag are zero is the flag and the bits below it, extended. -/
theorem zero_flag_append_low {m n : Nat} {x : BitVec (m + 1 + n)} (h : x.extractLsb' (n + 1) m = 0) :
    0#m ++ BitVec.ofBool (x.getLsbD n) ++ x.extractLsb' 0 n = x := by
  rw [ofBool_getLsbD, show 0#m = x.extractLsb' (n + 1) m from h.symm, BitVec.extractLsb'_append_extractLsb'_eq_extractLsb' rfl,
    BitVec.extractLsb'_append_extractLsb']

/-- The bits above a flag, in a field whose bits there are zero. -/
theorem extractLsb'_zero_flag_append {m n : Nat} (flag : Bool) (x : BitVec n) :
    (0#m ++ BitVec.ofBool flag ++ x).extractLsb' (n + 1) m = 0 := by
  rw [BitVec.extractLsb'_append_eq_of_le (Nat.le_succ n), show n.succ - n = 1 by omega]
  exact BitVec.extractLsb'_append_eq_left

/-- The flag above the low bits of a field. -/
theorem getLsbD_zero_flag_append {m n : Nat} (flag : Bool) (x : BitVec n) :
    (0#m ++ BitVec.ofBool flag ++ x).getLsbD n = flag := by
  simp [BitVec.getElem_append]

/-- The operand fields a command is written with pass its row's zero check. -/
theorem Instr.zerosHold_operands (i : Instr) : i.zerosHold (operandA i) (operandB i) = true := by
  cases i with
  | regread reg => exact Bool.and_eq_true_iff.2 ⟨beq_iff_eq.2 BitVec.extractLsb'_append_eq_left, rfl⟩
  | mqInitdec raw rst addr => exact beq_iff_eq.2 (extractLsb'_zero_flag_append rst (BitVec.ofBool raw))
  | mqDecode cxi => exact Bool.and_eq_true_iff.2 ⟨beq_iff_eq.2 BitVec.extractLsb'_append_eq_left, rfl⟩
  | brGetbits n => exact Bool.and_eq_true_iff.2 ⟨beq_iff_eq.2 BitVec.extractLsb'_append_eq_left, rfl⟩
  | brSegcopy len term dst => exact beq_iff_eq.2 (extractLsb'_zero_flag_append term len)
  | _ => rfl

/-- The operands are read back from the fields they are written to. -/
theorem Instr.withOperands_operands (i : Instr) : i.withOperands (operandA i) (operandB i) = i := by
  cases i with
  | regread reg => exact congrArg Instr.regread BitVec.extractLsb'_append_eq_right
  | mqInitdec raw rst addr =>
    have hraw : (operandA (.mqInitdec raw rst addr)).getLsbD 0 = raw := by
      rw [operandA, BitVec.append_ofBool, BitVec.getLsbD_concat_zero]
    have hrst : (operandA (.mqInitdec raw rst addr)).getLsbD 1 = rst :=
      getLsbD_zero_flag_append rst (BitVec.ofBool raw)
    rw [withOperands, hraw, hrst]
    rfl
  | mqDecode cxi => exact congrArg Instr.mqDecode BitVec.extractLsb'_append_eq_right
  | ttInit base w h =>
    exact congrArg₂ (Instr.ttInit base) BitVec.extractLsb'_append_eq_left BitVec.extractLsb'_append_eq_right
  | brGetbits n => exact congrArg Instr.brGetbits BitVec.extractLsb'_append_eq_right
  | brSegcopy len term dst =>
    exact congrArg₂ (Instr.brSegcopy · · dst) BitVec.extractLsb'_append_eq_right (getLsbD_zero_flag_append term len)
  | _ => rfl

/-- Fields that pass a row's zero check are the fields of the command read from them: no bit of them is dropped. -/
theorem Instr.operands_withOperands {i : Instr} {a : BitVec 24} {b : Word} (h : i.zerosHold a b = true) :
    operandA (i.withOperands a b) = a ∧ operandB (i.withOperands a b) = b := by
  cases i with
  | regread reg =>
    obtain ⟨ha, hb⟩ := Bool.and_eq_true_iff.1 h
    exact ⟨zero_append_low (beq_iff_eq.1 ha), (beq_iff_eq.1 hb).symm⟩
  | mqInitdec raw rst addr =>
    refine ⟨?_, rfl⟩
    change 0#22 ++ BitVec.ofBool (a.getLsbD 1) ++ BitVec.ofBool (a.getLsbD 0) = a
    rw [ofBool_getLsbD a 0]
    exact zero_flag_append_low (m := 22) (n := 1) (beq_iff_eq.1 h)
  | mqDecode cxi =>
    obtain ⟨ha, hb⟩ := Bool.and_eq_true_iff.1 h
    exact ⟨zero_append_low (beq_iff_eq.1 ha), (beq_iff_eq.1 hb).symm⟩
  | mqCheckbp expected => exact ⟨(beq_iff_eq.1 h).symm, rfl⟩
  | ttInit base w h => exact ⟨rfl, BitVec.extractLsb'_append_extractLsb'⟩
  | ttDecode node thr => exact ⟨rfl, rfl⟩
  | brSetend stop => exact ⟨(beq_iff_eq.1 h).symm, rfl⟩
  | brStart pos => exact ⟨(beq_iff_eq.1 h).symm, rfl⟩
  | brGetbits n =>
    obtain ⟨ha, hb⟩ := Bool.and_eq_true_iff.1 h
    exact ⟨zero_append_low (beq_iff_eq.1 ha), (beq_iff_eq.1 hb).symm⟩
  | brSegcopy len term dst => exact ⟨zero_flag_append_low (m := 7) (n := 16) (beq_iff_eq.1 h), rfl⟩
  | _ =>
    obtain ⟨ha, hb⟩ := Bool.and_eq_true_iff.1 h
    exact ⟨(beq_iff_eq.1 ha).symm, (beq_iff_eq.1 hb).symm⟩

end Sys2Proof

namespace Sys2Proof.Machine

/-! ### Which opcodes have a row -/

/-- A listed opcode is that of no command (30_encoding.md R75). -/
theorem reservedOpcode_opcodeOf (i : Instr) : reservedOpcode (opcodeOf i) = false := by cases i <;> rfl

/-- One command of each row. -/
def oneOfEachRow : List Instr :=
  [.nop, .reset, .regread 0, .clrwarn, .mqInitctx, .mqInitdec false false 0, .mqDecode 0, .mqCheckbp 0, .ttInit 0 0 0,
    .ttDecode 0 0, .brSetend 0, .brStart 0, .brGetbits 0, .brFlush, .brGetnpasses, .brGetlblkinc, .brEph,
    .brSegcopy 0 false 0]

/-- Every opcode outside the listed ranges is that of a row (30_encoding.md R73, R75). -/
theorem exists_row_of_not_reserved :
    ∀ opc : BitVec 8, reservedOpcode opc = false → ∃ i ∈ oneOfEachRow, opcodeOf i = opc := by decide

/-- A reserved opcode fails each of the decoder's opcode tests, one for each row (30_encoding.md R75). -/
theorem decodeFields_reserved {opc : BitVec 8} (h : reservedOpcode opc = true) (a : BitVec 24) (b : Word) :
    decodeFields opc a b = .error .reservedOpcode := by
  have hne : ∀ i, ¬ opc = opcodeOf i := by
    rintro i rfl
    rw [reservedOpcode_opcodeOf] at h
    cases h
  exact (if_neg (hne .nop)).trans <| (if_neg (hne .reset)).trans <| (if_neg (hne (.regread 0))).trans <|
    (if_neg (hne .clrwarn)).trans <| (if_neg (hne .mqInitctx)).trans <| (if_neg (hne (.mqInitdec false false 0))).trans <|
    (if_neg (hne (.mqDecode 0))).trans <| (if_neg (hne (.mqCheckbp 0))).trans <| (if_neg (hne (.ttInit 0 0 0))).trans <|
    (if_neg (hne (.ttDecode 0 0))).trans <| (if_neg (hne (.brSetend 0))).trans <| (if_neg (hne (.brStart 0))).trans <|
    (if_neg (hne (.brGetbits 0))).trans <| (if_neg (hne .brFlush)).trans <| (if_neg (hne .brGetnpasses)).trans <|
    (if_neg (hne .brGetlblkinc)).trans <| (if_neg (hne .brEph)).trans <| if_neg (hne (.brSegcopy 0 false 0))

/-- The decoder on any word: a reserved opcode, or a row with its zero check and its operands. -/
theorem decode_cases (w : CommandWord) :
    (reservedOpcode (opcField w) = true ∧ decode w = .error .reservedOpcode) ∨
      ∃ i, opcodeOf i = opcField w ∧
        decode w = zeroChecked (i.zerosHold (aField w) (bField w)) (i.withOperands (aField w) (bField w)) := by
  cases hres : reservedOpcode (opcField w) with
  | true => exact .inl ⟨rfl, decodeFields_reserved hres _ _⟩
  | false =>
    obtain ⟨i, -, hopc⟩ := exists_row_of_not_reserved _ hres
    refine .inr ⟨i, hopc, ?_⟩
    rw [decode, ← hopc, decodeFields_of_row]

/-! ### The round trips -/

/-- Settles O1: the encoder's fields pass the row's zero check and hold the row's operands. -/
theorem decodeReadsBackEncode : Obligations.DecodeReadsBackEncode := by
  intro i
  rw [encode, decode_commandWord, decodeFields_of_row, i.zerosHold_operands, i.withOperands_operands]
  rfl

/-- Settles O2: a word that passes the zero check of its opcode's row is made of that opcode and the fields of the operands
read from it. -/
theorem encodeReadsBackDecode : Obligations.EncodeReadsBackDecode := by
  intro w i h
  rcases decode_cases w with ⟨-, e⟩ | ⟨row, hopc, e⟩
  · rw [e] at h; cases h
  · obtain ⟨hzeros, rfl⟩ := zeroChecked_eq_ok_iff.1 (e.symm.trans h)
    obtain ⟨ha, hb⟩ := Instr.operands_withOperands hzeros
    rw [encode, opcodeOf_withOperands, ha, hb, hopc, commandWord_fields]

end Sys2Proof.Machine
end

section
/-! The row masks (30_encoding.md R74): a word matches a row exactly where it has the row's opcode and passes the row's zero
check. -/

namespace Sys2Proof.Machine

/-! ### Masks on the fields of a word -/

/-- Two words are the same where their fields are (30_encoding.md R70). -/
theorem commandWord_eq_iff {opc opc' : BitVec 8} {a a' : BitVec 24} {b b' : Word} :
    commandWord opc a b = commandWord opc' a' b' ↔ opc = opc' ∧ a = a' ∧ b = b' := by
  constructor
  · intro h
    refine ⟨?_, ?_, ?_⟩
    · simpa only [opcField_commandWord] using congrArg opcField h
    · simpa only [aField_commandWord] using congrArg aField h
    · simpa only [bField_commandWord] using congrArg bField h
  · rintro ⟨rfl, rfl, rfl⟩; rfl

/-- A mask of the bits from `n` up tests those bits alone. -/
theorem and_highMask_eq_zero_iff {m n : Nat} (x : BitVec (m + n)) :
    x &&& (BitVec.allOnes m ++ 0#n) = 0 ↔ x.extractLsb' n m = 0 := by
  rw [← BitVec.append_left_inj (0#n) (s₁ := x.extractLsb' n m)]
  have hand : x &&& (BitVec.allOnes m ++ 0#n) = x.extractLsb' n m ++ 0#n := by
    conv_lhs => rw [← BitVec.extractLsb'_append_extractLsb' (x := x)]
    rw [BitVec.and_append, BitVec.and_allOnes, BitVec.and_zero]
  rw [hand]
  exact Eq.congr_right BitVec.zero_append_zero.symm

/-- A mask of all bits tests all of them. -/
theorem and_allOnes_eq_zero_iff {n : Nat} (x : BitVec n) : x &&& BitVec.allOnes n = 0 ↔ x = 0 := by rw [BitVec.and_allOnes]

/-! ### The zero checks as masks -/

/-- A row with operands in the low `n` bits of `A` and none in `B`. -/
theorem lowOperands_iff_masks {m n : Nat} (a : BitVec (m + n)) (b : Word) : (a.extractLsb' n m == 0 && b == 0) = true ↔
    a &&& (BitVec.allOnes m ++ 0#n) = 0 ∧ b &&& BitVec.allOnes 32 = 0 := by
  rw [and_highMask_eq_zero_iff, and_allOnes_eq_zero_iff, Bool.and_eq_true, beq_iff_eq, beq_iff_eq]

/-- A row with operands in the low `n` bits of `A` and in all of `B`. -/
theorem lowAndBOperands_iff_masks {m n : Nat} (a : BitVec (m + n)) (b : Word) : (a.extractLsb' n m == 0) = true ↔
    a &&& (BitVec.allOnes m ++ 0#n) = 0 ∧ b &&& 0 = 0 := by
  rw [and_highMask_eq_zero_iff, beq_iff_eq, and_iff_left (show b &&& 0 = 0 from BitVec.and_zero)]

/-- A row whose one operand is `B`. -/
theorem bOperand_iff_masks (a : BitVec 24) (b : Word) : (a == 0) = true ↔ a &&& BitVec.allOnes 24 = 0 ∧ b &&& 0 = 0 := by
  rw [and_allOnes_eq_zero_iff, beq_iff_eq, and_iff_left (show b &&& 0 = 0 from BitVec.and_zero)]

/-- A row whose operands fill both fields. -/
theorem allOperands_iff_masks (a : BitVec 24) (b : Word) : true = true ↔ a &&& 0 = 0 ∧ b &&& 0 = 0 :=
  iff_of_true rfl ⟨BitVec.and_zero, BitVec.and_zero⟩

/-- A row without operands. -/
theorem noOperands_iff_masks (a : BitVec 24) (b : Word) : (a == 0 && b == 0) = true ↔
    a &&& BitVec.allOnes 24 = 0 ∧ b &&& BitVec.allOnes 32 = 0 := by
  rw [and_allOnes_eq_zero_iff, and_allOnes_eq_zero_iff, Bool.and_eq_true, beq_iff_eq, beq_iff_eq]

/-! ### Rows -/

/-- The zero check of a row tests the bits that the row's mask keeps of the operand fields. -/
theorem zerosHold_iff_masks (i : Instr) (a : BitVec 24) (b : Word) :
    i.zerosHold a b = true ↔ a &&& aField (rowMask i) = 0 ∧ b &&& bField (rowMask i) = 0 := by
  cases i <;> rw [rowMask]
  case regread reg => exact lowOperands_iff_masks (m := 16) (n := 8) a b
  case mqInitdec raw rst addr => exact lowAndBOperands_iff_masks (m := 22) (n := 2) a b
  case mqDecode cxi => exact lowOperands_iff_masks (m := 19) (n := 5) a b
  case mqCheckbp expected => exact bOperand_iff_masks a b
  case ttInit base w h => exact allOperands_iff_masks a b
  case ttDecode node thr => exact allOperands_iff_masks a b
  case brSetend stop => exact bOperand_iff_masks a b
  case brStart pos => exact bOperand_iff_masks a b
  case brGetbits n => exact lowOperands_iff_masks (m := 18) (n := 6) a b
  case brSegcopy len term dst => exact lowAndBOperands_iff_masks (m := 7) (n := 17) a b
  all_goals exact noOperands_iff_masks a b

/-- Every row's mask keeps all of `OPC`. -/
theorem opcField_rowMask (i : Instr) : opcField (rowMask i) = 0xFF := by cases i <;> rw [rowMask] <;> decide

/-- A word matches a row by its opcode and the row's zero check. -/
theorem matchesRow_iff (i : Instr) (w : CommandWord) :
    w &&& rowMask i = rowMatch i ↔ opcField w = opcodeOf i ∧ i.zerosHold (aField w) (bField w) = true := by
  have hfields : w &&& rowMask i =
      commandWord (opcField w) (aField w &&& aField (rowMask i)) (bField w &&& bField (rowMask i)) := by
    rw [← Laws.and_commandWord, ← opcField_rowMask i, commandWord_fields, commandWord_fields]
  rw [hfields, rowMatch, commandWord_eq_iff, zerosHold_iff_masks]

/-- A word decodes to a command of a row by its opcode and the row's zero check. -/
theorem decodesToRow_iff (i : Instr) (w : CommandWord) : (∃ j, decode w = .ok j ∧ opcodeOf j = opcodeOf i) ↔
    opcField w = opcodeOf i ∧ i.zerosHold (aField w) (bField w) = true := by
  constructor
  · rintro ⟨j, hj, hrow⟩
    have hopc : opcField w = opcodeOf i := by
      rw [← encodeReadsBackDecode w j hj, encode, opcField_commandWord, hrow]
    rw [decode, hopc, decodeFields_of_row] at hj
    exact ⟨hopc, (zeroChecked_eq_ok_iff.1 hj).1⟩
  · rintro ⟨hopc, hzeros⟩
    refine ⟨i.withOperands (aField w) (bField w), ?_, opcodeOf_withOperands i _ _⟩
    rw [decode, hopc, decodeFields_of_row, hzeros]
    rfl

/-- Settles O3: both sides say that the word has the row's opcode and passes the row's zero check. -/
theorem decodeFollowsRowMasks : Obligations.DecodeFollowsRowMasks := fun w i =>
  (matchesRow_iff i w).trans (decodesToRow_iff i w).symm

end Sys2Proof.Machine
end

section
/-! Words and commands that fail a check (30_encoding.md R75, R76, R78): a reserved opcode, a row's zero and value checks, and
the state checks of the units. -/

namespace Sys2Proof.Machine

/-! ### Faults before any effect -/

/-- A failed check records its cause and changes nothing else; a faulted block refuses. -/
theorem State.unlessFaulted_raise (s : State) (c : Cause) :
    s.unlessFaulted (s.raise c) = if s.cause = .none then { s with cause := c } else s := by
  by_cases h : s.cause = .none
  · rw [s.unlessFaulted_of_none _ h, s.raise_of_none c h, if_pos h]
  · rw [s.unlessFaulted_of_ne _ h, if_neg h]

/-- A word that is no command (30_encoding.md R75, R76). -/
theorem executeWord_of_error {w : CommandWord} {e : DecodeError} (h : decode w = .error e) (s : State) :
    executeWord w s = .next (if s.cause = .none then { s with cause := causeOfReject e } else s) := by
  rw [executeWord, h, ← s.unlessFaulted_raise]

/-- The listed opcodes are those that no row has (30_encoding.md R73, R75). -/
theorem reservedOpcode_iff (opc : BitVec 8) : reservedOpcode opc = true ↔ ∀ i, opcodeOf i ≠ opc := by
  constructor
  · rintro h i rfl
    rw [reservedOpcode_opcodeOf] at h
    cases h
  · intro hne
    by_contra h
    obtain ⟨i, -, hopc⟩ := exists_row_of_not_reserved opc (Bool.eq_false_iff.2 h)
    exact hne i hopc

/-- Settles O4: a reserved opcode is that of no row, and the decoder reports it whatever the operand fields. -/
theorem reservedOpcodesFault : Obligations.ReservedOpcodesFault := by
  refine ⟨reservedOpcode_iff, fun opc a b s hres hc => ?_⟩
  have hdecode : decode (commandWord opc a b) = .error .reservedOpcode := by
    rw [decode_commandWord, decodeFields_reserved hres]
  rw [executeWord_of_error hdecode, if_pos hc]
  rfl

/-! ### Value checks -/

/-- A value check that fails, first in the command: ILLEGAL_FIELD, or refused while faulted. -/
theorem State.unlessFaulted_requireField_false (s t : State) {ok : Bool} (h : ok = false) :
    s.unlessFaulted (s.requireField ok t) = if s.cause = .none then { s with cause := .illegalField } else s := by
  rw [s.requireField_false t ok h, s.unlessFaulted_raise]

/-- A command that fails its value check is ILLEGAL_FIELD, or refused while faulted (30_encoding.md R74, R76). -/
theorem exec_of_not_wellFormed {i : Instr} {s : State} (h : i.wellFormed s.cfg = false) :
    exec i s = .next (if s.cause = .none then { s with cause := .illegalField } else s) := by
  cases i with
  | regread reg => exact exec_regread_of_undefined h
  | mqDecode cxi =>
    have hcxi : 19 ≤ cxi.toNat := by
      have : ¬ cxi.toNat ≤ 18 := of_decide_eq_false h
      omega
    show execMqDecode cxi s = _
    rw [execMqDecode, contextIndex_of_le cxi hcxi, ← s.unlessFaulted_raise]
  | ttInit base x y => exact congrArg Host.Outcome.next (s.unlessFaulted_requireField_false _ h)
  | brSetend stop => exact congrArg Host.Outcome.next (s.unlessFaulted_requireField_false _ h)
  | brGetbits n => exact congrArg Host.Outcome.next (s.unlessFaulted_requireField_false _ h)
  | _ => cases h

/-- Settles O5: a word of a row that fails the zero check is no command, and one that passes it is the command whose value
check fails. -/
theorem malformedWordsFault : Obligations.MalformedWordsFault := by
  intro w s hdefined hmalformed
  rcases decode_cases w with ⟨hres, -⟩ | ⟨row, -, hdecode⟩
  · rw [hres] at hdefined; cases hdefined
  · cases hzeros : row.zerosHold (aField w) (bField w) with
    | false =>
      rw [hzeros] at hdecode
      exact executeWord_of_error hdecode s
    | true =>
      rw [hzeros] at hdecode
      rw [executeWord, hdecode]
      exact exec_of_not_wellFormed (hmalformed _ hdecode)

/-! ### Example words -/

/-- Settles O6: the decoder evaluated on each word. -/
theorem exampleWordsDecode : Obligations.ExampleWordsDecode := by
  unfold Obligations.ExampleWordsDecode
  decide

/-! ### State checks -/

/-- A command whose state check fails in an unfaulted block is ILLEGAL_STATE, whatever stands behind the check. -/
theorem illegalState_next {s : State} (hc : s.cause = .none) {ok : Bool} (hok : ok = false) (t : State) :
    (.next (s.unlessFaulted (s.requireState ok t)) : Host.Outcome State Fault Refusal) =
      .next { s with cause := .illegalState } := by
  rw [s.unlessFaulted_of_none _ hc, s.requireState_false t ok hok, s.raise_of_none _ hc]

theorem exec_mqDecode_of_not_mqinit {s : State} (hc : s.cause = .none) (hinit : s.mqinit = false) {cxi : BitVec 5}
    (hcxi : cxi.toNat ≤ 18) : exec (.mqDecode cxi) s = .next { s with cause := .illegalState } := by
  show execMqDecode cxi s = _
  rw [execMqDecode, contextIndex_of_lt cxi ⟨cxi.toNat, by omega⟩ rfl]
  exact illegalState_next hc hinit _

theorem exec_brGetbits_of_not_brinit {s : State} (hc : s.cause = .none) (hinit : s.brinit = false) {n : BitVec 6}
    (hn : n.toNat ≤ 32) : exec (.brGetbits n) s = .next { s with cause := .illegalState } := by
  show execBrGetbits n s = _
  rw [execBrGetbits, s.requireField_true _ _ (decide_eq_true (show n ≤ 32 from hn))]
  exact illegalState_next hc hinit _

/-- The check of the commands that need a byte boundary fails off one, and without `BRINIT`. -/
theorem State.brinit_and_byteAligned_eq_false {s : State} (h : s.brinit = false ∨ s.brBitidx ≠ 8) :
    (s.brinit && s.byteAligned) = false := by
  rcases h with h | h
  · rw [h]; rfl
  · rw [State.byteAligned, beq_false_of_ne h, Bool.and_false]

/-- Settles O20: the value checks of `MQ_DECODE` and `BR_GETBITS` pass, and each command's state check fails. -/
theorem uninitializedUnitsFault : Obligations.UninitializedUnitsFault := by
  intro s hc
  refine ⟨fun hmq => ?_, fun hbr => ?_, fun hbr => ?_⟩
  · exact ⟨fun cxi hcxi => exec_mqDecode_of_not_mqinit hc hmq hcxi, fun e => illegalState_next hc hmq _⟩
  · exact ⟨fun node thr => illegalState_next hc hbr _, fun n hn => exec_brGetbits_of_not_brinit hc hbr hn,
      illegalState_next hc hbr _, illegalState_next hc hbr _, illegalState_next hc hbr _⟩
  · have hcheck := State.brinit_and_byteAligned_eq_false hbr
    exact ⟨illegalState_next hc hcheck _, fun len term dst => illegalState_next hc hcheck _⟩

end Sys2Proof.Machine
end

section
/-! The command port (30_encoding.md R71, 40_control.md R90): every command has a next state, no command takes a word from the
port, and the response carries `STATUS` and `RESULT` of that state. -/

namespace Sys2Proof.Machine

/-! ### The port under the shared operations -/

section
variable {s t : State} (ht : t.port = s.port)
include ht

theorem State.port_unlessFaulted : (s.unlessFaulted t).port = s.port :=
  State.unlessFaulted_of (P := fun u => u.port = s.port) rfl fun _ => ht

theorem State.port_requireField {ok : Bool} : (s.requireField ok t).port = s.port :=
  State.requireField_of (P := fun u => u.port = s.port) (s.raise_port _) fun _ => ht

theorem State.port_requireState {ok : Bool} : (s.requireState ok t).port = s.port :=
  State.requireState_of (P := fun u => u.port = s.port) (s.raise_port _) fun _ => ht

end

/-! ### The port under the data parts of the commands -/

section
variable (s : State)

theorem State.port_mqDecide (i : Fin 19) : (s.mqDecide i).port = s.port := by
  unfold State.mqDecide
  split
  · cases s.rawBit s.mqRegs with
    | none => exact State.raise_port _ _
    | some p => rfl
  · cases s.decideArith (s.cx.get i) s.mqRegs with
    | none => exact State.raise_port _ _
    | some d => rfl

theorem State.port_ttDecide (n : Nat) (thr : Word) : (s.ttDecide n thr).port = s.port := by
  rcases s.ttDecide_cases n thr with ⟨c, -, e⟩ | ⟨-, -, e | ⟨stack, top, cur, v, f, c, -, -, e⟩⟩
  · rw [e]; exact s.raise_port c
  · rw [e]; exact State.raise_port _ _
  · rw [e]; rfl

theorem State.port_finishRead (r : Option (Nat × Cursor)) : (s.finishRead r).port = s.port := by
  cases r with
  | none => exact State.raise_port _ _
  | some p => rfl

theorem State.port_segcopied (len : Half) (term : Bool) (dst : Word) : (s.segcopied len term dst).port = s.port := by
  unfold State.segcopied
  dsimp only
  split
  · split
    · rfl
    · exact s.raise_port _
  · exact s.raise_port _

end

/-! ### Commands -/

/-- Every command has a next state: no arm of `exec` stops. -/
theorem exec_eq_next (i : Instr) (s : State) : ∃ t, exec i s = .next t := by cases i <;> exact ⟨_, rfl⟩

/-- No command takes anything from the port or presents anything on it. -/
theorem port_of_exec {i : Instr} {s t : State} (h : exec i s = .next t) : t.port = s.port := by
  cases i with
  | nop => cases h; exact State.port_unlessFaulted rfl
  | reset => cases h; rfl
  | regread reg =>
    cases h
    split
    · rfl
    · exact State.port_unlessFaulted (s.raise_port _)
  | clrwarn => cases h; exact State.port_unlessFaulted rfl
  | mqInitctx => cases h; exact State.port_unlessFaulted rfl
  | mqInitdec raw rst addr =>
    cases h
    refine State.port_unlessFaulted ?_
    split
    · exact State.raise_port _ _
    · cases rst <;> rfl
  | mqDecode cxi =>
    cases h
    refine State.port_unlessFaulted ?_
    split
    · exact s.raise_port _
    · exact State.port_requireState (s.port_mqDecide _)
  | mqCheckbp expected =>
    cases h
    refine State.port_unlessFaulted (State.port_requireState ?_)
    split <;> rfl
  | ttInit base x y =>
    cases h
    refine State.port_unlessFaulted (State.port_requireField ?_)
    dsimp only
    split
    · rfl
    · exact s.raise_port _
  | ttDecode node thr =>
    cases h
    exact State.port_unlessFaulted (State.port_requireState (s.port_ttDecide _ thr))
  | brSetend stop =>
    cases h
    refine State.port_unlessFaulted (State.port_requireField ?_)
    rfl
  | brStart pos => cases h; exact State.port_unlessFaulted rfl
  | brGetbits n =>
    cases h
    exact State.port_unlessFaulted (State.port_requireField (State.port_requireState (s.port_finishRead _)))
  | brFlush =>
    cases h
    refine State.port_unlessFaulted (State.port_requireState ?_)
    split
    · exact State.raise_port _ _
    · rfl
  | brGetnpasses => cases h; exact State.port_unlessFaulted (State.port_requireState (s.port_finishRead _))
  | brGetlblkinc => cases h; exact State.port_unlessFaulted (State.port_requireState (s.port_finishRead _))
  | brEph =>
    cases h
    refine State.port_unlessFaulted (State.port_requireState ?_)
    split <;> rfl
  | brSegcopy len term dst =>
    cases h
    exact State.port_unlessFaulted (State.port_requireState (s.port_segcopied len term dst))

/-! ### Words -/

/-- Every word, command or not, has a next state, and its execution leaves the port alone. -/
theorem executeWord_eq_next (w : CommandWord) (s : State) : ∃ t, executeWord w s = .next t ∧ t.port = s.port := by
  rw [executeWord]
  cases decode w with
  | ok i =>
    obtain ⟨t, ht⟩ := exec_eq_next i s
    exact ⟨t, ht, port_of_exec ht⟩
  | error e => exact ⟨_, rfl, State.port_unlessFaulted (s.raise_port _)⟩

/-- Settles O8: the step takes the word from the port, executes it on what is left, and responds. -/
theorem everyWordGetsOneResponse : Obligations.EveryWordGetsOneResponse := by
  intro s w rest hport
  obtain ⟨t, ht, hrest⟩ := executeWord_eq_next w { s with port := rest }
  refine ⟨t, ht, hrest, ?_⟩
  rw [step_of_port s hport, serve, ht]
  rfl

end Sys2Proof.Machine
end

section
/-! The command cycle and the control commands without operands (40_control.md R90, R91, R94): what a word of a row does, and
what `NOP` and `CLRWARN` leave. -/

namespace Sys2Proof.Machine

/-! ### The command cycle -/

/-- A word that decodes to a command executes as that command. -/
theorem executeWord_of_ok {w : CommandWord} {i : Instr} (h : decode w = .ok i) (s : State) : executeWord w s = exec i s := by
  rw [executeWord, h]

/-- Settles O7: the word is taken from the port, executed as the command it decodes to, and answered. -/
theorem stepRunsCommand : Obligations.StepRunsCommand := by
  intro s w rest i t hport hdecode hexec
  rw [step_of_port s hport, serve, executeWord_of_ok hdecode, hexec]
  rfl

/-! ### Words of a row -/

section
variable {i : Instr} {a : BitVec 24} {b : Word}

/-- A word that passes its row's zero check executes as the command with the operands it holds (30_encoding.md R74). -/
theorem executeWord_of_zerosHold (h : i.zerosHold a b = true) (s : State) :
    executeWord (commandWord (opcodeOf i) a b) s = exec (i.withOperands a b) s := by
  refine executeWord_of_ok ?_ s
  rw [decode_commandWord, decodeFields_of_row, zeroChecked_eq_ok_iff]
  exact ⟨h, rfl⟩

/-- A word that fails its row's zero check is ILLEGAL_FIELD, or refused while faulted (30_encoding.md R76). -/
theorem executeWord_of_not_zerosHold (h : i.zerosHold a b = false) (s : State) :
    executeWord (commandWord (opcodeOf i) a b) s =
      .next (if s.cause = .none then { s with cause := .illegalField } else s) := by
  have hdecode : decode (commandWord (opcodeOf i) a b) = .error .reservedBits := by
    rw [decode_commandWord, decodeFields_of_row, h]
    rfl
  exact executeWord_of_error hdecode s

/-- A word of a row without operands, whose command is refused while faulted and otherwise leaves `t`. -/
theorem executeWord_of_no_operands {s t : State} (hzeros : i.zerosHold a b = (a == 0 && b == 0))
    (hexec : exec (i.withOperands a b) s = .next (s.unlessFaulted t)) :
    executeWord (commandWord (opcodeOf i) a b) s = .next
      (if s.cause ≠ .none then s else if a = 0 ∧ b = 0 then t else { s with cause := .illegalField }) := by
  by_cases hab : a = 0 ∧ b = 0
  · have hpass : i.zerosHold a b = true := by simpa [hzeros] using hab
    rw [executeWord_of_zerosHold hpass, hexec, if_pos hab]
    by_cases hc : s.cause = .none
    · rw [s.unlessFaulted_of_none t hc, if_neg (not_not_intro hc)]
    · rw [s.unlessFaulted_of_ne t hc, if_pos hc]
  · have hfail : i.zerosHold a b = false := by simpa [hzeros] using hab
    rw [executeWord_of_not_zerosHold hfail, if_neg hab, ite_not]

end

/-! ### NOP and CLRWARN -/

/-- `NOP` (40_control.md R91). -/
theorem exec_nop (s : State) : exec .nop s = .next (s.unlessFaulted s) := rfl

/-- `CLRWARN` (40_control.md R94). -/
theorem exec_clrwarn (s : State) : exec .clrwarn s = .next (s.unlessFaulted s.clearWarnings) := rfl

/-- Settles O24: refused or not, `NOP` leaves the state, so only the zero check of its row can change it. -/
theorem nopChangesNothing : Obligations.NopChangesNothing := by
  intro s
  refine ⟨fun hc => ?_, fun a b => ?_⟩
  · rw [exec_nop, s.unlessFaulted_of_none s hc]
  · rw [ite_or]
    exact executeWord_of_no_operands (i := .nop) rfl (exec_nop s)

/-- Settles O25: refused while faulted, and otherwise the zero check and then `State.clearWarnings`. -/
theorem clrwarnClearsWarnings : Obligations.ClrwarnClearsWarnings := by
  intro s
  refine ⟨fun hc => ?_, fun a b => ?_⟩
  · rw [exec_clrwarn, s.unlessFaulted_of_none _ hc]
    rfl
  · exact executeWord_of_no_operands (i := .clrwarn) rfl (exec_clrwarn s)

end Sys2Proof.Machine
end

section
/-! The context transitions over the Qe ROM (41_mq_decoder.md R101, R106): what `qe`, `mps`, `nmps` and `nlps` give for every
state byte, whatever its row. -/

namespace Sys2Proof.Machine

/-! ### The rows -/

/-- The next indices of every row are indices of the ROM. -/
theorem qeRow_next_le (index : Nat) : (qeRow index).nmps ≤ 46 ∧ (qeRow index).nlps ≤ 46 := by
  have hrows : ∀ row ∈ qeRom, row.nmps ≤ 46 ∧ row.nlps ≤ 46 := by decide
  rw [qeRow, List.getD_eq_getElem?_getD]
  cases h : qeRom[index]? with
  | none => decide
  | some row => exact hrows row (List.mem_of_getElem? h)

/-- `SWITCH` is 1 in rows 0, 6 and 14 alone. -/
theorem qeRow_switch_iff (index : Nat) : (qeRow index).switch = true ↔ index ∈ [0, 6, 14] := by
  have hrows : ∀ i < 47, (qeRow i).switch = true ↔ i ∈ [0, 6, 14] := by decide
  by_cases h : index < 47
  · exact hrows index h
  · have hrow : qeRow index = ⟨0x5601, 46, 46, false⟩ := List.getD_eq_default _ _ (Nat.le_of_not_lt h)
    have hindex : index ∉ [0, 6, 14] := fun hmem => by
      have : ∀ i ∈ [0, 6, 14], i < 47 := by decide
      exact h (this index hmem)
    rw [hrow]
    exact iff_of_false nofun hindex

/-! ### The transitions -/

section
variable (st : BitVec 7)

theorem stateRow_eq : stateRow st = qeRow (st.toNat / 2) := by
  rw [stateRow, BitVec.toNat_ushiftRight, Nat.shiftRight_eq_div_pow, Nat.pow_one]

theorem toNat_mps : (mps st).toNat = st.toNat % 2 := by
  rw [mps, BitVec.getLsbD, Nat.testBit_zero]
  rcases Nat.mod_two_eq_zero_or_one st.toNat with h | h <;> rw [h] <;> rfl

/-- A state byte made of an index of the ROM and an MPS. -/
theorem toNat_stateByte {index : Nat} (h : index ≤ 46) (b : Bool) :
    (BitVec.ofNat 7 (2 * index + b.toNat)).toNat = 2 * index + b.toNat := by
  have := b.toNat_le
  rw [BitVec.toNat_ofNat]
  omega

theorem mps_stateByte (index : Nat) (b : Bool) : mps (BitVec.ofNat 7 (2 * index + b.toNat)) = b := by
  rw [mps, BitVec.getLsbD_ofNat, Nat.testBit_zero]
  cases b <;> simp

theorem toNat_nmps : (nmps st).toNat = 2 * (stateRow st).nmps + (mps st).toNat :=
  toNat_stateByte (qeRow_next_le _).1 _

theorem toNat_nlps : (nlps st).toNat = 2 * (stateRow st).nlps + (mps st ^^ (stateRow st).switch).toNat :=
  toNat_stateByte (qeRow_next_le _).2 _

/-- `nmps` keeps the MPS. -/
theorem mps_nmps : mps (nmps st) = mps st := mps_stateByte _ _

/-- `nlps` flips the MPS where `SWITCH` is 1. -/
theorem mps_nlps : mps (nlps st) = (mps st ^^ (stateRow st).switch) := mps_stateByte _ _

theorem toNat_bxor (b c : Bool) : (b ^^ c).toNat = b.toNat ^^^ c.toNat := by cases b <;> cases c <;> rfl

end

/-- Settles O27: each transition is its row's next index with the MPS, kept or flipped. -/
theorem contextTransitions : Obligations.ContextTransitions := by
  intro st hst row
  have hrow : stateRow st = row := stateRow_eq st
  have hflip : mps (nlps st) ≠ mps st ↔ row.switch = true := by
    rw [mps_nlps, hrow]
    cases row.switch <;> simp
  refine ⟨congrArg QeRow.qe hrow, toNat_mps st, ?_, ?_, nmps_le st hst, nlps_le st hst, mps_nmps st,
    hflip.trans (qeRow_switch_iff _)⟩
  · rw [toNat_nmps, hrow, toNat_mps]
  · rw [toNat_nlps, hrow, toNat_bxor, toNat_mps]

end Sys2Proof.Machine
end

section
/-! Byte input and the commands of the MQ unit in an unfaulted block (41_mq_decoder.md R104, R108, R111 to R113): what each
leaves, by what its procedure gives. -/

namespace Sys2Proof.Machine

/-! ### Byte input -/

/-- Settles O29: inside CBMEM byte input leaves what `State.ByteInput` says, and outside it fails. -/
theorem byteInFollowsEscapes : Obligations.ByteInFollowsEscapes := by
  intro s c bp
  refine ⟨fun hin => ?_, (s.byteIn_eq_none_iff c bp).2⟩
  obtain ⟨⟨c', bp'⟩, hbyte⟩ : ∃ p, s.byteIn c bp = some p :=
    Option.ne_none_iff_exists'.1 (mt (s.byteIn_eq_none_iff c bp).1 (Nat.not_le_of_lt hin))
  exact ⟨c', bp', hbyte, ((s.byteIn_eq_some_iff c bp c' bp').1 hbyte).2⟩

/-! ### MQ_INITDEC -/

/-- A segment's first byte enters the code register complemented (41_mq_decoder.md R108). -/
theorem complemented_byte (b : Byte) :
    (b ^^^ 0xFF).setWidth 32 <<< 16 = BitVec.ofNat 32 (65536 * (255 - b.toNat)) := by
  have hb := b.isLt
  have hnot : b ^^^ 0xFF = ~~~b := BitVec.xor_allOnes
  apply BitVec.eq_of_toNat_eq
  rw [hnot, BitVec.toNat_shiftLeft, Nat.shiftLeft_eq, BitVec.toNat_setWidth, BitVec.toNat_not, BitVec.toNat_ofNat]
  omega

/-- `InitDec` with the first byte inside CBMEM: one byte input, then the shift by 7. -/
theorem State.initDec_of_byteIn {s : State} {addr c bp : Word} (hin : addr.toNat < s.cfg.cbmemSize.toNat)
    (h : s.byteIn (BitVec.ofNat 32 (65536 * (255 - (s.cbByte addr.toNat).toNat))) addr = some (c, bp)) :
    s.initDec addr = some ⟨0x8000, c <<< 7, bp⟩ := by
  rw [← complemented_byte] at h
  simp only [State.initDec, s.cbRead_of_lt _ hin, h]

theorem State.initDec_eq_none {s : State} {addr : Word} (hout : s.cfg.cbmemSize.toNat ≤ addr.toNat + 1) :
    s.initDec addr = none := by
  unfold State.initDec
  split
  · rfl
  · rw [(s.byteIn_eq_none_iff _ addr).2 hout]

section
variable {s : State} (hc : s.cause = .none) {addr : Word} (raw rst : Bool)
include hc

theorem exec_mqInitdec_of_some {r : MqRegs} (h : s.initDec addr = some r) :
    exec (.mqInitdec raw rst addr) s = .next { s with
      mqA := r.a, mqC := r.c, mqBp := r.bp, raw := raw, mqinit := true, cx := if rst then initialContexts else s.cx } := by
  show execMqInitdec raw rst addr s = _
  rw [execMqInitdec, h, s.unlessFaulted_of_none _ hc]
  cases rst <;> rfl

theorem exec_mqInitdec_of_none (h : s.initDec addr = none) :
    exec (.mqInitdec raw rst addr) s = .next s.rangeInInitdec := by
  show execMqInitdec raw rst addr s = _
  rw [execMqInitdec, h, s.unlessFaulted_of_none _ hc]

end

/-- Settles O30: the first byte and one byte input set up the registers, or one of the two is outside CBMEM. -/
theorem initdecStartsSegment : Obligations.InitdecStartsSegment := by
  intro s raw rst addr hc
  refine ⟨fun hin => ?_, fun hout => ?_⟩
  · obtain ⟨c, bp, hbyte, hinput⟩ := (byteInFollowsEscapes s _ addr).1 hin
    exact ⟨c, bp, hinput, exec_mqInitdec_of_some hc raw rst (State.initDec_of_byteIn (Nat.lt_of_succ_lt hin) hbyte)⟩
  · exact ⟨_, exec_mqInitdec_of_none hc raw rst (State.initDec_eq_none hout), by rw [s.rangeInInitdec_eq hc]⟩

/-! ### MQ_CHECKBP -/

theorem exec_mqCheckbp {s : State} (hc : s.cause = .none) (hinit : s.mqinit = true) (e : Word) :
    exec (.mqCheckbp e) s = .next { s with result := s.mqBp - e, warnBp := s.warnBp || s.mqBp != e } := by
  show execMqCheckbp e s = _
  rw [execMqCheckbp, s.unlessFaulted_of_none _ hc, s.requireState_true _ _ hinit]
  by_cases he : s.mqBp = e
  · rw [if_pos he, bne_eq_false_iff_eq.2 he, Bool.or_false]
    rfl
  · rw [if_neg he, bne_iff_ne.2 he, Bool.or_true]
    rfl

/-- Settles O33: the zero check of the row, then the check of `MQINIT`, then the comparison. -/
theorem checkbpWarnsOnMismatch : Obligations.CheckbpWarnsOnMismatch := by
  intro s a e hc
  refine ⟨fun hinit => exec_mqCheckbp hc hinit e, ?_⟩
  show executeWord (commandWord (opcodeOf (.mqCheckbp e)) a e) s = _
  by_cases ha : a = 0
  · rw [executeWord_of_zerosHold (i := .mqCheckbp e) (beq_iff_eq.2 ha), if_neg (not_not_intro ha)]
    show exec (.mqCheckbp e) s = _
    by_cases hinit : s.mqinit = false
    · rw [if_pos hinit]
      exact illegalState_next hc hinit _
    · rw [if_neg hinit]
      exact exec_mqCheckbp hc (eq_true_of_ne_false hinit) e
  · rw [executeWord_of_not_zerosHold (i := .mqCheckbp e) (beq_false_of_ne ha), if_pos hc, if_pos ha]

/-! ### MQ_DECODE -/

theorem exec_mqDecode {s : State} {cxi : BitVec 5} {i : Fin 19} (hc : s.cause = .none) (hinit : s.mqinit = true)
    (hcxi : cxi.toNat = i.val) : exec (.mqDecode cxi) s = .next (s.mqDecide i) := by
  show execMqDecode cxi s = _
  rw [execMqDecode, contextIndex_of_lt cxi i hcxi, s.unlessFaulted_of_none _ hc]
  exact congrArg _ (s.requireState_true _ _ hinit)

section
variable {s : State} {i : Fin 19}

theorem State.mqDecide_of_rawBit {bit : Bool} {r : MqRegs} (hraw : s.raw = true) (h : s.rawBit s.mqRegs = some (bit, r)) :
    s.mqDecide i = (s.setMqRegs r).setResult ((BitVec.ofBool bit).setWidth 32) := by
  rw [State.mqDecide, if_pos hraw, h]

theorem State.mqDecide_of_rawBit_none (hraw : s.raw = true) (h : s.rawBit s.mqRegs = none) :
    s.mqDecide i = s.rangeInDecode i := by
  rw [State.mqDecide, if_pos hraw, h]

theorem State.mqDecide_of_decideArith {d : Decision} (hraw : s.raw = false)
    (h : s.decideArith (s.cx.get i) s.mqRegs = some d) :
    s.mqDecide i = ((s.setMqRegs d.regs).setCx i d.context).setResult ((BitVec.ofBool d.bit).setWidth 32) := by
  rw [State.mqDecide, if_neg (ne_true_of_eq_false hraw), h]

theorem State.mqDecide_of_decideArith_none (hraw : s.raw = false) (h : s.decideArith (s.cx.get i) s.mqRegs = none) :
    s.mqDecide i = s.rangeInDecode i := by
  rw [State.mqDecide, if_neg (ne_true_of_eq_false hraw), h]

theorem State.rangeInDecode_cause (hc : s.cause = .none) (i : Fin 19) : (s.rangeInDecode i).cause = .mqRange := by
  rw [s.rangeInDecode_eq i hc]

/-- What a `MQ_DECODE` that completes has done: a raw or an arithmetic decision of an initialized unit. -/
theorem completed_mqDecode_cases {t : State} {cxi : BitVec 5} (hc : s.cause = .none)
    (h : exec (.mqDecode cxi) s = .next t) (htc : t.cause = .none) :
    s.mqinit = true ∧ ∃ i : Fin 19,
      (s.raw = true ∧ ∃ bit r, s.rawBit s.mqRegs = some (bit, r) ∧
        t = (s.setMqRegs r).setResult ((BitVec.ofBool bit).setWidth 32)) ∨
      (s.raw = false ∧ ∃ d, s.decideArith (s.cx.get i) s.mqRegs = some d ∧
        t = ((s.setMqRegs d.regs).setCx i d.context).setResult ((BitVec.ofBool d.bit).setWidth 32)) := by
  by_cases hcxi : cxi.toNat < 19
  swap
  · have hfield : (Instr.mqDecode cxi).wellFormed s.cfg = false :=
      decide_eq_false fun hle : cxi.toNat ≤ 18 => hcxi (by omega)
    rw [exec_of_not_wellFormed hfield, if_pos hc] at h
    cases h; cases htc
  cases hinit : s.mqinit with
  | false =>
    rw [exec_mqDecode_of_not_mqinit hc hinit (by omega)] at h
    cases h; cases htc
  | true =>
    obtain ⟨i, hi⟩ : ∃ i : Fin 19, cxi.toNat = i.val := ⟨⟨_, hcxi⟩, rfl⟩
    rw [exec_mqDecode hc hinit hi] at h
    cases h
    have hrange : s.mqDecide i ≠ s.rangeInDecode i := fun e => by
      rw [e, State.rangeInDecode_cause hc] at htc
      cases htc
    refine ⟨rfl, i, ?_⟩
    cases hraw : s.raw with
    | true =>
      cases hr : s.rawBit s.mqRegs with
      | none => exact absurd (State.mqDecide_of_rawBit_none hraw hr) hrange
      | some p => exact .inl ⟨rfl, p.1, p.2, rfl, State.mqDecide_of_rawBit hraw hr⟩
    | false =>
      cases hd : s.decideArith (s.cx.get i) s.mqRegs with
      | none => exact absurd (State.mqDecide_of_decideArith_none hraw hd) hrange
      | some d => exact .inr ⟨rfl, d, rfl, State.mqDecide_of_decideArith hraw hd⟩

end

/-! ### Raw decisions -/

/-- `RawBit()` is one round of the loop of `Renormd()` (41_mq_decoder.md R102, R105). -/
theorem State.rawBit_of_doubled {s : State} {r : MqRegs} {c bp : Word} (h : s.Doubled r.c r.bp c bp) :
    s.rawBit r = some (!r.c.getLsbD 30, ⟨r.a, c, bp⟩) := by
  obtain ⟨filled, hfill, rfl⟩ := (s.doubled_iff r.c r.bp c bp).1 h
  rw [State.rawBit, hfill]

/-- A round can be made unless it needs a byte outside CBMEM. -/
theorem State.exists_doubled {s : State} {c bp : Word} (h : ¬ s.InputMissing c bp) : ∃ c' bp', s.Doubled c bp c' bp' := by
  obtain ⟨⟨filled, bp'⟩, hfill⟩ := Option.ne_none_iff_exists'.1 (mt (s.refill_eq_none_iff c bp).1 h)
  exact ⟨_, bp', (s.doubled_iff c bp _ bp').2 ⟨filled, hfill, rfl⟩⟩

theorem State.rawBit_eq_none {s : State} {r : MqRegs} (h : s.InputMissing r.c r.bp) : s.rawBit r = none := by
  rw [State.rawBit, (s.refill_eq_none_iff r.c r.bp).2 h]

/-- Settles O32: a raw decision is one round of the renormalization loop, or its byte is missing. -/
theorem mqDecodeRaw : Obligations.MqDecodeRaw := by
  intro s cxi hc hinit hraw hcxi
  have hexec := exec_mqDecode (i := ⟨cxi.toNat, by omega⟩) hc hinit rfl
  refine ⟨fun hinput => ?_, fun hmissing => ?_⟩
  · obtain ⟨c, bp, hround⟩ := State.exists_doubled hinput
    refine ⟨c, bp, hround, ?_⟩
    rw [hexec, State.mqDecide_of_rawBit hraw (State.rawBit_of_doubled (r := s.mqRegs) hround), s.mqRegs_c]
    cases s.mqC.getLsbD 30 <;> rfl
  · refine ⟨_, hexec, ?_⟩
    rw [State.mqDecide_of_rawBit_none hraw (State.rawBit_eq_none hmissing), State.rangeInDecode_cause hc]

end Sys2Proof.Machine
end

section
/-! One decision of the MQ unit (41_mq_decoder.md R103, R105, R107, R112, R114): the branches of `DecideArith`, the side
chosen as numbers, and how far a decision moves the byte pointer. -/

namespace Sys2Proof.Machine

/-! ### The branches of `DecideArith` -/

/-- The decision after renormalization: the MPS with `nmps`, or the LPS with `nlps` (41_mq_decoder.md R103). -/
def Decision.renormed (st : BitVec 7) (lps : Bool) (r : MqRegs) : Decision :=
  ⟨mps st != lps, if lps then nlps st else nmps st, r⟩

theorem Decision.renormed_mps (st : BitVec 7) (r : MqRegs) : Decision.renormed st false r = ⟨mps st, nmps st, r⟩ := by
  rw [Decision.renormed, Bool.bne_false]
  rfl

theorem Decision.renormed_lps (st : BitVec 7) (r : MqRegs) : Decision.renormed st true r = ⟨!mps st, nlps st, r⟩ := by
  rw [Decision.renormed, Bool.bne_true]
  rfl

/-- `Exchange` is `Renormd()` from the side chosen, and the LPS is decoded where the exchange and the side differ. -/
theorem State.exchange_eq_map (s : State) (st : BitVec 7) (side : Bool) (r : MqRegs) :
    s.exchange st side r = (s.renormd 15 ⟨if side then qe st else r.a, r.c, r.bp⟩).map
      (Decision.renormed st (decide (r.a < qe st) != side)) := by
  rw [State.exchange]
  cases s.renormd 15 ⟨if side then qe st else r.a, r.c, r.bp⟩ with
  | none => rfl
  | some r' =>
    show (if decide (r.a < qe st) == side then _ else _) =
      some (Decision.renormed st (!(decide (r.a < qe st) == side)) r')
    cases decide (r.a < qe st) == side with
    | true => exact congrArg some (Decision.renormed_mps st r').symm
    | false => exact congrArg some (Decision.renormed_lps st r').symm

section
variable {s : State} {st : BitVec 7} {r : MqRegs}

/-- The MPS side, still at 0x8000 or more. -/
theorem State.decideArith_of_normalized (hside : r.c.extractLsb' 16 16 < r.a - qe st)
    (hnorm : (r.a - qe st).getLsbD 15 = true) :
    s.decideArith st r = some ⟨mps st, st, ⟨r.a - qe st, r.c, r.bp⟩⟩ := by
  rw [State.decideArith, if_pos hside, if_pos hnorm]

/-- The MPS side, below 0x8000. -/
theorem State.decideArith_of_mpsSide (hside : r.c.extractLsb' 16 16 < r.a - qe st)
    (hnorm : (r.a - qe st).getLsbD 15 = false) :
    s.decideArith st r = (s.renormd 15 ⟨r.a - qe st, r.c, r.bp⟩).map
      (Decision.renormed st (decide (r.a - qe st < qe st))) := by
  rw [State.decideArith, if_pos hside, if_neg (ne_true_of_eq_false hnorm), s.exchange_eq_map, Bool.bne_false]
  rfl

/-- The LPS side. -/
theorem State.decideArith_of_lpsSide (hside : ¬ r.c.extractLsb' 16 16 < r.a - qe st) :
    s.decideArith st r = (s.renormd 15 ⟨qe st, r.c - ((r.a - qe st).setWidth 32 <<< 16), r.bp⟩).map
      (Decision.renormed st (!decide (r.a - qe st < qe st))) := by
  rw [State.decideArith, if_neg hside, s.exchange_eq_map, Bool.bne_true]
  rfl

end

/-- A decision reads CBMEM through `Renormd()` alone, if at all: what comes before and after is the same in every state. -/
theorem decideArith_through_renormd (st : BitVec 7) (r : MqRegs) :
    (∃ d : Decision, d.regs.bp = r.bp ∧ ∀ s : State, s.decideArith st r = some d) ∨
      ∃ a c lps, ∀ s : State, s.decideArith st r = (s.renormd 15 ⟨a, c, r.bp⟩).map (Decision.renormed st lps) := by
  by_cases hside : r.c.extractLsb' 16 16 < r.a - qe st
  · cases hnorm : (r.a - qe st).getLsbD 15 with
    | true => exact .inl ⟨_, rfl, fun _ => State.decideArith_of_normalized hside hnorm⟩
    | false => exact .inr ⟨_, _, _, fun _ => State.decideArith_of_mpsSide hside hnorm⟩
  · exact .inr ⟨_, _, _, fun _ => State.decideArith_of_lpsSide hside⟩

/-! ### The side chosen, as numbers -/

/-- The code register's high half, that the interval is compared with (41_mq_decoder.md R107). -/
theorem toNat_extractLsb'_high (c : Word) : (c.extractLsb' 16 16).toNat = c.toNat / 2 ^ 16 := by
  have := c.isLt
  rw [BitVec.extractLsb'_toNat, Nat.shiftRight_eq_div_pow]
  omega

/-- The interval's part of the code register, removed on the LPS side. -/
theorem interval_shift (a : Half) : a.setWidth 32 <<< 16 = BitVec.ofNat 32 (a.toNat * 2 ^ 16) := by
  have := a.isLt
  apply BitVec.eq_of_toNat_eq
  rw [BitVec.toNat_shiftLeft, Nat.shiftLeft_eq, BitVec.toNat_setWidth, BitVec.toNat_ofNat]
  omega

section
variable {s : State} {st : BitVec 7} {r : MqRegs} (hst : st.toNat ≤ 93) (ha : 0x8000 ≤ r.a.toNat)
include hst ha

/-- The interval is at least 0x8000, above every `qe`, so there is no borrow (41_mq_decoder.md R107). -/
theorem toNat_interval_sub_qe : (r.a - qe st).toNat = r.a.toNat - (qe st).toNat := by
  have := qe_bounds st hst
  exact BitVec.toNat_sub_of_le (BitVec.le_def.2 (by omega))

theorem mpsSide_iff :
    r.c.extractLsb' 16 16 < r.a - qe st ↔ r.c.toNat / 2 ^ 16 < r.a.toNat - (qe st).toNat := by
  rw [BitVec.lt_def, toNat_extractLsb'_high, toNat_interval_sub_qe hst ha]

/-- What a renormalizing decision starts `Renormd()` from: the side chosen, from 1 to 0x7FFF, and the code register on it. -/
theorem State.decideArith_renormalizes
    (h : ¬ (r.c.toNat / 2 ^ 16 < r.a.toNat - (qe st).toNat ∧ 0x8000 ≤ r.a.toNat - (qe st).toNat)) :
    let q := (qe st).toNat
    let a := r.a.toNat - q
    let high := r.c.toNat / 2 ^ 16
    ∃ start : Half, start.toNat = (if high < a then a else q) ∧ 1 ≤ start.toNat ∧ start.toNat ≤ 0x7FFF ∧
      s.decideArith st r =
        (s.renormd 15 ⟨start, if high < a then r.c else r.c - BitVec.ofNat 32 (a * 2 ^ 16), r.bp⟩).map
          (Decision.renormed st (decide (a < q) == decide (high < a))) := by
  intro q a high
  have hq : 1 ≤ q ∧ q ≤ 0x5601 := qe_bounds st hst
  have hsub : (r.a - qe st).toNat = a := toNat_interval_sub_qe hst ha
  have hexchange : decide (r.a - qe st < qe st) = decide (a < q)  :=
    decide_eq_decide.2 (by rw [BitVec.lt_def, hsub])
  by_cases hside : high < a
  · have hlow : a < 0x8000 := by omega
    refine ⟨r.a - qe st, by rw [hsub, if_pos hside], by omega, by omega, ?_⟩
    rw [State.decideArith_of_mpsSide ((mpsSide_iff hst ha).2 hside)
      (by rw [half_getLsbD_fifteen, hsub]; exact decide_eq_false (by omega)), hexchange, if_pos hside,
      decide_eq_true hside, beq_true]
  · refine ⟨qe st, by rw [if_neg hside], hq.1, by omega, ?_⟩
    rw [State.decideArith_of_lpsSide (mt (mpsSide_iff hst ha).1 hside), hexchange, interval_shift, hsub, if_neg hside,
      decide_eq_false hside, beq_false]

end

/-- Settles O31: the branch without renormalization, and all that `Renormd()` can do from the side chosen. -/
theorem mqDecodeArithmetic : Obligations.MqDecodeArithmetic := by
  intro s cxi i hc hinit hraw hcxi ha hst st q a high
  have hexec := exec_mqDecode hc hinit hcxi
  have hsub : (s.mqA - qe st).toNat = a := toNat_interval_sub_qe (r := s.mqRegs) hst ha
  refine ⟨fun hside hnorm => ?_, fun hrenorm => ?_⟩
  · have hdecide : s.decideArith st s.mqRegs = some ⟨mps st, st, ⟨s.mqA - qe st, s.mqC, s.mqBp⟩⟩ :=
      State.decideArith_of_normalized ((mpsSide_iff (r := s.mqRegs) hst ha).2 hside)
        (by rw [s.mqRegs_a, half_getLsbD_fifteen, hsub]; exact decide_eq_true hnorm)
    have hsame : s.cx.set i st = s.cx := Vector.set_getElem_self i.isLt
    rw [hexec, State.mqDecide_of_decideArith hraw hdecide, ← hsub, BitVec.ofNat_toNat, BitVec.setWidth_eq]
    simp only [State.setResult, State.setCx, State.setMqRegs, hsame]
  · intro interval code lps
    obtain ⟨start, hstart, hlow, hhigh, hdecide⟩ := State.decideArith_renormalizes (s := s) (r := s.mqRegs) hst ha hrenorm
    have hinterval : start.toNat = interval := hstart
    obtain ⟨n, hn, hn', hl, hu⟩ := exists_doublings _ hlow hhigh
    rw [← hinterval]
    refine ⟨n, hn, hn', hl, hu, ?_, ?_, s.not_runsOut n start code s.mqBp hn hn' hl hu⟩
    · intro hruns
      rcases s.renormd_cases 15 n start code s.mqBp hn hn' hl hu with ⟨hout, -⟩ | ⟨-, c, bp, htimes, hrun⟩
      · exact absurd hout hruns
      · refine ⟨c, bp, htimes, ?_⟩
        rw [hexec, State.mqDecide_of_decideArith hraw (hdecide.trans (congrArg _ hrun))]
        rfl
    · intro hruns
      rcases s.renormd_cases 15 n start code s.mqBp hn hn' hl hu with ⟨-, hrun⟩ | ⟨hin, -⟩
      · refine ⟨_, hexec, ?_⟩
        rw [State.mqDecide_of_decideArith_none hraw (hdecide.trans (congrArg _ hrun)), State.rangeInDecode_cause hc]
      · exact absurd hruns hin

/-! ### How far a decision moves the byte pointer -/

/-- What byte input keeps of the byte pointer, `Renormd()` keeps. -/
theorem State.renormd_keeps {s : State} {P : Word → Prop}
    (hrefill : ∀ c bp c' bp', P bp → s.refill c bp = some (c', bp') → P bp') {k : Nat} {r r' : MqRegs} (hr : P r.bp)
    (h : s.renormd k r = some r') : P r'.bp := by
  induction k generalizing r with
  | zero => cases h; exact hr
  | succ k ih =>
    cases hfill : s.refill r.c r.bp with
    | none => simp only [State.renormd, hfill] at h; cases h
    | some p =>
      have hp : P p.2 := hrefill _ _ _ _ hr hfill
      rw [s.renormd_succ k r p.1 p.2 hfill] at h
      split at h
      · cases h; exact hp
      · exact ih hp h

/-- Byte input, where it completes, leaves the pointer or moves it on, inside CBMEM. -/
theorem State.refill_bp_lt {s : State} {c bp c' bp' : Word} (h : s.refill c bp = some (c', bp')) :
    bp.toNat ≤ bp'.toNat ∧ (bp' = bp ∨ bp'.toNat < s.cfg.cbmemSize.toNat) := by
  refine ⟨(s.refill_bp c bp c' bp' h).1, ?_⟩
  by_cases hspent : counter c = 0
  · rw [s.refill_of_spent c bp hspent] at h
    obtain ⟨hin, ⟨-, hstay, -⟩ | ⟨-, hmove⟩⟩ := s.byteIn_bp _ _ _ _ h
    · exact .inl hstay
    · exact .inr (by omega)
  · rw [s.refill_of_counter c bp hspent] at h
    cases h
    exact .inl rfl

/-- `Renormd()`, where it completes, moves the pointer by at most 2: the second byte is the last one its counter asks for, and
at the end of CBMEM there is none to move to (41_mq_decoder.md R114). -/
theorem State.renormd_bp {s : State} {r r' : MqRegs} (h : s.renormd 15 r = some r') :
    r.bp.toNat ≤ r'.bp.toNat ∧ r'.bp.toNat ≤ r.bp.toNat + 2 := by
  by_cases hin : r.bp.toNat + 2 < s.cfg.cbmemSize.toNat
  · obtain ⟨r₂, hr₂, hbounds⟩ := s.renormdWithin_two 15 r hin (Nat.le_refl _)
    cases hr₂.symm.trans h
    exact hbounds
  · obtain ⟨hback, hstay | hlt⟩ := State.renormd_keeps
      (P := fun bp => r.bp.toNat ≤ bp.toNat ∧ (bp = r.bp ∨ bp.toNat < s.cfg.cbmemSize.toNat))
      (fun c bp c' bp' hbp hfill => by
        obtain ⟨hback, hmove⟩ := hbp
        obtain ⟨hback', hmove'⟩ := State.refill_bp_lt hfill
        refine ⟨Nat.le_trans hback hback', ?_⟩
        rcases hmove' with rfl | hlt
        · exact hmove
        · exact .inr hlt)
      ⟨Nat.le_refl _, .inl rfl⟩ h
    · rw [hstay]; omega
    · omega

theorem State.decideArith_bp {s : State} {st : BitVec 7} {r : MqRegs} {d : Decision} (h : s.decideArith st r = some d) :
    r.bp.toNat ≤ d.regs.bp.toNat ∧ d.regs.bp.toNat ≤ r.bp.toNat + 2 := by
  rcases decideArith_through_renormd st r with ⟨d', hbp, hdecide⟩ | ⟨a, c, lps, hdecide⟩
  · cases (hdecide s).symm.trans h
    rw [hbp]
    exact ⟨Nat.le_refl _, Nat.le_add_right _ _⟩
  · obtain ⟨r', hrun, rfl⟩ := Option.map_eq_some_iff.1 ((hdecide s).symm.trans h)
    have hmove := State.renormd_bp hrun
    exact hmove

theorem State.rawBit_bp {s : State} {r r' : MqRegs} {bit : Bool} (h : s.rawBit r = some (bit, r')) :
    r.bp.toNat ≤ r'.bp.toNat ∧ r'.bp.toNat ≤ r.bp.toNat + 1 := by
  unfold State.rawBit at h
  split at h
  · cases h
  · next c bp hfill =>
    cases h
    exact s.refill_bp _ _ _ _ hfill

/-- Settles O34: the interval and the contexts are part of the invariant, which every command keeps. -/
theorem mqDecodeBounds : Obligations.MqDecodeBounds := by
  intro s t cxi hs hc h htc
  have ht : t.Inv := hs.exec h
  obtain ⟨hinit, i, ⟨hraw, bit, r, hr, rfl⟩ | ⟨hraw, d, hd, rfl⟩⟩ := completed_mqDecode_cases hc h htc
  · obtain ⟨hback, hmove⟩ := State.rawBit_bp hr
    exact ⟨hback, Nat.le_succ_of_le hmove, fun harith => absurd (hraw.symm.trans harith) nofun, ht.contexts⟩
  · obtain ⟨hback, hmove⟩ := State.decideArith_bp hd
    exact ⟨hback, hmove, fun _ => ht.interval htc hinit, ht.contexts⟩

end Sys2Proof.Machine
end

section
/-! The read bound of a segment (41_mq_decoder.md R109, R115). Decoding is confined to a set of byte pointers where byte input
at a pointer of the set completes and leaves one of the set: on a marker the set is the marker's own pointer, on a terminated
segment `[S, L]`. Byte input that gives the same with other contents of CBMEM is carried along, so that one walk through the
procedures shows both that the decoder stays and that it reads no other byte. -/

namespace Sys2Proof.Machine

/-! ### Byte input confined to a set of pointers -/

/-- Both runs complete, with one outcome, of which `p` holds. -/
def BothGive {α : Type} (x y : Option α) (p : α → Prop) : Prop := ∃ v, x = some v ∧ y = some v ∧ p v

theorem BothGive.map {α β : Type} {x y : Option α} {p : α → Prop} {q : β → Prop} {f : α → β} (h : BothGive x y p)
    (hf : ∀ v, p v → q (f v)) : BothGive (x.map f) (y.map f) q := by
  obtain ⟨v, rfl, rfl, hv⟩ := h
  exact ⟨f v, rfl, rfl, hf v hv⟩

/-- `s` with the contents `m` of CBMEM. -/
def State.withCbmem (s : State) (m : Memory) : State := { s with cbmem := m }

/-- From a pointer in `P`, byte input completes and leaves a pointer in `P`, the same with the contents `m` of CBMEM. -/
def State.Confined (s : State) (m : Memory) (P : Word → Prop) : Prop :=
  ∀ c bp, P bp → BothGive (s.byteIn c bp) ((s.withCbmem m).byteIn c bp) (P ·.2)

namespace State.Confined

variable {s : State} {m : Memory} {P : Word → Prop} (h : s.Confined m P)
include h

theorem refill {c bp : Word} (hbp : P bp) : BothGive (s.refill c bp) ((s.withCbmem m).refill c bp) (P ·.2) := by
  by_cases hc : counter c = 0
  · rw [s.refill_of_spent c bp hc, (s.withCbmem m).refill_of_spent c bp hc]
    exact h _ bp hbp
  · exact ⟨(c, bp), s.refill_of_counter c bp hc, (s.withCbmem m).refill_of_counter c bp hc, hbp⟩

theorem renormd (k : Nat) {r : MqRegs} (hr : P r.bp) :
    BothGive (s.renormd k r) ((s.withCbmem m).renormd k r) (P ·.bp) := by
  induction k generalizing r with
  | zero => exact ⟨r, rfl, rfl, hr⟩
  | succ k ih =>
    obtain ⟨⟨c, bp⟩, hs, hm, hbp⟩ := h.refill (c := r.c) hr
    rw [s.renormd_succ k r c bp hs, (s.withCbmem m).renormd_succ k r c bp hm]
    split
    · exact ⟨_, rfl, rfl, hbp⟩
    · exact ih hbp

theorem decideArith (st : BitVec 7) {r : MqRegs} (hr : P r.bp) :
    BothGive (s.decideArith st r) ((s.withCbmem m).decideArith st r) (P ·.regs.bp) := by
  rcases decideArith_through_renormd st r with ⟨d, hbp, hdecide⟩ | ⟨a, c, lps, hdecide⟩
  · exact ⟨d, hdecide s, hdecide (s.withCbmem m), (congrArg P hbp).mpr hr⟩
  · rw [hdecide s, hdecide (s.withCbmem m)]
    exact (h.renormd 15 (r := ⟨a, c, r.bp⟩) hr).map fun _ => id

theorem rawBit {r : MqRegs} (hr : P r.bp) :
    BothGive (s.rawBit r) ((s.withCbmem m).rawBit r) (P ·.2.bp) := by
  obtain ⟨⟨c, bp⟩, hs, hm, hbp⟩ := h.refill (c := r.c) hr
  exact ⟨(!r.c.getLsbD 30, ⟨r.a, c <<< 1, bp⟩), by rw [State.rawBit, hs], by rw [State.rawBit, hm], hbp⟩

/-- `InitDec` at a pointer in `P` whose own byte is the same in `m`. -/
theorem initDec {addr : Word} (haddr : P addr) (hin : addr.toNat < s.cfg.cbmemSize.toNat)
    (hbyte : m.read addr.toNat = s.cbmem.read addr.toNat) :
    BothGive (s.initDec addr) ((s.withCbmem m).initDec addr) (P ·.bp) := by
  obtain ⟨⟨c, bp⟩, hs, hm, hbp⟩ := h (BitVec.ofNat 32 (65536 * (255 - (s.cbByte addr.toNat).toNat))) addr haddr
  have hsame : (s.withCbmem m).cbByte addr.toNat = s.cbByte addr.toNat := hbyte
  rw [← hsame] at hm
  exact ⟨⟨0x8000, c <<< 7, bp⟩, State.initDec_of_byteIn hin hs, State.initDec_of_byteIn hin hm, hbp⟩

end State.Confined

/-! ### Commands confined to a set of pointers -/

/-- An unfaulted, initialized block that decodes at a pointer in `P`, confined to `P`. -/
structure State.DecodesIn (s : State) (m : Memory) (P : Word → Prop) : Prop where
  cause : s.cause = .none
  mqinit : s.mqinit = true
  pointer : P s.mqBp
  confined : s.Confined m P

/-- The run of `is` from `s` completes in `t`, with the contents `m` of CBMEM in `t` with these contents, and the block can
decode on in `P`. -/
def State.RunsIn (s : State) (m : Memory) (P : Word → Prop) (is : List Instr) (t : State) : Prop :=
  State.afterAll is s = some t ∧ State.afterAll is (s.withCbmem m) = some (t.withCbmem m) ∧ t.DecodesIn m P

theorem afterAll_cons {i : Instr} {is : List Instr} {s t : State} (h : exec i s = .next t) :
    State.afterAll (i :: is) s = State.afterAll is t := by
  rw [State.afterAll, h]

/-- A command before a run. -/
theorem State.RunsIn.cons {s t u : State} {m : Memory} {P : Word → Prop} {i : Instr} {is : List Instr}
    (hs : exec i s = .next t) (hm : exec i (s.withCbmem m) = .next (t.withCbmem m)) (h : t.RunsIn m P is u) :
    s.RunsIn m P (i :: is) u := by
  obtain ⟨hrun, hrun', hu⟩ := h
  exact ⟨(afterAll_cons hs).trans hrun, (afterAll_cons hm).trans hrun', hu⟩

section
variable {s : State} {m : Memory} {P : Word → Prop}

/-- A decision of a block that decodes in `P` completes there, and does the same with the contents `m` of CBMEM. -/
theorem State.DecodesIn.mqDecode (h : s.DecodesIn m P) {cxi : BitVec 5} (hcxi : cxi.toNat ≤ 18) :
    ∃ t, exec (.mqDecode cxi) s = .next t ∧ exec (.mqDecode cxi) (s.withCbmem m) = .next (t.withCbmem m) ∧
      t.DecodesIn m P := by
  obtain ⟨hc, hinit, hbp, hconf⟩ := h
  obtain ⟨i, hi⟩ : ∃ i : Fin 19, cxi.toNat = i.val := ⟨⟨cxi.toNat, by omega⟩, rfl⟩
  rw [exec_mqDecode hc hinit hi, exec_mqDecode (s := s.withCbmem m) hc hinit hi]
  refine ⟨_, rfl, ?_⟩
  cases hraw : s.raw with
  | true =>
    obtain ⟨⟨bit, r⟩, hs, hm, hr⟩ := hconf.rawBit (r := s.mqRegs) hbp
    rw [State.mqDecide_of_rawBit hraw hs, State.mqDecide_of_rawBit (s := s.withCbmem m) hraw hm]
    exact ⟨rfl, hc, hinit, hr, hconf⟩
  | false =>
    obtain ⟨d, hs, hm, hd⟩ := hconf.decideArith (s.cx.get i) (r := s.mqRegs) hbp
    rw [State.mqDecide_of_decideArith hraw hs, State.mqDecide_of_decideArith (s := s.withCbmem m) hraw hm]
    exact ⟨rfl, hc, hinit, hd, hconf⟩

/-- So does any number of decisions. -/
theorem State.DecodesIn.decisions (h : s.DecodesIn m P) {decisions : List (BitVec 5)}
    (hcxi : ∀ cxi ∈ decisions, cxi.toNat ≤ 18) : ∃ t, s.RunsIn m P (decisions.map .mqDecode) t := by
  induction decisions generalizing s with
  | nil => exact ⟨s, rfl, rfl, h⟩
  | cons cxi rest ih =>
    obtain ⟨hfirst, hrest⟩ := List.forall_mem_cons.1 hcxi
    obtain ⟨t, hs, hm, ht⟩ := h.mqDecode hfirst
    obtain ⟨u, hu⟩ := ih ht hrest
    exact ⟨u, hu.cons hs hm⟩

/-- `MQ_INITDEC` at a pointer in `P` leaves a block that decodes in `P`. -/
theorem State.Confined.mqInitdec (h : s.Confined m P) (hc : s.cause = .none) {addr : Word} (haddr : P addr)
    (hin : addr.toNat < s.cfg.cbmemSize.toNat) (hbyte : m.read addr.toNat = s.cbmem.read addr.toNat) (raw rst : Bool) :
    ∃ t, exec (.mqInitdec raw rst addr) s = .next t ∧
      exec (.mqInitdec raw rst addr) (s.withCbmem m) = .next (t.withCbmem m) ∧ t.DecodesIn m P := by
  obtain ⟨r, hs, hm, hr⟩ := h.initDec haddr hin hbyte
  exact ⟨_, exec_mqInitdec_of_some hc raw rst hs, exec_mqInitdec_of_some (s := s.withCbmem m) hc raw rst hm,
    hc, rfl, hr, h⟩

end

/-! ### Markers -/

/-- Byte input is confined to the pointer of a marker: it adds the counter bit and stays. -/
theorem State.confined_marker {s : State} {bp : Word} (hin : bp.toNat + 1 < s.cfg.cbmemSize.toNat)
    (hff : s.cbByte bp.toNat = 0xFF) (hmarker : 0x8F < (s.cbByte (bp.toNat + 1)).toNat) :
    s.Confined s.cbmem (· = bp) := by
  have hbyte : ∀ c, s.byteIn c bp = some (c + 1, bp) := fun c => by
    rw [s.byteIn_of_lt c bp hin, if_pos hff]
    exact if_pos hmarker
  intro c p hp
  rw [show p = bp from hp]
  exact ⟨_, hbyte c, hbyte c, rfl⟩

/-- Settles O35: a decision is confined to the pointer of the marker. -/
theorem markerHoldsPointer : Obligations.MarkerHoldsPointer := by
  intro s cxi hc hinit hcxi hin hff hmarker
  have hs : s.DecodesIn s.cbmem (· = s.mqBp) := ⟨hc, hinit, rfl, State.confined_marker hin hff hmarker⟩
  obtain ⟨t, hexec, -, ht⟩ := hs.mqDecode hcxi
  exact ⟨t, hexec, ht.cause, ht.pointer, (keepsMemories_of_exec (fun _ _ _ e => by cases e) hexec).cbmem⟩

/-! ### Terminated segments -/

/-- The pointers `[first, stop]` of a segment with its terminator (41_mq_decoder.md R115). -/
def InSegment (first stop : Nat) (bp : Word) : Prop := first ≤ bp.toNat ∧ bp.toNat ≤ stop

/-- Byte input is confined to a terminated segment, and reads none but its bytes and the terminator's. -/
theorem State.Terminated.confined {s : State} {first stop : Nat} (ht : s.Terminated first stop) {m : Memory}
    (hm : ∀ a, first ≤ a → a ≤ stop + 1 → m.read a = s.cbmem.read a) : s.Confined m (InSegment first stop) := by
  rintro c bp ⟨hfirst, hstop⟩
  obtain ⟨c', bp', hbyte, hback, hstop'⟩ := s.byteIn_of_terminated first stop ht c bp hstop
  have hsame : (s.withCbmem m).byteIn c bp = s.byteIn c bp :=
    s.byteIn_congr (s.withCbmem m) c bp rfl (hm _ hfirst (by omega)) (hm _ (by omega) (by omega))
  exact ⟨(c', bp'), hbyte, hsame.trans hbyte, Nat.le_trans hfirst hback, hstop'⟩

/-- Settles O36: with any contents of CBMEM that agree on the segment and its terminator, the run is confined to the
segment. -/
theorem terminatedSegmentReadBound : Obligations.TerminatedSegmentReadBound := by
  intro s first stop raw rst decisions hc ht hcxi
  have ⟨hle, hsize, _⟩ := ht
  have hrun : ∀ m : Memory, (∀ a, first.toNat ≤ a → a ≤ stop + 1 → m.read a = s.cbmem.read a) →
      ∃ t, s.RunsIn m (InSegment first.toNat stop) (.mqInitdec raw rst first :: decisions.map .mqDecode) t := by
    intro m hm
    obtain ⟨t, hs, hs', hdec⟩ := (ht.confined hm).mqInitdec hc ⟨Nat.le_refl _, hle⟩ (by omega)
      (hm _ (Nat.le_refl _) (by omega)) raw rst
    obtain ⟨u, hu⟩ := hdec.decisions hcxi
    exact ⟨u, hu.cons hs hs'⟩
  obtain ⟨t, hafter, -, hdec⟩ := hrun s.cbmem fun _ _ _ => rfl
  obtain ⟨hfirst, hstop⟩ := hdec.pointer
  refine ⟨t, hafter, hdec.cause, hfirst, hstop, fun m hm => ?_⟩
  obtain ⟨t', hafter', hother, -⟩ := hrun m hm
  cases hafter'.symm.trans hafter
  exact hother

end Sys2Proof.Machine
end

section
/-! What `TT_INIT` leaves in the node file (42_tag_tree.md R141, R142, R145): the tree by level, row and column, in which a
walk climbs one level with each node. -/

namespace Sys2Proof.Machine

/-! ### The tree by level, row and column -/

/-- The node file holds the new tree over `w` x `h` leaves at `base` (42_tag_tree.md R141, R145). -/
def NodeFile.HoldsTree (f : NodeFile) (base w h : Nat) : Prop :=
  ∀ k i j, k ≤ rootLevel w h → i < levelDim h k → j < levelDim w k →
    f.node (base + levelOffset w h k + i * levelDim w k + j) =
      ⟨true, 0, false, if k = rootLevel w h then none
        else some (base + levelOffset w h (k + 1) + i / 2 * levelDim w (k + 1) + j / 2)⟩

theorem NodeFile.holdsTree_setRun (f : NodeFile) (base w h : Nat) (hw : 1 ≤ w) (hh : 1 ≤ h) (hk : rootLevel w h ≤ 16) :
    (f.setRun base (treeNodes base (treeLevels 16 w h))).HoldsTree base w h := by
  intro k i j hroot hi hj
  have hnode := treeNodes_getElem? 16 w h base hw hh hk k i j hroot hi hj
  obtain ⟨hlt, -⟩ := List.getElem?_eq_some_iff.1 hnode
  rw [f.node_setRun, if_pos (by omega), show base + levelOffset w h k + i * levelDim w k + j - base =
    levelOffset w h k + i * levelDim w k + j by omega, hnode, Option.getD_some]

/-- Every index in the first `k` levels is that of a row and column of one of them. -/
theorem exists_place (w h k x : Nat) (hx : x < levelOffset w h k) :
    ∃ l i j, l < k ∧ i < levelDim h l ∧ j < levelDim w l ∧ x = levelOffset w h l + i * levelDim w l + j := by
  induction k with
  | zero => cases hx
  | succ k ih =>
    by_cases hlow : x < levelOffset w h k
    · obtain ⟨l, i, j, hl, hplace⟩ := ih hlow
      exact ⟨l, i, j, by omega, hplace⟩
    · rw [levelOffset] at hx
      have hy : x - levelOffset w h k < levelDim w k * levelDim h k := by omega
      refine ⟨k, (x - levelOffset w h k) / levelDim w k, (x - levelOffset w h k) % levelDim w k, by omega,
        Nat.div_lt_of_lt_mul hy, Nat.mod_lt _ (Nat.pos_of_mul_pos_right (Nat.zero_lt_of_lt hy)), ?_⟩
      have := Nat.div_add_mod' (x - levelOffset w h k) (levelDim w k)
      omega

section
variable {f : NodeFile} {base w h n : Nat} (htree : f.HoldsTree base w h)
include htree

/-- Every node of a new tree is built, 0 and unvisited. -/
theorem NodeFile.HoldsTree.val_eq_zero (hlow : base ≤ n) (hhigh : n < base + treeCount w h) : (f.node n).val = 0 := by
  obtain ⟨k, i, j, hk, hi, hj, hx⟩ := exists_place w h (rootLevel w h + 1) (n - base) (by rw [treeCount] at hhigh; omega)
  rw [show n = base + levelOffset w h k + i * levelDim w k + j by omega, htree k i j (by omega) hi hj]

/-- A walk in a new tree climbs one level with each node. -/
theorem NodeFile.HoldsTree.length_add_level_le {s : State} (hs : s.nodes = f) {path : List Nat} {top : Option Nat}
    {k i j : Nat} (hk : k ≤ rootLevel w h) (hi : i < levelDim h k) (hj : j < levelDim w k)
    (hwalk : s.IsWalk (some (base + levelOffset w h k + i * levelDim w k + j)) path top) :
    path.length + k ≤ rootLevel w h + 1 := by
  induction path generalizing k i j with
  | nil => simp only [List.length_nil]; omega
  | cons m path ih =>
    obtain ⟨-, -, hrest⟩ := hwalk
    rw [State.node, hs, htree k i j hk hi hj] at hrest
    rw [List.length_cons]
    by_cases hroot : k = rootLevel w h
    · rw [if_pos hroot] at hrest
      cases path with
      | nil => simp only [List.length_nil]; omega
      | cons _ _ => exact hrest.elim
    · rw [if_neg hroot] at hrest
      have := ih (by omega) (by rw [levelDim]; omega) (by rw [levelDim]; omega) hrest
      omega

end

/-! ### The command -/

section
variable {s : State} (hc : s.cause = .none) {base : BitVec 24} {w h : Half} (hw : w ≠ 0) (hh : h ≠ 0)
include hc

theorem exec_ttInit_of_side_zero (hzero : w = 0 ∨ h = 0) :
    exec (.ttInit base w h) s = .next { s with cause := .illegalField } := by
  rw [exec_of_not_wellFormed (by rcases hzero with rfl | rfl <;> simp [Instr.wellFormed]), if_pos hc]

include hw hh

/-- With both sides above 0, `TT_INIT` turns on whether the tree fits. -/
theorem exec_ttInit_of_sides : exec (.ttInit base w h) s = .next
    (if base.toNat + treeCount w.toNat h.toNat ≤ s.cfg.ttNodes.toNat then
      { s with
        nodes := s.nodes.setRun base.toNat (treeNodes base.toNat (treeLevels 16 w.toNat h.toNat))
        result := BitVec.ofNat 32 (treeCount w.toNat h.toNat) }
    else { s with cause := .ttCapacity }) := by
  have hcheck : (w != 0 && h != 0) = true := by rw [bne_iff_ne.2 hw, bne_iff_ne.2 hh]; rfl
  show execTtInit base w h s = _
  rw [execTtInit, s.unlessFaulted_of_none _ hc, s.requireField_true _ _ hcheck, s.raise_of_none _ hc]
  dsimp only
  rw [treeSize_eq w.toNat h.toNat (by bv_omega) (by bv_omega) w.isLt h.isLt]
  rfl

end

/-- Settles O37: the run of nodes that `TT_INIT` stores is the tree by level, row and column. -/
theorem ttInitBuildsTree : Obligations.TtInitBuildsTree := by
  intro s base w h hc W H
  refine ⟨fun hw hh hfit => ?_, fun hw hh hfull => ?_, exec_ttInit_of_side_zero hc⟩
  · have hW : 1 ≤ W := by bv_omega
    have hH : 1 ≤ H := by bv_omega
    have hk : rootLevel W H ≤ 16 := rootLevel_le W H w.isLt h.isLt
    have hlength : (treeNodes base.toNat (treeLevels 16 W H)).length = treeCount W H := by
      rw [length_treeNodes_treeLevels 16 W H _ hW hH hk, treeSize_eq W H hW hH w.isLt h.isLt]
    refine ⟨_, (exec_ttInit_of_sides hc hw hh).trans (by rw [if_pos hfit]),
      s.nodes.holdsTree_setRun base.toNat W H hW hH hk, fun n hn => ?_⟩
    exact s.nodes.node_setRun_of_not_mem _ _ n (by omega)
  · rw [exec_ttInit_of_sides hc hw hh, if_neg (Nat.not_le_of_lt hfull)]

/-- `TT_INIT` leaves a fault and the nodes as they were, or the new tree and every other node as it was. -/
theorem exec_ttInit_outcome {s t : State} {base : BitVec 24} {w h : Half} (hexec : exec (.ttInit base w h) s = .next t) :
    (t.cause ≠ .none ∧ t.nodes = s.nodes) ∨ t.nodes.HoldsTree base.toNat w.toNat h.toNat ∧
      ∀ n, ¬ (base.toNat ≤ n ∧ n < base.toNat + treeCount w.toNat h.toNat) → t.node n = s.node n := by
  by_cases hc : s.cause = .none
  · obtain ⟨hbuilds, hfull, hzero⟩ := ttInitBuildsTree s base w h hc
    by_cases hside : w = 0 ∨ h = 0
    · cases hexec.symm.trans (hzero hside)
      exact .inl ⟨nofun, rfl⟩
    · obtain ⟨hw, hh⟩ := not_or.1 hside
      by_cases hfit : base.toNat + treeCount w.toNat h.toNat ≤ s.cfg.ttNodes.toNat
      · obtain ⟨nodes, hnext, htree, hframe⟩ := hbuilds hw hh hfit
        cases hexec.symm.trans hnext
        exact .inr ⟨htree, fun n hn => hframe n (by omega)⟩
      · cases hexec.symm.trans (hfull hw hh (Nat.lt_of_not_le hfit))
        exact .inl ⟨nofun, rfl⟩
  · cases hexec
    rw [s.unlessFaulted_of_ne _ hc]
    exact .inl ⟨hc, rfl⟩

/-- Settles O38: each node of a walk is a level above the one before, and there are `K + 1` levels. -/
theorem newTreeWalksAreShort : Obligations.NewTreeWalksAreShort := by
  intro s t base w h n path top _ hexec ht hlow hhigh hwalk
  obtain ⟨htree, -⟩ := (exec_ttInit_outcome hexec).resolve_left fun hfault => hfault.1 ht
  have hroot := rootLevel_le w.toNat h.toNat w.isLt h.isLt
  obtain ⟨k, i, j, hk, hi, hj, hx⟩ := exists_place w.toNat h.toNat (rootLevel w.toNat h.toNat + 1) (n - base.toNat)
    (by rw [treeCount] at hhigh; omega)
  rw [show n = base.toNat + levelOffset w.toNat h.toNat k + i * levelDim w.toNat k + j by omega] at hwalk
  have := htree.length_add_level_le rfl (by omega) hi hj hwalk
  omega

end Sys2Proof.Machine
end

section
/-! What `TT_DECODE` does, outcome by outcome (42_tag_tree.md R146): in terms of the walk from its node and of the descent
down that walk. -/

namespace Sys2Proof.Machine

/-! ### The data part -/

/-- `TT_DECODE` of node `n` in `s` completes in `t`: the walk from `n` passes `path` up to `top` and fits the stack, the
descent down it ends, and nothing but its outcome is written. -/
structure State.Decodes (s : State) (n : Nat) (thr : Word) (path : List Nat) (top : Option Nat) (t : State) : Prop where
  walk : s.IsWalk (some n) path top
  fits : path.length ≤ s.cfg.ttStack
  descent : ∃ c, s.descend thr path.reverse (s.walkStart path top) s.nodes s.cursor = some (t.result, t.nodes, c) ∧
    t = { s with brPos := c.pos, brBitidx := c.bitidx, nodes := t.nodes, result := t.result }

theorem State.startValue_reverse (s : State) (path : List Nat) (top : Option Nat) :
    s.startValue path.reverse top = s.walkStart path top := by
  cases top with
  | some a => cases path.reverse <;> rfl
  | none =>
    rw [State.walkStart, ← List.head?_reverse]
    cases path.reverse <;> rfl

section
variable {s : State} {n : Nat} {thr : Word}

theorem State.ttDecide_of_not_built (h : ¬ (n < s.cfg.ttNodes.toNat ∧ (s.node n).valid = true)) :
    s.ttDecide n thr = s.raise .ttMissingNode := if_neg h

section
variable (hbuilt : n < s.cfg.ttNodes.toNat ∧ (s.node n).valid = true)
include hbuilt

theorem State.ttDecide_of_walkUp_eq_none (h : s.walkUp s.cfg.ttStack (some n) [] = none) :
    s.ttDecide n thr = s.raise .ttDepth := by
  simp only [State.ttDecide, if_pos hbuilt, h]

section
variable {path : List Nat} {top : Option Nat} (hwalk : s.IsWalk (some n) path top)
include hwalk

theorem State.ttDecide_of_length_gt (hdeep : s.cfg.ttStack < path.length) : s.ttDecide n thr = s.raise .ttDepth :=
  State.ttDecide_of_walkUp_eq_none hbuilt
    ((s.walkUp_of_isWalk _ _ top path [] hwalk).trans (if_neg (Nat.not_le_of_lt hdeep)))

variable (hfits : path.length ≤ s.cfg.ttStack)
include hfits

theorem State.ttDecide_of_descend_eq_none
    (h : s.descend thr path.reverse (s.walkStart path top) s.nodes s.cursor = none) :
    s.ttDecide n thr = s.exhaustedInDecode n := by
  simp only [State.ttDecide, if_pos hbuilt, s.walkUp_of_isWalk _ _ top path [] hwalk, if_pos hfits, List.append_nil,
    s.startValue_reverse, h]

theorem State.ttDecide_of_descend {v : Word} {f : NodeFile} {c : Cursor}
    (h : s.descend thr path.reverse (s.walkStart path top) s.nodes s.cursor = some (v, f, c)) :
    s.ttDecide n thr = { s with brPos := c.pos, brBitidx := c.bitidx, nodes := f, result := v } := by
  simp only [State.ttDecide, if_pos hbuilt, s.walkUp_of_isWalk _ _ top path [] hwalk, if_pos hfits, List.append_nil,
    s.startValue_reverse, h]
  rfl

end
end

/-- A decode ends in a fault that changes nothing else, in BR_EXHAUSTED, or completes. -/
theorem State.ttDecide_outcome (s : State) (n : Nat) (thr : Word) :
    (∃ c, c ≠ .none ∧ s.ttDecide n thr = s.raise c) ∨ s.ttDecide n thr = s.exhaustedInDecode n ∨
      ∃ path top, s.Decodes n thr path top (s.ttDecide n thr) := by
  by_cases hbuilt : n < s.cfg.ttNodes.toNat ∧ (s.node n).valid = true
  · rcases hup : s.walkUp s.cfg.ttStack (some n) [] with _ | ⟨stack, top⟩
    · exact .inl ⟨_, by decide, State.ttDecide_of_walkUp_eq_none hbuilt hup⟩
    · obtain ⟨path, hwalk, -, hfits⟩ := s.isWalk_of_walkUp _ _ top stack [] hup
      rcases hdesc : s.descend thr path.reverse (s.walkStart path top) s.nodes s.cursor with _ | ⟨v, f, c⟩
      · exact .inr (.inl (State.ttDecide_of_descend_eq_none hbuilt hwalk hfits hdesc))
      · rw [State.ttDecide_of_descend hbuilt hwalk hfits hdesc]
        exact .inr (.inr ⟨path, top, hwalk, hfits, c, hdesc, rfl⟩)
  · exact .inl ⟨_, by decide, State.ttDecide_of_not_built hbuilt⟩

end

/-! ### The command -/

theorem exec_ttDecode {s : State} (hc : s.cause = .none) (hinit : s.brinit = true) (node : BitVec 24) (thr : Word) :
    exec (.ttDecode node thr) s = .next (s.ttDecide node.toNat thr) := by
  show execTtDecode node thr s = _
  rw [execTtDecode, s.unlessFaulted_of_none _ hc, s.requireState_true _ _ hinit]

/-- All that `TT_DECODE` can do: it is refused, records a fault that changes nothing else, runs out of bits, or completes. -/
theorem exec_ttDecode_outcome {s t : State} {node : BitVec 24} {thr : Word} (h : exec (.ttDecode node thr) s = .next t) :
    (s.cause ≠ .none ∧ t = s) ∨ s.cause = .none ∧
      ((∃ c, c ≠ .none ∧ t = { s with cause := c }) ∨ t.cause = .brExhausted ∨
        ∃ path top, s.Decodes node.toNat thr path top t) := by
  by_cases hc : s.cause = .none
  · refine .inr ⟨hc, ?_⟩
    by_cases hinit : s.brinit = true
    · cases (exec_ttDecode hc hinit node thr).symm.trans h
      rcases s.ttDecide_outcome node.toNat thr with ⟨c, hne, e⟩ | e | hdecodes
      · exact .inl ⟨c, hne, by rw [e, s.raise_of_none c hc]⟩
      · exact .inr (.inl (by rw [e, s.exhaustedInDecode_eq _ hc]))
      · exact .inr (.inr hdecodes)
    · cases (illegalState_next hc (eq_false_of_ne_true hinit) _).symm.trans h
      exact .inl ⟨.illegalState, by decide, rfl⟩
  · cases h; exact .inl ⟨hc, s.unlessFaulted_of_ne _ hc⟩

/-- A `TT_DECODE` that leaves no cause has completed. -/
theorem exec_ttDecode_completes {s t : State} {node : BitVec 24} {thr : Word} (h : exec (.ttDecode node thr) s = .next t)
    (ht : t.cause = .none) : ∃ path top, s.Decodes node.toNat thr path top t := by
  rcases exec_ttDecode_outcome h with ⟨hc, rfl⟩ | ⟨-, ⟨c, hne, rfl⟩ | hexhausted | hdecodes⟩
  · exact absurd ht hc
  · exact absurd ht hne
  · rw [hexhausted] at ht; cases ht
  · exact hdecodes

/-! ### The descent on values and bits -/

/-- The stack of a walk holds unvisited nodes, none of them twice. -/
theorem State.IsWalk.stack {s : State} {n top : Option Nat} {path : List Nat} (h : s.IsWalk n path top) :
    path.reverse.Nodup ∧ ∀ m ∈ path.reverse, (s.node m).vis = false :=
  ⟨List.nodup_reverse.2 (State.IsWalk.nodup s n top path h),
    fun m hm => State.IsWalk.vis s n top path h m (List.mem_reverse.1 hm)⟩

section
variable {s : State} (hf : s.nodes.wf s.cfg.ttNodes.toNat) {thr : Word} {n : Nat} {path : List Nat} {top : Option Nat}
  (hwalk : s.IsWalk (some n) path top)
include hf hwalk

theorem State.descend_of_tagDescent {news : List (Nat × Bool)} {v : Nat} {rest : List Bool}
    (h : tagDescent thr.toNat (path.reverse.map fun m => (s.node m).val.toNat) (s.walkStart path top).toNat s.headerBits =
      some (news, v, rest)) :
    ∃ f c, s.descend thr path.reverse (s.walkStart path top) s.nodes s.cursor = some (BitVec.ofNat 32 v, f, c) ∧
      s.bitsFrom c = rest ∧ s.cursorAfter (s.headerBits.length - rest.length) s.cursor = some c ∧
      ∀ m, f.node m = s.nodesAfter path.reverse news m := by
  obtain ⟨hnodup, hvis⟩ := hwalk.stack
  obtain ⟨f, c, hdesc, hrest, hcursor, -, -, -, hnodes⟩ :=
    (s.descend_eq thr path.reverse (s.walkStart path top) s.nodes s.cursor hf.1 hnodup hvis).1 news v rest h
  exact ⟨f, c, hdesc, hrest, hcursor, hnodes⟩

theorem State.descend_eq_none_of_tagDescent
    (h : tagDescent thr.toNat (path.reverse.map fun m => (s.node m).val.toNat) (s.walkStart path top).toNat s.headerBits =
      none) : s.descend thr path.reverse (s.walkStart path top) s.nodes s.cursor = none :=
  (s.descend_eq thr path.reverse (s.walkStart path top) s.nodes s.cursor hf.1 hwalk.stack.1 hwalk.stack.2).2 h

end

/-- Settles O39: the walk of the model is `State.IsWalk`, and its descent is `tagDescent`. -/
theorem ttDecodeFollowsDescent : Obligations.TtDecodeFollowsDescent := by
  intro s node thr path top news v rest hc hinit hf hn hv hwalk hfits hdescent
  obtain ⟨f, c, hdesc, hrest, hcursor, hnodes⟩ := State.descend_of_tagDescent hf hwalk hdescent
  refine ⟨c, f, hcursor, hrest, ?_, hnodes⟩
  rw [exec_ttDecode hc hinit, State.ttDecide_of_descend ⟨hn, hv⟩ hwalk hfits hdesc]

/-- Settles O40: the checks of R146 in their order, then a descent without the bits it needs. -/
theorem ttDecodeFaults : Obligations.TtDecodeFaults := by
  intro s node thr hc hinit hf
  rw [exec_ttDecode hc hinit]
  refine ⟨fun hbuilt => ?_, fun hn hv path top hwalk => ⟨fun hdeep => ?_, fun hfits hdescent => ?_⟩⟩
  · rw [State.ttDecide_of_not_built hbuilt, s.raise_of_none _ hc]
  · rw [State.ttDecide_of_length_gt ⟨hn, hv⟩ hwalk hdeep, s.raise_of_none _ hc]
  · have hdesc := State.descend_eq_none_of_tagDescent hf hwalk hdescent
    refine ⟨_, rfl, ?_⟩
    rw [State.ttDecide_of_descend_eq_none ⟨hn, hv⟩ hwalk hfits hdesc, s.exhaustedInDecode_eq _ hc]

/-- The descent is over where the value has reached the threshold. -/
theorem State.descend_of_le (s : State) {thr cur : Word} (h : thr ≤ cur) (stack : List Nat) (f : NodeFile) (c : Cursor) :
    s.descend thr stack cur f c = some (cur, f, c) := by
  cases stack with
  | nil => rfl
  | cons t stack => exact if_neg (Nat.not_lt.2 h)

/-- Settles O41: every value has reached the threshold 0. -/
theorem ttZeroThresholdReturnsStart : Obligations.TtZeroThresholdReturnsStart := by
  intro s node path top hc hinit hn hv hwalk hfits
  have hdesc := s.descend_of_le (show 0 ≤ s.walkStart path top from Nat.zero_le _) path.reverse s.nodes s.cursor
  rw [exec_ttDecode hc hinit, State.ttDecide_of_descend ⟨hn, hv⟩ hwalk hfits hdesc]
  rfl

end Sys2Proof.Machine
end

section
/-! What a decode leaves (42_tag_tree.md R144, R146), of any start: the value it reached stands at its node, and every node
it wrote has a visited parent of a lower value. -/

namespace Sys2Proof.Machine

/-! ### One round of the descent -/

/-- What the code of one node leaves: a value no lower, below the threshold exactly where a 1 bit was read. -/
theorem State.nodeCode_outcome {s : State} {thr start x : Word} {seen : Bool} {c c' : Cursor}
    (h : s.nodeCode (thr.toNat - start.toNat) start c = some (x, seen, c')) :
    start ≤ x ∧ (seen = true ↔ x < thr) := by
  induction hroom : thr.toNat - start.toNat generalizing start c with
  | zero =>
    rw [hroom] at h
    cases h
    exact ⟨Nat.le_refl _, iff_of_false Bool.false_ne_true (by bv_omega)⟩
  | succ room ih =>
    rw [hroom, State.nodeCode] at h
    cases hg : s.getBit c with
    | none => simp [hg] at h
    | some p =>
      obtain ⟨b, c₁⟩ := p
      rw [hg] at h
      cases b with
      | true => cases h; exact ⟨Nat.le_refl _, iff_of_true rfl (by bv_omega)⟩
      | false =>
        have hnext : thr.toNat - (start + 1).toNat = room := by bv_omega
        obtain ⟨hle, hseen⟩ := ih (hnext ▸ h) hnext
        exact ⟨by bv_omega, hseen⟩

/-- One round of the descent on an unvisited node `t`: it is over before `t`, it is over at `t`, which takes a value that has
reached the threshold, or `t` becomes visited with a value below the threshold and the rest of the stack follows. -/
theorem State.descend_cons_outcome {s : State} {thr : Word} {t : Nat} {stack : List Nat} {cur v : Word} {f f' : NodeFile}
    {c c' : Cursor} (hvis : (f.node t).vis = false) (h : s.descend thr (t :: stack) cur f c = some (v, f', c')) :
    (thr ≤ cur ∧ v = cur ∧ f' = f) ∨ (cur < thr ∧ ∃ x, cur ≤ x ∧
      ((thr ≤ x ∧ v = x ∧ f' = f.setNode t { f.node t with val := x }) ∨
        (x < thr ∧ ∃ c₁, s.descend thr stack x (f.setNode t { f.node t with val := x, vis := true }) c₁ =
          some (v, f', c')))) := by
  by_cases hover : thr ≤ cur
  · rw [s.descend_of_le hover] at h
    cases h
    exact .inl ⟨hover, rfl, rfl⟩
  · have hlt : cur < thr := Nat.lt_of_not_le hover
    rw [State.descend, if_pos hlt] at h
    dsimp only at h
    have hstart : cur ≤ if cur < (f.node t).val then (f.node t).val else cur := by split <;> bv_omega
    generalize (if cur < (f.node t).val then (f.node t).val else cur) = start at h hstart
    cases hcode : s.nodeCode (thr.toNat - start.toNat) start c with
    | none => simp [hcode] at h
    | some p =>
      obtain ⟨x, seen, c₁⟩ := p
      obtain ⟨hle, hseen⟩ := State.nodeCode_outcome hcode
      rw [hcode, hvis] at h
      dsimp only at h
      rw [Bool.false_or] at h
      refine .inr ⟨hlt, x, BitVec.le_trans hstart hle, ?_⟩
      cases seen with
      | true => exact .inr ⟨hseen.1 rfl, c₁, h⟩
      | false =>
        have hreached : thr ≤ x := BitVec.not_lt.1 fun hx => Bool.false_ne_true (hseen.2 hx)
        rw [s.descend_of_le hreached] at h
        cases h
        exact .inl ⟨hreached, rfl, by rw [← hvis]⟩

/-! ### The way down -/

/-- `stack` leads down from `above`, or from a root, to `n`: unvisited nodes, each with the one before as its parent. -/
def NodeFile.LeadsDown (f : NodeFile) (n : Nat) : Option Nat → List Nat → Prop
  | above, [] => above = some n
  | above, t :: stack => (f.node t).parent = above ∧ (f.node t).vis = false ∧ f.LeadsDown n (some t) stack

/-- The node a walk ends at is visited. -/
theorem State.IsWalk.vis_top {s : State} {m : Option Nat} {path : List Nat} {a : Nat} (h : s.IsWalk m path (some a)) :
    (s.node a).vis = true := by
  induction path generalizing m with
  | nil => exact h.2 a rfl
  | cons k path ih =>
    cases m with
    | none => exact h.elim
    | some m =>
      obtain ⟨-, -, hrest⟩ := h
      exact ih hrest

/-- A walk taken back leads down to where it began. -/
theorem State.IsWalk.leadsDown {s : State} {m top : Option Nat} {path : List Nat} (h : s.IsWalk m path top) {n : Nat}
    {below : List Nat} (hbelow : s.nodes.LeadsDown n m below) : s.nodes.LeadsDown n top (path.reverse ++ below) := by
  induction path generalizing m below with
  | nil => obtain ⟨rfl, -⟩ := h; exact hbelow
  | cons k path ih =>
    cases m with
    | none => exact h.elim
    | some m =>
      obtain ⟨rfl, hvis, hrest⟩ := h
      rw [List.reverse_cons, List.append_assoc]
      exact ih hrest ⟨rfl, hvis, hbelow⟩

theorem NodeFile.LeadsDown.vis {f : NodeFile} {n : Nat} {above : Option Nat} {stack : List Nat}
    (h : f.LeadsDown n above stack) : ∀ m ∈ stack, (f.node m).vis = false := by
  induction stack generalizing above with
  | nil => exact nofun
  | cons t stack ih =>
    obtain ⟨-, hvis, hrest⟩ := h
    exact List.forall_mem_cons.2 ⟨hvis, ih hrest⟩

theorem NodeFile.LeadsDown.setNode {f : NodeFile} (hf : f.Pairwise (fun x y => x.1 < y.1)) {n t : Nat} {node : TagNode}
    {above : Option Nat} {stack : List Nat} (ht : t ∉ stack) (h : f.LeadsDown n above stack) :
    (f.setNode t node).LeadsDown n above stack := by
  induction stack generalizing above with
  | nil => exact h
  | cons m stack ih =>
    obtain ⟨hparent, hvis, hrest⟩ := h
    obtain ⟨hne, ht⟩ := not_or.1 (mt List.mem_cons.2 ht)
    have hnode : (f.setNode t node).node m = f.node m := by rw [f.node_setNode hf, if_neg (Ne.symm hne)]
    exact ⟨by rw [hnode, hparent], by rw [hnode, hvis], ih ht hrest⟩

/-- The descent to `n` is about to go down `stack` from the value `cur`: that of the visited node `above`, or of the root on
top of the stack. -/
structure NodeFile.Ready (f : NodeFile) (n : Nat) (above : Option Nat) (stack : List Nat) (cur : Word) : Prop where
  rising : f.Pairwise (fun x y => x.1 < y.1)
  nodup : stack.Nodup
  down : f.LeadsDown n above stack
  known : ∀ p, above = some p → (f.node p).vis = true ∧ (f.node p).val = cur
  root : above = none → ∀ t, stack.head? = some t → (f.node t).val = cur

theorem State.IsWalk.ready {s : State} (hf : s.nodes.Pairwise (fun x y => x.1 < y.1)) {n : Nat} {path : List Nat}
    {top : Option Nat} (h : s.IsWalk (some n) path top) :
    s.nodes.Ready n top path.reverse (s.walkStart path top) where
  rising := hf
  nodup := h.stack.1
  down := by simpa using h.leadsDown (below := []) rfl
  known := by
    rintro p rfl
    exact ⟨h.vis_top, rfl⟩
  root := by
    rintro rfl t ht
    rw [List.head?_reverse] at ht
    rw [State.walkStart, ht]
    rfl

section
variable {f : NodeFile} {n t : Nat} {above : Option Nat} {stack : List Nat} {cur : Word}

/-- A node that has become visited is where the rest of the descent starts. -/
theorem NodeFile.Ready.next (h : f.Ready n above (t :: stack) cur) (x : Word) :
    (f.setNode t { f.node t with val := x, vis := true }).Ready n (some t) stack x where
  rising := f.pairwise_setNode h.rising t _
  nodup := h.nodup.of_cons
  down := h.down.2.2.setNode h.rising (List.nodup_cons.1 h.nodup).1
  known := by
    rintro p ⟨⟩
    rw [f.node_setNode h.rising, if_pos rfl]
    exact ⟨rfl, rfl⟩
  root := nofun

/-! ### The value that stands at a node -/

/-- The value `v` stands at node `n` for the threshold `thr`: `n` is known to have it; or it has reached the threshold and
is the bound of `n`, or of an ancestor, at which a descent to `n` ends. -/
inductive NodeFile.Stands (f : NodeFile) (thr v : Word) : Nat → Prop
  | known {n : Nat} (hvis : (f.node n).vis = true) (hval : (f.node n).val = v) : f.Stands thr v n
  | bound {n : Nat} (hvis : (f.node n).vis = false) (hthr : thr ≤ v) (hval : (f.node n).val = v)
      (hparent : ∀ p, (f.node n).parent = some p →
        (f.node p).vis = true ∧ (f.node p).val < thr ∧ (f.node p).val ≤ v) : f.Stands thr v n
  | above {n p : Nat} (hvis : (f.node n).vis = false) (hthr : thr ≤ v) (hparent : (f.node n).parent = some p)
      (hp : f.Stands thr v p) : f.Stands thr v n

/-- A value that has reached the threshold stands at every node down the stack. -/
theorem NodeFile.Stands.down {thr v : Word} (hthr : thr ≤ v) {p : Nat} (hp : f.Stands thr v p)
    (h : f.LeadsDown n (some p) stack) : f.Stands thr v n := by
  induction stack generalizing p with
  | nil => cases h; exact hp
  | cons t stack ih =>
    obtain ⟨hparent, hvis, hrest⟩ := h
    exact ih (.above hvis hthr hparent hp) hrest

section
variable {s : State} {thr v : Word} {f' : NodeFile} {c c' : Cursor} (hr : f.Ready n above stack cur)
  (h : s.descend thr stack cur f c = some (v, f', c'))
include hr h

/-- The result of a descent stands at its node. -/
theorem NodeFile.Ready.stands : f'.Stands thr v n := by
  induction stack generalizing f above cur c with
  | nil => cases h; obtain ⟨hvis, hval⟩ := hr.known n hr.down; exact .known hvis hval
  | cons t stack ih =>
    obtain ⟨hparent, hvis, hdown⟩ := hr.down
    rcases State.descend_cons_outcome hvis h with ⟨hthr, rfl, rfl⟩ | ⟨hlt, x, hle, ⟨hthr, rfl, rfl⟩ | ⟨-, c₁, hrest⟩⟩
    · cases above with
      | some p =>
        obtain ⟨hpvis, hpval⟩ := hr.known p rfl
        exact .down hthr (.known hpvis hpval) hr.down
      | none => exact .down hthr (.bound hvis hthr (hr.root rfl t rfl) (by rw [hparent]; nofun)) hdown
    · have hnode := f.node_setNode hr.rising t (v := { f.node t with val := v })
      refine .down hthr (.bound (by rw [hnode, if_pos rfl, hvis]) hthr (by rw [hnode, if_pos rfl]) fun p hp => ?_)
        (hdown.setNode hr.rising (List.nodup_cons.1 hr.nodup).1)
      rw [hnode, if_pos rfl] at hp
      obtain ⟨hpvis, rfl⟩ := hr.known p (hparent.symm.trans hp)
      have hpt : p ≠ t := by rintro rfl; rw [hvis] at hpvis; cases hpvis
      rw [hnode, if_neg hpt]
      exact ⟨hpvis, hlt, hle⟩
    · exact ih (hr.next x) hrest

/-- Each node after a descent: as it was, or a node of the stack whose parent is visited, with a value below the threshold
and no greater than the node's. -/
theorem NodeFile.Ready.node_cases (m : Nat) :
    f'.node m = f.node m ∨ m ∈ stack ∧ ∀ p, (f.node m).parent = some p →
      (f'.node p).vis = true ∧ (f'.node p).val < thr ∧ (f'.node p).val ≤ (f'.node m).val := by
  induction stack generalizing f above cur c with
  | nil => cases h; exact .inl rfl
  | cons t stack ih =>
    obtain ⟨hparent, hvis, -⟩ := hr.down
    have hself : ∀ x, cur < thr → cur ≤ x → (f'.node t).val = x → ∀ p, (f.node t).parent = some p →
        (f'.node p).vis = true ∧ (f'.node p).val < thr ∧ (f'.node p).val ≤ (f'.node t).val := by
      rintro x hlt hle rfl p hp
      obtain ⟨hpvis, rfl⟩ := hr.known p (hparent.symm.trans hp)
      have hpstack : p ∉ t :: stack := fun hmem => by rw [hr.down.vis p hmem] at hpvis; cases hpvis
      rw [(State.node_descend h hr.rising p).2 hpstack]
      exact ⟨hpvis, hlt, hle⟩
    rcases State.descend_cons_outcome hvis h with ⟨-, -, rfl⟩ | ⟨hlt, x, hle, ⟨-, -, rfl⟩ | ⟨-, c₁, hrest⟩⟩
    · exact .inl rfl
    · by_cases hm : m = t
      · subst hm
        exact .inr ⟨List.mem_cons_self, hself x hlt hle (by rw [f.node_setNode hr.rising, if_pos rfl])⟩
      · exact .inl (by rw [f.node_setNode hr.rising, if_neg hm])
    · have hnode := f.node_setNode hr.rising t m { f.node t with val := x, vis := true }
      rcases ih (hr.next x) hrest with he | ⟨hmem, hm⟩
      · rw [hnode] at he
        by_cases hm : m = t
        · subst hm
          exact .inr ⟨List.mem_cons_self, hself x hlt hle (by rw [he, if_pos rfl])⟩
        · exact .inl (by rw [he, if_neg hm])
      · rw [hnode, if_neg (ne_of_mem_of_not_mem hmem (List.nodup_cons.1 hr.nodup).1)] at hm
        exact .inr ⟨List.mem_cons_of_mem _ hmem, hm⟩

end
end

end Sys2Proof.Machine
end

section
/-! The result of `TT_DECODE` (42_tag_tree.md R147): exact below the threshold (item 1), and, for a threshold that the node's
own value has reached (item 3), the value of R146, which is not always the node's own (log 14). -/

namespace Sys2Proof.Machine

/-! ### A completed decode -/

section
variable {s t : State} {n : Nat} {thr : Word} {path : List Nat} {top : Option Nat} (hd : s.Decodes n thr path top t)
  (hf : s.nodes.Pairwise (fun x y => x.1 < y.1))
include hd hf

theorem State.Decodes.stands : t.nodes.Stands thr t.result n := by
  obtain ⟨c, hdesc, -⟩ := hd.descent
  exact (hd.walk.ready hf).stands hdesc

theorem State.Decodes.node_cases (m : Nat) :
    t.node m = s.node m ∨ m ∈ path ∧ ∀ p, (s.node m).parent = some p →
      (t.node p).vis = true ∧ (t.node p).val < thr ∧ (t.node p).val ≤ (t.node m).val := by
  obtain ⟨c, hdesc, -⟩ := hd.descent
  have hcases := (hd.walk.ready hf).node_cases hdesc m
  rwa [List.mem_reverse] at hcases

theorem State.Decodes.follows (m : Nat) : (s.node m).Follows (t.node m) := by
  obtain ⟨c, hdesc, -⟩ := hd.descent
  obtain ⟨hraised, hsame⟩ := State.node_descend hdesc hf m
  refine ⟨hraised, fun hvis => hsame fun hm => ?_⟩
  rw [hd.walk.stack.2 m hm] at hvis
  cases hvis

end

/-- Settles O42: only what is known of the node itself stands at it below the threshold. -/
theorem ttResultBelowThresholdIsExact : Obligations.TtResultBelowThresholdIsExact := by
  intro s t node thr _ hf hexec ht hlt
  obtain ⟨path, top, hd⟩ := exec_ttDecode_completes hexec ht
  cases hd.stands hf.1 with
  | known hvis hval => exact ⟨hvis, hval⟩
  | bound _ hthr => exact absurd hlt (Nat.not_lt.2 hthr)
  | above _ hthr => exact absurd hlt (Nat.not_lt.2 hthr)

/-! ### The walk from a node with a value above 0 -/

section
variable {s : State} {n : Nat}

theorem State.isWalk_of_vis (hvis : (s.node n).vis = true) : s.IsWalk (some n) [] (some n) :=
  ⟨rfl, by rintro a ⟨⟩; exact hvis⟩

/-- The walk from an unvisited node whose parent, if any, is visited. -/
theorem State.isWalk_singleton (hvis : (s.node n).vis = false)
    (hparent : ∀ p, (s.node n).parent = some p → (s.node p).vis = true) : s.IsWalk (some n) [n] (s.node n).parent :=
  ⟨rfl, hvis, rfl, hparent⟩

/-! ### A threshold the node's own value has reached -/

variable {thr : Word} (hthr : thr ≤ (s.node n).val)
include hthr

/-- Where the value stands at or above the threshold already, the descent to `n` reads no bit and writes no node. -/
theorem State.descend_singleton (hf : s.nodes.wf s.cfg.ttNodes.toNat) {cur : Word} (hlt : cur < thr) (c : Cursor) :
    s.descend thr [n] cur s.nodes c = some ((s.node n).val, s.nodes, c) := by
  have hstart : cur < (s.nodes.node n).val := Nat.lt_of_lt_of_le hlt hthr
  have hroom : thr.toNat - (s.nodes.node n).val.toNat = 0 := Nat.sub_eq_zero_of_le hthr
  simp only [State.descend, if_pos hlt, if_pos hstart, hroom, State.nodeCode, Bool.or_false, s.nodes.setNode_self _ hf n]
  rfl

variable {path : List Nat} {top : Option Nat} (hwalk : s.IsWalk (some n) path top)
include hwalk

/-- A descent to a node whose value has reached the threshold takes the node's value, but where it starts from a value that
has reached the threshold too. -/
theorem State.ReadOrder.descend_of_reached (ho : s.ReadOrder) (hf : s.nodes.wf s.cfg.ttNodes.toNat) (c : Cursor) :
    s.descend thr path.reverse (s.walkStart path top) s.nodes c =
      some (if s.walkStart path top < thr then (s.node n).val else s.walkStart path top, s.nodes, c) := by
  by_cases hlt : s.walkStart path top < thr
  · rw [if_pos hlt]
    have hval : (s.node n).val ≠ 0 := by bv_omega
    cases hvis : (s.node n).vis with
    | true =>
      obtain ⟨rfl, rfl⟩ := State.IsWalk.unique s _ _ _ _ _ hwalk (State.isWalk_of_vis hvis)
      exact absurd hthr (Nat.not_le_of_lt hlt)
    | false =>
      have hsingle := State.isWalk_singleton hvis fun p hp => ho n p hval hp
      obtain ⟨rfl, rfl⟩ := State.IsWalk.unique s _ _ _ _ _ hwalk hsingle
      exact State.descend_singleton hthr hf hlt c
  · rw [if_neg hlt, s.descend_of_le (BitVec.not_lt.1 hlt)]

end

theorem State.Decodes.eq_of_reached {s t : State} {n : Nat} {thr : Word} {path : List Nat} {top : Option Nat}
    (hd : s.Decodes n thr path top t) (ho : s.ReadOrder) (hf : s.nodes.wf s.cfg.ttNodes.toNat)
    (hthr : thr ≤ (s.node n).val) :
    t = { s with result := if s.walkStart path top < thr then (s.node n).val else s.walkStart path top } := by
  obtain ⟨c, hdesc, ht⟩ := hd.descent
  rw [ho.descend_of_reached hthr hd.walk hf] at hdesc
  obtain ⟨hresult, hnodes, rfl⟩ : _ = t.result ∧ s.nodes = t.nodes ∧ s.cursor = c := by simpa using hdesc
  rw [ht, ← hresult, ← hnodes]
  rfl

/-- Settles O44: the walk is the node alone, or empty, where the node's value is above 0; with the value 0 the threshold is
0, which every start has reached. -/
theorem ttSatisfiedThresholdReadsNoBit : Obligations.TtSatisfiedThresholdReadsNoBit := by
  intro s t node thr hf ho _ hexec ht own hthr
  obtain ⟨path, top, hd⟩ := exec_ttDecode_completes hexec ht
  have hwalk := hd.walk
  have heq := hd.eq_of_reached ho hf hthr
  have hresult := congrArg State.result heq
  refine ⟨by rw [hresult]; exact heq, ?_, ?_, fun p hvis hp hval => ?_⟩
  · rw [hresult]
    show thr ≤ if s.walkStart path top < thr then own.val else s.walkStart path top
    split
    · exact hthr
    · next hlt => exact BitVec.not_lt.1 hlt
  · intro hself
    have hstart : s.walkStart path top = own.val := by
      cases hvis : own.vis with
      | true =>
        obtain ⟨rfl, rfl⟩ := State.IsWalk.unique s _ _ _ _ _ hwalk (State.isWalk_of_vis hvis)
        rfl
      | false =>
        have hroot : own.parent = none := hself.resolve_left (by simp [hvis])
        have hsingle := State.isWalk_singleton hvis (by rw [hroot]; nofun)
        obtain ⟨rfl, rfl⟩ := State.IsWalk.unique s _ _ _ _ _ hwalk hsingle
        rw [hroot]
        rfl
    rw [hresult, hstart, ite_self]
  · have hsingle := State.isWalk_singleton hvis fun q hq => ho _ q hval hq
    rw [hp] at hsingle
    obtain ⟨rfl, rfl⟩ := State.IsWalk.unique s _ _ _ _ _ hwalk hsingle
    exact hresult

/-- Settles O45: an unvisited node's parent was below an earlier threshold, so it is below this one, and the descent takes
the node's own value. -/
theorem ttSatisfiedThresholdInOrder : Obligations.TtSatisfiedThresholdInOrder := by
  intro s node thr bound hc hinit hf hstack hn hv hwithin hbound hpos hthr
  have ho := hwithin.readOrder
  have hval : (s.node node.toNat).val ≠ 0 := by bv_omega
  suffices hwalk : ∃ path top, s.IsWalk (some node.toNat) path top ∧ path.length ≤ s.cfg.ttStack ∧
      (s.walkStart path top < thr ∨ s.walkStart path top = (s.node node.toNat).val) by
    obtain ⟨path, top, hwalk, hfits, hstart⟩ := hwalk
    have hdesc := ho.descend_of_reached hthr hwalk hf s.cursor
    rw [exec_ttDecode hc hinit, State.ttDecide_of_descend ⟨hn, hv⟩ hwalk hfits hdesc]
    rcases hstart with hstart | hstart
    · rw [if_pos hstart]
      rfl
    · rw [hstart, ite_self]
      rfl
  cases hvis : (s.node node.toNat).vis with
  | true => exact ⟨[], _, State.isWalk_of_vis hvis, Nat.zero_le _, .inr rfl⟩
  | false =>
    refine ⟨[node.toNat], _, State.isWalk_singleton hvis fun p hp => ho _ p hval hp, hstack, ?_⟩
    cases hp : (s.node node.toNat).parent with
    | none => exact .inr rfl
    | some p => exact .inl (Nat.lt_of_lt_of_le ((hwithin _ p hval hp).2 hvis) hbound)

/-! ### R147 item 3 as it is written -/

/-- A reader without header bits, with two nodes: leaf 0, known to be at least 5, and its parent, root 1, known to be 3. -/
def rootBelowLeaf : State :=
  { State.powerOn ⟨1, 2, 2, 17⟩ [] [] with
    brinit := true, nodes := [(0, ⟨true, 5, false, some 1⟩), (1, ⟨true, 3, true, none⟩)] }

theorem rootBelowLeaf_parent {n p : Nat} (h : (rootBelowLeaf.node n).parent = some p) : n = 0 ∧ p = 1 := by
  have hnode : rootBelowLeaf.node n = if n = 0 then ⟨true, 5, false, some 1⟩ else
      if n = 1 then ⟨true, 3, true, none⟩ else TagNode.atReset := rfl
  rw [hnode] at h
  split at h
  · next hn => exact ⟨hn, (Option.some.inj h).symm⟩
  · split at h <;> cases h

theorem rootBelowLeaf_inv : rootBelowLeaf.Inv where
  config := by decide
  contexts := by decide
  bitidx := by decide
  window := by decide
  interval := nofun
  parents := fun n p _ h => by
    obtain ⟨rfl, rfl⟩ := rootBelowLeaf_parent h
    decide
  phmem := by decide
  cbmem := by decide
  nodes := by decide

/-- Refutes O43: in `rootBelowLeaf`, `TT_DECODE` of the leaf with `THR` = 2 gives 3, the value of the root, and not 5
(log 14). -/
theorem not_ttSatisfiedThresholdReturnsNodeValue : ¬ Obligations.TtSatisfiedThresholdReturnsNodeValue := by
  intro hall
  have horder : rootBelowLeaf.ReadOrder := fun n p _ h => by
    obtain ⟨rfl, rfl⟩ := rootBelowLeaf_parent h
    rfl
  have hexec : exec (.ttDecode 0 2) rootBelowLeaf = .next { rootBelowLeaf with result := 3 } := rfl
  obtain ⟨-, -, hresult⟩ := hall _ _ 0 2 rootBelowLeaf_inv horder rfl hexec rfl (by decide)
  exact absurd hresult (by decide)

end Sys2Proof.Machine
end

section
/-! The order of reads under every command (42_tag_tree.md R146, R147 item 3): a node that `TT_DECODE` writes has a visited
parent whose value is below the threshold, and `TT_INIT` writes no value above 0. -/

namespace Sys2Proof.Machine

/-- The order of reads is a matter of the node file alone. -/
theorem State.ReadWithin.congr {s t : State} {bound : Nat → Nat} (h : s.ReadWithin bound) (hnodes : t.nodes = s.nodes) :
    t.ReadWithin bound := by
  unfold State.ReadWithin State.node
  rw [hnodes]
  exact h

/-- Every order of reads lies within the bound that all words are below. -/
theorem State.ReadOrder.readWithin {s : State} (h : s.ReadOrder) : s.ReadWithin fun _ => 2 ^ 32 :=
  fun n p hval hp => ⟨h n p hval hp, fun _ => (s.node p).val.isLt⟩

/-- Bounds do not fall along a walk. -/
theorem State.IsWalk.bound_le {s : State} {bound : Nat → Nat} (hrise : s.BoundsRise bound) {n : Nat} {path : List Nat}
    {top : Option Nat} (h : s.IsWalk (some n) path top) : ∀ m ∈ path, bound n ≤ bound m := by
  induction path generalizing n with
  | nil => exact nofun
  | cons k path ih =>
    obtain ⟨rfl, -, hrest⟩ := h
    refine List.forall_mem_cons.2 ⟨Nat.le_refl _, fun m hm => ?_⟩
    cases hp : (s.node k).parent with
    | none =>
      rw [hp] at hrest
      cases path with
      | nil => cases hm
      | cons _ _ => exact hrest.elim
    | some p =>
      rw [hp] at hrest
      exact Nat.le_trans (hrise k p hp) (ih hrest m hm)

/-- `TT_DECODE` with a threshold up to the bound of its node. -/
theorem State.Decodes.readWithin {s t : State} {n : Nat} {thr : Word} {path : List Nat} {top : Option Nat}
    {bound : Nat → Nat} (hd : s.Decodes n thr path top t) (hf : s.nodes.Pairwise (fun x y => x.1 < y.1))
    (h : s.ReadWithin bound) (hrise : s.BoundsRise bound) (hthr : thr.toNat ≤ bound n) : t.ReadWithin bound := by
  intro m p hval hp
  rw [(hd.follows hf m).parent] at hp
  rcases hd.node_cases hf m with hsame | ⟨hmem, hparent⟩
  · rw [hsame] at hval ⊢
    have hread := h m p hval hp
    rwa [(hd.follows hf p).visited hread.1]
  · obtain ⟨hpvis, hlt, -⟩ := hparent p hp
    have hle := hd.walk.bound_le hrise m hmem
    exact ⟨hpvis, fun _ => Nat.lt_of_lt_of_le hlt (Nat.le_trans hthr hle)⟩

/-- A new tree into which no other node's parent link leads. -/
theorem State.ReadWithin.newTree {s t : State} {bound : Nat → Nat} (h : s.ReadWithin bound) {base w l : Nat}
    (htree : t.nodes.HoldsTree base w l)
    (hframe : ∀ n, ¬ (base ≤ n ∧ n < base + treeCount w l) → t.node n = s.node n)
    (hlinks : ∀ n p, (s.node n).parent = some p → base ≤ p → p < base + treeCount w l →
      base ≤ n ∧ n < base + treeCount w l) : t.ReadWithin bound := by
  intro n p hval hp
  have hn : ¬ (base ≤ n ∧ n < base + treeCount w l) := fun hin => hval (htree.val_eq_zero hin.1 hin.2)
  rw [hframe n hn] at hval hp ⊢
  rw [hframe p fun hin => hn (hlinks n p hp hin.1 hin.2)]
  exact h n p hval hp

/-- Settles O47: of the commands that write nodes, `RESET` leaves none, `TT_INIT` leaves a new tree, and `TT_DECODE` writes
along its walk. -/
theorem readWithinIsKept : Obligations.ReadWithinIsKept := by
  intro i s t bound hf h hrise hexec hne hlinks hthr
  cases i with
  | reset => cases hexec; exact State.readWithin_of_nil rfl bound
  | ttInit base w l =>
    rcases exec_ttInit_outcome hexec with ⟨-, hnodes⟩ | ⟨htree, hframe⟩
    · exact h.congr hnodes
    · exact h.newTree htree hframe (hlinks base w l rfl)
  | ttDecode node thr =>
    rcases exec_ttDecode_outcome hexec with ⟨-, rfl⟩ | ⟨hc, ⟨c, -, rfl⟩ | hexhausted | ⟨path, top, hd⟩⟩
    · exact h
    · exact h.congr rfl
    · exact absurd hexhausted (hne hc)
    · exact hd.readWithin hf.1 h hrise (hthr node thr rfl)
  | _ => exact h.congr (nodes_of_exec rfl (fun _ _ e => by cases e) hexec)

/-- Settles O46: the case of O47 in which the bound is above every word. -/
theorem readOrderIsKept : Obligations.ReadOrderIsKept := by
  intro i s t hf h hexec hne hlinks
  have hthr : ∀ node thr, i = .ttDecode node thr → thr.toNat ≤ 2 ^ 32 := fun _ thr _ => Nat.le_of_lt thr.isLt
  exact (readWithinIsKept i s t _ hf h.readWithin (fun _ _ _ => Nat.le_refl _) hexec hne hlinks hthr).readOrder

end Sys2Proof.Machine
end

section
/-! The results of successive `TT_DECODE`s on one node (42_tag_tree.md R147 item 4). The result of the first stands at the
node; no command but `TT_INIT` and `RESET` lowers what stands there; and what stands for a threshold is no greater than
what stands for a threshold no lower. -/

namespace Sys2Proof.Machine

/-! ### What stands at a node -/

section
variable {f : NodeFile} {thr v : Word} {n : Nat}

theorem NodeFile.Stands.val_of_vis (h : f.Stands thr v n) (hvis : (f.node n).vis = true) : (f.node n).val = v := by
  cases h with
  | known _ hval => exact hval
  | bound hnot => rw [hnot] at hvis; cases hvis
  | above hnot => rw [hnot] at hvis; cases hvis

/-- What stands at a node does not fall as thresholds rise. -/
theorem NodeFile.Stands.le {thr' v' : Word} (h : f.Stands thr v n) (h' : f.Stands thr' v' n) (hle : thr ≤ thr') :
    v ≤ v' := by
  induction h with
  | known hvis hval => rw [← hval, h'.val_of_vis hvis]; exact BitVec.le_refl _
  | bound hvis hthr hval hparent =>
    cases h' with
    | known hvis' => rw [hvis] at hvis'; cases hvis'
    | bound _ _ hval' => rw [← hval, hval']; exact BitVec.le_refl _
    | above _ hthr' hp hstands =>
      obtain ⟨hpvis, hlt, -⟩ := hparent _ hp
      rw [hstands.val_of_vis hpvis] at hlt
      exact absurd (BitVec.le_trans hle hthr') (BitVec.not_le.2 hlt)
  | above hvis hthr hp hstands ih =>
    cases h' with
    | known hvis' => rw [hvis] at hvis'; cases hvis'
    | bound _ _ _ hparent' =>
      obtain ⟨hpvis, -, hple⟩ := hparent' _ hp
      rwa [hstands.val_of_vis hpvis] at hple
    | above _ _ hp' hstands' =>
      cases hp.symm.trans hp'
      exact ih hstands'

end

/-! ### Commands that reset no node -/

section
variable {s t : State} {thr v : Word} {n : Nat}

/-- A decode, of any node, does not lower what stands at a node. -/
theorem State.Decodes.stands_kept {m : Nat} {thr' : Word} {path : List Nat} {top : Option Nat}
    (hd : s.Decodes m thr' path top t) (hf : s.nodes.Pairwise (fun x y => x.1 < y.1)) (h : s.nodes.Stands thr v n) :
    ∃ v', v ≤ v' ∧ t.nodes.Stands thr v' n := by
  have hfollows : ∀ k, (s.nodes.node k).Follows (t.nodes.node k) := hd.follows hf
  induction h with
  | @known k hvis hval =>
    have hsame := (hfollows k).visited hvis
    exact ⟨v, BitVec.le_refl _, .known (by rw [hsame, hvis]) (by rw [hsame, hval])⟩
  | @bound k hvis hthr hval hparent =>
    have hle : v ≤ (t.nodes.node k).val := hval ▸ (hfollows k).val
    refine ⟨_, hle, ?_⟩
    cases hvis' : (t.nodes.node k).vis with
    | true => exact .known hvis' rfl
    | false =>
      refine .bound hvis' (BitVec.le_trans hthr hle) rfl fun p hp => ?_
      obtain ⟨hpvis, hlt, hple⟩ := hparent p ((hfollows k).parent.symm.trans hp)
      rw [(hfollows p).visited hpvis]
      exact ⟨hpvis, hlt, BitVec.le_trans hple hle⟩
  | @above k p hvis hthr hp hstands ih =>
    obtain ⟨v', hle, hstands'⟩ := ih
    cases hvis' : (t.nodes.node k).vis with
    | true =>
      rcases hd.node_cases hf k with hsame | ⟨-, hparent⟩
      · cases hvis'.symm.trans ((congrArg TagNode.vis hsame).trans hvis)
      · obtain ⟨hpvis, -, hple⟩ := hparent p hp
        have hval : (t.nodes.node p).val = v' := hstands'.val_of_vis hpvis
        exact ⟨_, BitVec.le_trans hle (hval ▸ hple), .known hvis' rfl⟩
    | false => exact ⟨v', hle, .above hvis' (BitVec.le_trans hthr hle) ((hfollows k).parent.trans hp) hstands'⟩

/-- A descent keeps the indices of the node file rising. -/
theorem State.pairwise_descend {stack : List Nat} {cur : Word} {f f' : NodeFile} {c c' : Cursor}
    (h : s.descend thr stack cur f c = some (v, f', c')) (hf : f.Pairwise (fun x y => x.1 < y.1)) :
    f'.Pairwise (fun x y => x.1 < y.1) := by
  induction stack generalizing cur f c with
  | nil => cases h; exact hf
  | cons k stack ih =>
    rcases State.descend_cons_cases h with he | ⟨_, node, _, -, -, hrest⟩
    · cases he; exact hf
    · exact ih hrest (f.pairwise_setNode hf k node)

theorem State.Decodes.pairwise {m : Nat} {path : List Nat} {top : Option Nat} (hd : s.Decodes m thr path top t)
    (hf : s.nodes.Pairwise (fun x y => x.1 < y.1)) : t.nodes.Pairwise (fun x y => x.1 < y.1) := by
  obtain ⟨c, hdesc, -⟩ := hd.descent
  exact State.pairwise_descend hdesc hf

/-- A faulted block stays so under every command but `RESET` (60_exceptions.md R224). -/
theorem cause_of_exec_of_faulted {i : Instr} (hi : i.resetsNodes = false) (hc : s.cause ≠ .none)
    (h : exec i s = .next t) : t.cause = s.cause := by
  cases i with
  | reset => cases hi
  | regread reg =>
    cases h
    split
    · rfl
    · rw [s.unlessFaulted_of_ne _ hc]
  | _ => cases h; exact congrArg State.cause (s.unlessFaulted_of_ne _ hc)

/-- A command that completes and resets no node does not lower what stands at a node. -/
theorem stands_kept_by_exec {i : Instr} (hi : i.resetsNodes = false) (h : exec i s = .next t) (ht : t.cause = .none)
    (hf : s.nodes.Pairwise (fun x y => x.1 < y.1)) (hstands : s.nodes.Stands thr v n) :
    t.nodes.Pairwise (fun x y => x.1 < y.1) ∧ ∃ v', v ≤ v' ∧ t.nodes.Stands thr v' n := by
  by_cases hdecode : ∃ node thr', i = .ttDecode node thr'
  · obtain ⟨node, thr', rfl⟩ := hdecode
    obtain ⟨path, top, hd⟩ := exec_ttDecode_completes h ht
    exact ⟨hd.pairwise hf, hd.stands_kept hf hstands⟩
  · rw [nodes_of_exec hi (fun node thr' e => hdecode ⟨node, thr', e⟩) h]
    exact ⟨hf, v, BitVec.le_refl _, hstands⟩

/-! ### Sequences of commands -/

theorem State.afterAll_cons_eq_some {i : Instr} {is : List Instr} {u : State} (h : State.afterAll (i :: is) s = some u) :
    ∃ t, exec i s = .next t ∧ State.afterAll is t = some u := by
  obtain ⟨t, ht⟩ := exec_eq_next i s
  rw [State.afterAll, ht] at h
  exact ⟨t, ht, h⟩

theorem State.cause_of_afterAll {is : List Instr} {u : State} (hres : ∀ i ∈ is, i.resetsNodes = false)
    (h : State.afterAll is s = some u) (hu : u.cause = .none) : s.cause = .none := by
  induction is generalizing s with
  | nil => cases h; exact hu
  | cons i is ih =>
    obtain ⟨hi, hres⟩ := List.forall_mem_cons.1 hres
    obtain ⟨t, hexec, hrest⟩ := State.afterAll_cons_eq_some h
    by_contra hc
    exact hc ((cause_of_exec_of_faulted hi hc hexec).symm.trans (ih hres hrest))

/-- Commands that leave no cause and reset no node do not lower what stands at a node. -/
theorem stands_kept_by_afterAll {is : List Instr} {u : State} (hres : ∀ i ∈ is, i.resetsNodes = false)
    (h : State.afterAll is s = some u) (hu : u.cause = .none) (hf : s.nodes.Pairwise (fun x y => x.1 < y.1))
    (hstands : s.nodes.Stands thr v n) :
    u.nodes.Pairwise (fun x y => x.1 < y.1) ∧ ∃ v', v ≤ v' ∧ u.nodes.Stands thr v' n := by
  induction is generalizing s v with
  | nil => cases h; exact ⟨hf, v, BitVec.le_refl _, hstands⟩
  | cons i is ih =>
    obtain ⟨hi, hres⟩ := List.forall_mem_cons.1 hres
    obtain ⟨t, hexec, hrest⟩ := State.afterAll_cons_eq_some h
    obtain ⟨hft, v₁, hle₁, hstands₁⟩ :=
      stands_kept_by_exec hi hexec (State.cause_of_afterAll hres hrest hu) hf hstands
    obtain ⟨hfu, v₂, hle₂, hstands₂⟩ := ih hres hrest hft hstands₁
    exact ⟨hfu, v₂, BitVec.le_trans hle₁ hle₂, hstands₂⟩

end

/-- Settles O49: the commands between and the second decode itself keep what the first result leaves standing, and the
second result stands for a threshold no lower. -/
theorem ttResultsAreMonotone : Obligations.TtResultsAreMonotone := by
  intro s t u v node thr thr' between hf _ hthr hres hfirst ht hbetween hsecond hv
  obtain ⟨path, top, hd⟩ := exec_ttDecode_completes hfirst ht
  obtain ⟨path', top', hd'⟩ := exec_ttDecode_completes hsecond hv
  have hu : u.cause = .none := by
    by_contra hc'
    exact hc' ((cause_of_exec_of_faulted rfl hc' hsecond).symm.trans hv)
  obtain ⟨hfu, v₁, hle₁, hstands₁⟩ := stands_kept_by_afterAll hres hbetween hu (hd.pairwise hf.1) (hd.stands hf.1)
  obtain ⟨v₂, hle₂, hstands₂⟩ := hd'.stands_kept hfu hstands₁
  exact BitVec.le_trans hle₁ (BitVec.le_trans hle₂ (hstands₂.le (hd'.stands hfu) hthr))

end Sys2Proof.Machine
end

section
/-! The commands of the BR unit that place the cursor or work on whole bytes (43_bitstream.md R162, R163, R165, R168, R169): what
each leaves in an unfaulted block. -/

namespace Sys2Proof.Machine

section
variable {s : State} (hc : s.cause = .none)
include hc

/-- A command whose state check passes in an unfaulted block does what stands behind the check. -/
theorem passedState_next {ok : Bool} (hok : ok = true) (t : State) :
    (.next (s.unlessFaulted (s.requireState ok t)) : Host.Outcome State Fault Refusal) = .next t := by
  rw [s.unlessFaulted_of_none _ hc, s.requireState_true t ok hok]

/-! ### BR_SETEND and BR_START -/

theorem exec_brSetend {stop : Word} (hstop : stop.toNat ≤ s.cfg.phmemSize.toNat) :
    exec (.brSetend stop) s = .next { s with brEnd := stop } := by
  show execBrSetend stop s = _
  rw [execBrSetend, s.unlessFaulted_of_none _ hc,
    s.requireField_true _ _ (decide_eq_true (show stop ≤ s.cfg.phmemSize from hstop))]

theorem exec_brStart (pos : Word) :
    exec (.brStart pos) s = .next { s with brPos := pos, brBitidx := 8, brinit := true } := by
  show execBrStart pos s = _
  rw [execBrStart, s.unlessFaulted_of_none _ hc]
  rfl

end

/-- Settles O50: the zero check of the row, then the value check, then the one write. -/
theorem setendSetsWindow : Obligations.SetendSetsWindow := by
  intro s a stop hc
  refine ⟨exec_brSetend hc, ?_⟩
  show executeWord (commandWord (opcodeOf (.brSetend stop)) a stop) s = _
  by_cases ha : a = 0
  · rw [executeWord_of_zerosHold (i := .brSetend stop) (beq_iff_eq.2 ha)]
    show exec (.brSetend stop) s = _
    by_cases hstop : stop.toNat ≤ s.cfg.phmemSize.toNat
    · rw [if_pos ⟨ha, hstop⟩, exec_brSetend hc hstop]
    · rw [if_neg fun h => hstop h.2, exec_of_not_wellFormed (i := .brSetend stop) (decide_eq_false hstop), if_pos hc]
  · rw [executeWord_of_not_zerosHold (i := .brSetend stop) (beq_false_of_ne ha), if_pos hc, if_neg fun h => ha h.1]

/-- Settles O51: the zero check of the row, and no other check. -/
theorem startPlacesCursor : Obligations.StartPlacesCursor := by
  intro s a pos hc
  refine ⟨exec_brStart hc pos, ?_⟩
  show executeWord (commandWord (opcodeOf (.brStart pos)) a pos) s = _
  by_cases ha : a = 0
  · rw [executeWord_of_zerosHold (i := .brStart pos) (beq_iff_eq.2 ha), if_pos ha]
    exact exec_brStart hc pos
  · rw [executeWord_of_not_zerosHold (i := .brStart pos) (beq_false_of_ne ha), if_pos hc, if_neg ha]

/-! ### BR_EPH -/

/-- The state check of the commands that need a byte boundary (43_bitstream.md R168, R169). -/
theorem State.brinit_and_byteAligned_iff (s : State) :
    (s.brinit && s.byteAligned) = true ↔ s.brinit = true ∧ s.brBitidx = 8 := by
  simp only [State.byteAligned, Bool.and_eq_true, beq_iff_eq]

theorem State.ephAtCursor_iff (s : State) :
    s.ephAtCursor = true ↔
      s.brPos.toNat + 2 ≤ s.brEnd.toNat ∧ s.phByte s.brPos.toNat = 0xFF ∧ s.phByte (s.brPos.toNat + 1) = 0x92 := by
  simp only [State.ephAtCursor, Bool.and_eq_true, decide_eq_true_eq, beq_iff_eq, and_assoc]

/-- `BR_EPH` behind its state check. -/
theorem State.afterEph_eq (s : State) :
    (if s.ephAtCursor then ({ s with brPos := s.brPos + 2 } : State).setResult 1 else s.setWarnEph.setResult 0) =
      if s.brPos.toNat + 2 ≤ s.brEnd.toNat ∧ s.phByte s.brPos.toNat = 0xFF ∧ s.phByte (s.brPos.toNat + 1) = 0x92
      then { s with brPos := s.brPos + 2, result := 1 } else { s with warnEph := true, result := 0 } :=
  if_congr s.ephAtCursor_iff rfl rfl

/-- Settles O56: the zero checks of the row, then the state check, then the comparison with the marker. -/
theorem ephSkipsMarkerOrWarns : Obligations.EphSkipsMarkerOrWarns := by
  intro s a b hc found after
  refine ⟨fun hinit hbit => ?_, ?_⟩
  · show execBrEph s = _
    rw [execBrEph, passedState_next hc (s.brinit_and_byteAligned_iff.2 ⟨hinit, hbit⟩), s.afterEph_eq]
  · show executeWord (commandWord (opcodeOf .brEph) a b) s = _
    rw [executeWord_of_no_operands (i := .brEph) rfl rfl, if_neg (not_not_intro hc), ite_not, s.afterEph_eq]
    refine congrArg Host.Outcome.next (if_congr Iff.rfl ?_ rfl)
    by_cases hready : s.brinit = true ∧ s.brBitidx = 8
    · rw [s.requireState_true _ _ (s.brinit_and_byteAligned_iff.2 hready), if_neg (not_not_intro hready)]
    · rw [s.requireState_false _ _ (eq_false_of_ne_true (mt s.brinit_and_byteAligned_iff.1 hready)),
        s.raise_of_none _ hc, if_pos hready]

/-! ### BR_FLUSH -/

section
variable {s : State}

theorem State.flushed_of_ne (hin : s.brPos.toNat < s.brEnd.toNat) (hne : s.phByte s.brPos.toNat ≠ 0xFF) :
    s.flushed = some ⟨s.brPos + 1, 8⟩ := by
  simp only [State.flushed, s.phRead_of_lt _ hin, if_neg hne]

theorem State.flushed_of_eq (hin : s.brPos.toNat + 1 < s.brEnd.toNat) (heq : s.phByte s.brPos.toNat = 0xFF) :
    s.flushed = some ⟨s.brPos + 2, 8⟩ := by
  simp only [State.flushed, s.phRead_of_lt _ (Nat.lt_of_succ_lt hin), if_pos heq, if_pos hin]

theorem State.flushed_eq_none
    (hout : s.brEnd.toNat ≤ s.brPos.toNat ∨ (s.phByte s.brPos.toNat = 0xFF ∧ s.brEnd.toNat ≤ s.brPos.toNat + 1)) :
    s.flushed = none := by
  by_cases hin : s.brPos.toNat < s.brEnd.toNat
  · obtain ⟨heq, hnext⟩ := hout.resolve_left (Nat.not_le_of_lt hin)
    simp only [State.flushed, s.phRead_of_lt _ hin, if_pos heq, if_neg (Nat.not_lt_of_le hnext)]
  · simp only [State.flushed, s.phRead_of_le _ (Nat.le_of_not_lt hin)]

section
variable (hc : s.cause = .none) (hinit : s.brinit = true)
include hc hinit

theorem exec_brFlush_of_some {c : Cursor} (h : s.flushed = some c) :
    exec .brFlush s = .next { s with brPos := c.pos, brBitidx := c.bitidx } := by
  show execBrFlush s = _
  rw [execBrFlush, passedState_next hc hinit, h]
  rfl

theorem exec_brFlush_of_none (h : s.flushed = none) : exec .brFlush s = .next s.exhaustedInFlush := by
  show execBrFlush s = _
  rw [execBrFlush, passedState_next hc hinit, h]

end
end

/-- Settles O53: the three outcomes of `State.flushed`. -/
theorem flushRealigns : Obligations.FlushRealigns := by
  intro s hc hinit last
  refine ⟨fun hin hne => ?_, fun hin heq => ?_, fun hout => ?_⟩
  · exact exec_brFlush_of_some hc hinit (State.flushed_of_ne hin hne)
  · exact exec_brFlush_of_some hc hinit (State.flushed_of_eq hin heq)
  · exact ⟨_, exec_brFlush_of_none hc hinit (State.flushed_eq_none hout), by rw [s.exhaustedInFlush_eq hc]⟩

/-! ### BR_SEGCOPY -/

theorem length_endMarker (term : Bool) : (endMarker term).length = if term then 2 else 0 := by cases term <;> rfl

theorem getD_endMarker {term : Bool} {k : Nat} (hk : k < (endMarker term).length) (d : Byte) :
    (endMarker term).getD k d = 0xFF := by
  cases term with
  | false => cases hk
  | true =>
    match k, hk with
    | 0, _ => rfl
    | 1, _ => rfl

theorem State.length_bodyBytes (s : State) (len : Nat) : (s.bodyBytes len).length = len := by simp [State.bodyBytes]

theorem State.getD_bodyBytes (s : State) {len k : Nat} (hk : k < len) (d : Byte) :
    (s.bodyBytes len).getD k d = s.phByte (s.brPos.toNat + k) := by
  simp [State.bodyBytes, hk]

section
variable {s : State} {len : Half} {term : Bool} {dst : Word}

/-- The bytes `BR_SEGCOPY` writes, read back: the body, the end-marker after it, and every other byte as it was. -/
theorem State.read_segment (hcb : s.cbmem.wf s.cfg.cbmemSize.toNat) (a : Nat) :
    (s.cbmem.writeBytes dst.toNat (s.bodyBytes len.toNat ++ endMarker term)).read a =
      if a < dst.toNat ∨ dst.toNat + len.toNat + (endMarker term).length ≤ a then s.cbByte a
      else if a < dst.toNat + len.toNat then s.phByte (s.brPos.toNat + (a - dst.toNat)) else 0xFF := by
  rw [Memory.read_writeBytes _ _ hcb.1]
  by_cases hlow : dst.toNat ≤ a
  · obtain ⟨k, rfl⟩ := Nat.exists_eq_add_of_le hlow
    rw [if_pos hlow, Nat.add_sub_cancel_left]
    by_cases hbody : k < len.toNat
    · rw [List.getD_append _ _ _ _ (by rwa [s.length_bodyBytes]), s.getD_bodyBytes hbody, if_neg (by omega),
        if_pos (by omega)]
    · rw [List.getD_append_right _ _ _ _ (by rw [s.length_bodyBytes]; omega), s.length_bodyBytes]
      by_cases hmark : k - len.toNat < (endMarker term).length
      · rw [getD_endMarker hmark, if_neg (by omega), if_neg (by omega)]
      · rw [List.getD_eq_default _ _ (by omega), if_pos (by omega)]
        rfl
  · rw [if_neg hlow, if_pos (by omega)]
    rfl

theorem State.segcopied_of_fits (hseg : s.brPos.toNat + len.toNat ≤ s.brEnd.toNat)
    (hplace : dst.toNat + len.toNat + (endMarker term).length ≤ s.cfg.cbmemSize.toNat) :
    s.segcopied len term dst = { s with
      cbmem := s.cbmem.writeBytes dst.toNat (s.bodyBytes len.toNat ++ endMarker term)
      brPos := BitVec.ofNat 32 (s.brPos.toNat + len.toNat)
      result := BitVec.ofNat 32 (dst.toNat + len.toNat + (endMarker term).length) } := by
  have hpos : s.brPos + len.setWidth 32 = BitVec.ofNat 32 (s.brPos.toNat + len.toNat) := by
    rw [BitVec.ofNat_add, BitVec.ofNat_toNat, BitVec.ofNat_toNat, BitVec.setWidth_eq]
  simp only [State.segcopied, if_pos hseg, if_pos hplace, hpos]
  rfl

theorem State.segcopied_of_overrun (hseg : s.brEnd.toNat < s.brPos.toNat + len.toNat) :
    s.segcopied len term dst = s.raise .phSegOverrun := if_neg (Nat.not_le_of_lt hseg)

theorem State.segcopied_of_capacity (hseg : s.brPos.toNat + len.toNat ≤ s.brEnd.toNat)
    (hplace : s.cfg.cbmemSize.toNat < dst.toNat + len.toNat + (endMarker term).length) :
    s.segcopied len term dst = s.raise .cbCapacity :=
  (if_pos hseg).trans (if_neg (Nat.not_le_of_lt hplace))

theorem exec_brSegcopy (hc : s.cause = .none) (hinit : s.brinit = true) (hbit : s.brBitidx = 8) :
    exec (.brSegcopy len term dst) s = .next (s.segcopied len term dst) := by
  show execBrSegcopy len term dst s = _
  rw [execBrSegcopy, passedState_next hc (s.brinit_and_byteAligned_iff.2 ⟨hinit, hbit⟩)]

end

/-- Settles O57: the two checks of `State.segcopied`, and the bytes read back after the one write. -/
theorem segcopyCopiesBytes : Obligations.SegcopyCopiesBytes := by
  intro s len term dst hc hinit hbit hcb
  simp only [exec_brSegcopy hc hinit hbit, ← length_endMarker]
  refine ⟨fun hseg hplace => ?_, fun hseg => ?_, fun hseg hplace => ?_⟩
  · rw [State.segcopied_of_fits hseg hplace]
    refine ⟨_, rfl, fun k hk => ?_, fun a hlow hhigh => ?_, fun a hout => ?_⟩
    · rw [State.read_segment hcb, if_neg (by omega), if_pos (by omega), Nat.add_sub_cancel_left]
    · rw [State.read_segment hcb, if_neg (by omega), if_neg (by omega)]
    · rw [State.read_segment hcb, if_pos hout]
  · rw [State.segcopied_of_overrun hseg, s.raise_of_none _ hc]
  · rw [State.segcopied_of_capacity hseg hplace, s.raise_of_none _ hc]

end Sys2Proof.Machine
end

section
/-! The header bits a command takes, and the fields made of them (43_bitstream.md R161, R164, R166, R167).

`State.Takes c bits c'` says that the next uses of `GetBit()` at `c` give `bits` and leave the cursor at `c'`. What each reading
procedure answers is told once by it, in both directions, so that a statement about header bits becomes one about lists. -/

namespace Sys2Proof.Machine

/-! ### Taking bits -/

/-- From `c`, as many uses of `GetBit()` as there are `bits` give these and lead to `c'`. -/
def State.Takes (s : State) (c : Cursor) (bits : List Bool) (c' : Cursor) : Prop :=
  s.cursorAfter bits.length c = some c' ∧ s.bitsFrom c = bits ++ s.bitsFrom c'

section
variable {s : State} {c c' : Cursor}

theorem State.takes_nil_iff : s.Takes c [] c' ↔ c = c' := by
  simp only [State.Takes, List.length_nil, State.cursorAfter, Option.some.injEq, List.nil_append]
  exact ⟨And.left, fun h => ⟨h, by rw [h]⟩⟩

theorem State.takes_cons_iff {b : Bool} {bits : List Bool} :
    s.Takes c (b :: bits) c' ↔ ∃ c₁, s.getBit c = some (b, c₁) ∧ s.Takes c₁ bits c' := by
  simp only [State.Takes, List.length_cons, State.cursorAfter, List.cons_append]
  cases hg : s.getBit c with
  | none => simp
  | some p =>
    obtain ⟨b', c₁⟩ := p
    rw [s.bitsFrom_of_getBit c c₁ b' hg, List.cons.injEq]
    constructor
    · rintro ⟨hcursor, rfl, hbits⟩
      exact ⟨c₁, rfl, hcursor, hbits⟩
    · rintro ⟨c₂, heq, hcursor, hbits⟩
      cases heq
      exact ⟨hcursor, rfl, hbits⟩

theorem State.takes_append_iff {x y : List Bool} :
    s.Takes c (x ++ y) c' ↔ ∃ c₁, s.Takes c x c₁ ∧ s.Takes c₁ y c' := by
  induction x generalizing c with
  | nil => simp [State.takes_nil_iff]
  | cons b x ih =>
    simp only [List.cons_append, State.takes_cons_iff, ih]
    constructor
    · rintro ⟨c₁, hg, c₂, hx, hy⟩
      exact ⟨c₂, ⟨c₁, hg, hx⟩, hy⟩
    · rintro ⟨c₂, ⟨c₁, hg, hx⟩, hy⟩
      exact ⟨c₁, hg, c₂, hx, hy⟩

/-- Header bits that stand first can be taken. -/
theorem State.exists_takes {bits rest : List Bool} (h : s.bitsFrom c = bits ++ rest) :
    ∃ c', s.Takes c bits c' ∧ s.bitsFrom c' = rest := by
  induction bits generalizing c with
  | nil => exact ⟨c, State.takes_nil_iff.2 rfl, h⟩
  | cons b bits ih =>
    obtain ⟨c₁, hg, hrest⟩ := s.getBit_of_bitsFrom c b (bits ++ rest) h
    obtain ⟨c', htakes, hleft⟩ := ih hrest
    exact ⟨c', State.takes_cons_iff.2 ⟨c₁, hg, htakes⟩, hleft⟩

end

/-! ### Bits and their value -/

theorem bitsValue_append_singleton (bits : List Bool) (b : Bool) :
    bitsValue (bits ++ [b]) = 2 * bitsValue bits + b.toNat := List.foldl_append

theorem valueBits_succ (n v : Nat) : valueBits (n + 1) v = valueBits n (v / 2) ++ [v.testBit 0] := by
  simp [valueBits, List.range_succ_eq_map, List.map_reverse, Function.comp_def, Nat.testBit_succ]

/-- `n` bits and the number below `2 ^ n` they write, most significant bit first. -/
theorem eq_valueBits_iff {n v : Nat} {bits : List Bool} :
    v < 2 ^ n ∧ bits = valueBits n v ↔ bits.length = n ∧ bitsValue bits = v := by
  induction n generalizing v bits with
  | zero =>
    constructor
    · rintro ⟨hv, rfl⟩
      exact ⟨rfl, (Nat.lt_one_iff.1 hv).symm⟩
    · rintro ⟨hlen, rfl⟩
      obtain rfl := List.length_eq_zero_iff.1 hlen
      exact ⟨by decide, rfl⟩
  | succ n ih =>
    rcases List.eq_nil_or_concat' bits with rfl | ⟨high, b, rfl⟩
    · simp [valueBits_succ]
    · rw [valueBits_succ, bitsValue_append_singleton, List.length_append, List.length_singleton, Nat.add_right_cancel_iff]
      have hpow : 2 ^ (n + 1) = 2 * 2 ^ n := Nat.pow_succ'
      constructor
      · rintro ⟨hv, heq⟩
        obtain ⟨hhigh, hlow⟩ := List.append_inj' heq rfl
        obtain ⟨hlen, hval⟩ := ih.1 ⟨by omega, hhigh⟩
        rw [List.cons.injEq] at hlow
        have hbit : (v.testBit 0).toNat = v % 2 := by rw [Nat.toNat_testBit, Nat.pow_zero, Nat.div_one]
        exact ⟨hlen, by rw [hval, hlow.1, hbit, Nat.div_add_mod]⟩
      · rintro ⟨hlen, rfl⟩
        obtain ⟨hlt, hhigh⟩ := ih.2 ⟨hlen, rfl⟩
        have hb := b.toNat_lt
        have hdiv : (2 * bitsValue high + b.toNat) / 2 = bitsValue high := by omega
        have hbit : (2 * bitsValue high + b.toNat).testBit 0 = b := by cases b <;> simp
        exact ⟨by omega, by rw [hdiv, hbit, ← hhigh]⟩

theorem length_valueBits (n v : Nat) : (valueBits n v).length = n := by simp [valueBits]

/-! ### Fields -/

section
variable {s : State} {c c' : Cursor} {v : Nat}

/-- `GetBits(n)` answers the fields of `n` bits (43_bitstream.md R164). -/
theorem State.getBits_eq_some_iff {n : Nat} :
    s.getBits n 0 c = some (v, c') ↔ v < 2 ^ n ∧ s.Takes c (valueBits n v) c' := by
  obtain ⟨henough, hfew⟩ := s.getBits_eq n 0 c
  constructor
  · intro h
    by_cases hn : n ≤ (s.bitsFrom c).length
    · obtain ⟨c₁, hget, hleft, hcursor⟩ := henough hn
      cases hget.symm.trans h
      have hlen : ((s.bitsFrom c).take n).length = n := List.length_take_of_le hn
      obtain ⟨hlt, heq⟩ := eq_valueBits_iff.2 ⟨hlen, rfl⟩
      refine ⟨hlt, ?_, ?_⟩
      · rwa [length_valueBits]
      · rw [hleft]
        exact (List.take_append_drop n _).symm.trans (congrArg (· ++ _) heq)
    · rw [hfew (Nat.lt_of_not_le hn)] at h
      cases h
  · rintro ⟨hlt, hcursor, hbits⟩
    obtain ⟨hlen, hval⟩ := eq_valueBits_iff.1 ⟨hlt, rfl⟩
    rw [hlen] at hcursor
    obtain ⟨c₁, hget, -, hcursor₁⟩ := henough (by rw [hbits, List.length_append, hlen]; exact Nat.le_add_right _ _)
    cases hcursor.symm.trans hcursor₁
    rw [hget, hbits, List.take_left' hlen]
    exact congrArg (fun r => some (r, c')) hval

/-- The run of 1 bits of the `Lblock` increment and the 0 that ends it (43_bitstream.md R167). -/
theorem State.countOnes_eq_some_iff {k n : Nat} :
    s.countOnes k n c = some (v, c') ↔
      ∃ ones, ones < k ∧ v = n + ones ∧ s.Takes c (List.replicate ones true ++ [false]) c' := by
  induction k generalizing n c with
  | zero => simp [State.countOnes]
  | succ k ih =>
    rw [State.countOnes]
    constructor
    · intro h
      split at h
      · cases h
      · next hg => cases h; exact ⟨0, by omega, rfl, State.takes_cons_iff.2 ⟨_, hg, State.takes_nil_iff.2 rfl⟩⟩
      · next hg =>
        obtain ⟨ones, hlt, rfl, htakes⟩ := ih.1 h
        exact ⟨ones + 1, by omega, by omega, State.takes_cons_iff.2 ⟨_, hg, htakes⟩⟩
    · rintro ⟨ones, hlt, rfl, htakes⟩
      cases ones with
      | zero =>
        obtain ⟨c₁, hg, hnil⟩ := State.takes_cons_iff.1 htakes
        rw [hg, State.takes_nil_iff.1 hnil]
        rfl
      | succ ones =>
        obtain ⟨c₁, hg, hrest⟩ := State.takes_cons_iff.1 htakes
        rw [hg]
        exact ih.2 ⟨ones, by omega, by omega, hrest⟩

/-! ### The pass-count code -/

theorem passesCode_one : passesCode 1 = [false] := rfl
theorem passesCode_two : passesCode 2 = [true, false] := rfl

theorem passesCode_three_add {v : Nat} (hv : v < 3) : passesCode (3 + v) = true :: true :: valueBits 2 v := by
  rw [passesCode, if_neg (by omega), if_neg (by omega), if_pos (by omega), Nat.add_sub_cancel_left]
  rfl

theorem passesCode_six_add {v : Nat} (hv : v < 31) :
    passesCode (6 + v) = true :: true :: (valueBits 2 3 ++ valueBits 5 v) := by
  rw [passesCode, if_neg (by omega), if_neg (by omega), if_neg (by omega), if_pos (by omega), Nat.add_sub_cancel_left]
  rfl

theorem passesCode_thirtySeven_add (v : Nat) :
    passesCode (37 + v) = true :: true :: (valueBits 2 3 ++ (valueBits 5 31 ++ valueBits 7 v)) := by
  rw [passesCode, if_neg (by omega), if_neg (by omega), if_neg (by omega), if_neg (by omega), Nat.add_sub_cancel_left]
  rfl

/-- The rows of the table of 43_bitstream.md R166. -/
theorem passes_cases {p : Nat} (hlow : 1 ≤ p) (hhigh : p ≤ 164) :
    p = 1 ∨ p = 2 ∨ (∃ v < 3, p = 3 + v) ∨ (∃ v < 31, p = 6 + v) ∨ ∃ v < 128, p = 37 + v := by
  rcases (by omega : p = 1 ∨ p = 2 ∨ (3 ≤ p ∧ p < 6) ∨ (6 ≤ p ∧ p < 37) ∨ 37 ≤ p) with h | h | h | h | h
  · exact .inl h
  · exact .inr (.inl h)
  · exact .inr (.inr (.inl ⟨p - 3, by omega, by omega⟩))
  · exact .inr (.inr (.inr (.inl ⟨p - 6, by omega, by omega⟩)))
  · exact .inr (.inr (.inr (.inr ⟨p - 37, by omega, by omega⟩)))

/-- `BR_GETNPASSES` answers nothing but numbers of the table whose code it has taken (43_bitstream.md R166). -/
theorem State.takes_of_getNPasses {p : Nat} (h : s.getNPasses c = some (p, c')) :
    1 ≤ p ∧ p ≤ 164 ∧ s.Takes c (passesCode p) c' := by
  unfold State.getNPasses at h
  split at h
  · cases h
  · next h₁ =>
    cases h
    exact ⟨by decide, by decide, State.takes_cons_iff.2 ⟨_, h₁, State.takes_nil_iff.2 rfl⟩⟩
  · next c₁ h₁ =>
    split at h
    · cases h
    · next h₂ =>
      cases h
      exact ⟨by decide, by decide,
        State.takes_cons_iff.2 ⟨_, h₁, State.takes_cons_iff.2 ⟨_, h₂, State.takes_nil_iff.2 rfl⟩⟩⟩
    · next c₂ h₂ =>
      have hafter {bits : List Bool} {c' : Cursor} (h : s.Takes c₂ bits c') : s.Takes c (true :: true :: bits) c' :=
        State.takes_cons_iff.2 ⟨_, h₁, State.takes_cons_iff.2 ⟨_, h₂, h⟩⟩
      split at h
      · cases h
      · next v₃ c₃ h₃ =>
        obtain ⟨hlt₃, htakes₃⟩ := State.getBits_eq_some_iff.1 h₃
        split at h
        · next hne =>
          cases h
          rw [passesCode_three_add (by omega)]
          exact ⟨by omega, by omega, hafter htakes₃⟩
        · next heq₃ =>
          obtain rfl := not_not.1 heq₃
          split at h
          · cases h
          · next v₄ c₄ h₄ =>
            obtain ⟨hlt₄, htakes₄⟩ := State.getBits_eq_some_iff.1 h₄
            split at h
            · next hne =>
              cases h
              rw [passesCode_six_add (by omega)]
              exact ⟨by omega, by omega, hafter (State.takes_append_iff.2 ⟨_, htakes₃, htakes₄⟩)⟩
            · next heq₄ =>
              obtain rfl := not_not.1 heq₄
              split at h
              · cases h
              · next v₅ c₅ h₅ =>
                cases h
                obtain ⟨hlt₅, htakes₅⟩ := State.getBits_eq_some_iff.1 h₅
                rw [passesCode_thirtySeven_add]
                exact ⟨by omega, by omega,
                  hafter (State.takes_append_iff.2 ⟨_, htakes₃, State.takes_append_iff.2 ⟨_, htakes₄, htakes₅⟩⟩)⟩

/-- `BR_GETNPASSES` answers every number of the table whose code it can take (43_bitstream.md R166). -/
theorem State.getNPasses_of_takes {p : Nat} (hlow : 1 ≤ p) (hhigh : p ≤ 164) (h : s.Takes c (passesCode p) c') :
    s.getNPasses c = some (p, c') := by
  rcases passes_cases hlow hhigh with rfl | rfl | ⟨v, hv, rfl⟩ | ⟨v, hv, rfl⟩ | ⟨v, hv, rfl⟩
  · obtain ⟨c₁, h₁, hnil⟩ := State.takes_cons_iff.1 h
    simp only [State.getNPasses, h₁, State.takes_nil_iff.1 hnil]
  · obtain ⟨c₁, h₁, h⟩ := State.takes_cons_iff.1 h
    obtain ⟨c₂, h₂, hnil⟩ := State.takes_cons_iff.1 h
    simp only [State.getNPasses, h₁, h₂, State.takes_nil_iff.1 hnil]
  · rw [passesCode_three_add hv] at h
    obtain ⟨c₁, h₁, h⟩ := State.takes_cons_iff.1 h
    obtain ⟨c₂, h₂, h⟩ := State.takes_cons_iff.1 h
    have h₃ := State.getBits_eq_some_iff.2 ⟨by omega, h⟩
    simp only [State.getNPasses, h₁, h₂, h₃, if_pos (show v ≠ 3 by omega)]
  · rw [passesCode_six_add hv] at h
    obtain ⟨c₁, h₁, h⟩ := State.takes_cons_iff.1 h
    obtain ⟨c₂, h₂, h⟩ := State.takes_cons_iff.1 h
    obtain ⟨c₃, h₃, h⟩ := State.takes_append_iff.1 h
    have h₃ := State.getBits_eq_some_iff.2 ⟨by decide, h₃⟩
    have h₄ := State.getBits_eq_some_iff.2 ⟨by omega, h⟩
    simp only [State.getNPasses, h₁, h₂, h₃, h₄, ne_eq, not_true_eq_false, if_false, if_pos (show ¬ v = 31 by omega)]
  · rw [passesCode_thirtySeven_add] at h
    obtain ⟨c₁, h₁, h⟩ := State.takes_cons_iff.1 h
    obtain ⟨c₂, h₂, h⟩ := State.takes_cons_iff.1 h
    obtain ⟨c₃, h₃, h⟩ := State.takes_append_iff.1 h
    obtain ⟨c₄, h₄, h⟩ := State.takes_append_iff.1 h
    have h₃ := State.getBits_eq_some_iff.2 ⟨by decide, h₃⟩
    have h₄ := State.getBits_eq_some_iff.2 ⟨by decide, h₄⟩
    have h₅ := State.getBits_eq_some_iff.2 ⟨by omega, h⟩
    simp only [State.getNPasses, h₁, h₂, h₃, h₄, h₅, ne_eq, not_true_eq_false, if_false]

theorem State.getNPasses_eq_some_iff {p : Nat} :
    s.getNPasses c = some (p, c') ↔ 1 ≤ p ∧ p ≤ 164 ∧ s.Takes c (passesCode p) c' :=
  ⟨State.takes_of_getNPasses, fun ⟨hlow, hhigh, h⟩ => State.getNPasses_of_takes hlow hhigh h⟩

end

/-! ### The commands -/

section
variable {s : State} (hc : s.cause = .none)
include hc

/-- A field with too few header bits left is BR_EXHAUSTED (60_exceptions.md R225). -/
theorem State.finishRead_none_cause : (s.finishRead none).cause = .brExhausted := by
  rw [State.finishRead, s.exhaustedInRead_eq hc]

variable (hinit : s.brinit = true)
include hinit

theorem exec_brGetbits {n : BitVec 6} (hn : n.toNat ≤ 32) :
    exec (.brGetbits n) s = .next (s.finishRead (s.getBits n.toNat 0 s.cursor)) := by
  show execBrGetbits n s = _
  rw [execBrGetbits, s.requireField_true _ _ (decide_eq_true (show n ≤ 32 from hn)), passedState_next hc hinit]

theorem exec_brGetnpasses : exec .brGetnpasses s = .next (s.finishRead (s.getNPasses s.cursor)) :=
  passedState_next hc hinit _

theorem exec_brGetlblkinc :
    exec .brGetlblkinc s = .next (s.finishRead (s.countOnes (s.bitBound + 1) 0 s.cursor)) :=
  passedState_next hc hinit _

end

/-- Settles O52: `State.getBits` takes the first `n` header bits, or fails where fewer are left. -/
theorem getbitsReadsField : Obligations.GetbitsReadsField := by
  intro s n hc hinit hn
  rw [exec_brGetbits hc hinit hn]
  obtain ⟨henough, hfew⟩ := s.getBits_eq n.toNat 0 s.cursor
  refine ⟨fun hle => ?_, fun hlt => ?_⟩
  · obtain ⟨c, hget, hleft, hcursor⟩ := henough hle
    exact ⟨c, hcursor, hleft, by rw [hget]; rfl⟩
  · exact ⟨_, rfl, by rw [hfew hlt, State.finishRead_none_cause hc]⟩

/-- Settles O54: the header bits that begin with the code of `p` are those from which `State.getNPasses` answers `p`. -/
theorem npassesReadsCode : Obligations.NpassesReadsCode := by
  intro s hc hinit
  rw [exec_brGetnpasses hc hinit]
  refine ⟨fun p rest hlow hhigh hbits => ?_, fun hnone => ⟨_, rfl, ?_⟩⟩
  · obtain ⟨c, htakes, hleft⟩ := State.exists_takes hbits
    refine ⟨c, htakes.1, hleft, ?_⟩
    rw [State.getNPasses_eq_some_iff.2 ⟨hlow, hhigh, htakes⟩]
    rfl
  · cases hget : s.getNPasses s.cursor with
    | none => exact State.finishRead_none_cause hc
    | some r =>
      obtain ⟨hlow, hhigh, -, hbits⟩ := State.getNPasses_eq_some_iff.1 hget
      exact absurd hbits (hnone r.1 _ hlow hhigh)

/-- Settles O55: `State.countOnes` stops at the first 0 bit, which its bound always reaches (70_reset_and_hazards.md R256). -/
theorem lblkincCountsOnes : Obligations.LblkincCountsOnes := by
  intro s hc hinit
  rw [exec_brGetlblkinc hc hinit]
  refine ⟨fun n rest hbits => ?_, fun hnone => ⟨_, rfl, ?_⟩⟩
  · have hbound : n < s.bitBound + 1 := by
      have hle : s.headerBits.length ≤ s.bitBound := s.length_bitsFrom_le s.cursor
      rw [hbits, List.length_append, List.length_replicate] at hle
      omega
    have hcode : s.bitsFrom s.cursor = (List.replicate n true ++ [false]) ++ rest := by
      rw [List.append_assoc]
      exact hbits
    obtain ⟨c, htakes, hleft⟩ := State.exists_takes hcode
    have hlen : (List.replicate n true ++ [false]).length = n + 1 := by simp
    refine ⟨c, hlen ▸ htakes.1, hleft, ?_⟩
    rw [State.countOnes_eq_some_iff.2 ⟨n, hbound, (Nat.zero_add n).symm, htakes⟩]
    rfl
  · cases hget : s.countOnes (s.bitBound + 1) 0 s.cursor with
    | none => exact State.finishRead_none_cause hc
    | some r =>
      obtain ⟨ones, -, -, -, hbits⟩ := State.countOnes_eq_some_iff.1 hget
      exact absurd (show false ∈ s.bitsFrom s.cursor by rw [hbits]; simp) hnone

end Sys2Proof.Machine
end

section
/-! Bit 7 of a byte after a 0xFF is not examined (43_bitstream.md R171): with it flipped, `GetBit()` answers the same at every
cursor that has at most 7 bits of that byte left, and leads to such a cursor again. So does every command that reads header
bits. -/

namespace Sys2Proof.Machine

/-! ### A memory with the stuffed bit flipped -/

/-- `s` with `m` as its PHMEM. -/
def State.withPhmem (s : State) (m : Memory) : State := { s with phmem := m }

/-- `m` is the PHMEM of `s` with bit 7 of the byte at `a` flipped, a byte after a 0xFF that this neither makes nor unmakes a
0xFF. -/
structure State.StuffedFlip (s : State) (a : Nat) (m : Memory) : Prop where
  pos : 0 < a
  stuffed : s.phByte (a - 1) = 0xFF
  low : s.phByte a &&& 0x7F ≠ 0x7F
  read : ∀ b, m.read b = if b = a then s.phByte a ^^^ 0x80 else s.phByte b

/-- The cursor has no more than the low 7 bits of the byte at `a` still to read. -/
def Cursor.SparesTop (c : Cursor) (a : Nat) : Prop := c.pos.toNat = a → c.bitidx.toNat ≤ 7

theorem getLsbD_flip_top (x : Byte) {k : Nat} (hk : k < 7) : (x ^^^ 0x80).getLsbD k = x.getLsbD k := by
  have htop : ∀ j < 7, (0x80 : Byte).getLsbD j = false := by decide
  rw [BitVec.getLsbD_xor, htop k hk, Bool.xor_false]

theorem flip_top_ne {x : Byte} (h : x &&& 0x7F ≠ 0x7F) : x ^^^ 0x80 ≠ 0xFF := by
  intro hflip
  have hx : x = 0xFF ^^^ 0x80 := by rw [← hflip, BitVec.xor_assoc, BitVec.xor_self, BitVec.xor_zero]
  exact h (by rw [hx]; rfl)

/-- Where `GetBit()` answers, the current byte is in the window, and so is the next one if the current is used up. -/
theorem State.window_of_getBit_ne_none {s : State} {c : Cursor} (h : s.getBit c ≠ none) :
    c.pos.toNat < s.brEnd.toNat ∧ (c.bitidx = 0 → c.pos.toNat + 1 < s.brEnd.toNat) := by
  have hn := mt (s.getBit_eq_none_iff c).2 h
  simpa only [not_or, not_and, Nat.not_le] using hn

theorem Cursor.SparesTop.bitidx_sub_one_lt {c : Cursor} {a : Nat} (hc : c.SparesTop a) (h0 : c.bitidx ≠ 0)
    (ha : c.pos.toNat = a) : (c.bitidx - 1).toNat < 7 := by
  have hle := hc ha
  have hsub := toNat_sub_one_of_ne_zero h0
  omega

section
variable {s : State} {a : Nat} {m : Memory} (hf : s.StuffedFlip a m)
include hf

namespace State.StuffedFlip

/-- No byte becomes or ceases to be a 0xFF. -/
theorem read_eq_iff (b : Nat) : m.read b = 0xFF ↔ s.phByte b = 0xFF := by
  rw [hf.read]
  split
  · next h =>
    subst h
    exact iff_of_false (flip_top_ne hf.low) fun hff => hf.low (by rw [hff]; rfl)
  · exact Iff.rfl

/-- Every bit but the flipped one reads the same. -/
theorem getLsbD_read {b k : Nat} (hk : b = a → k < 7) : (m.read b).getLsbD k = (s.phByte b).getLsbD k := by
  rw [hf.read]
  split
  · next h => rw [getLsbD_flip_top _ (hk h), h]
  · rfl

/-- The step onto the byte at `a` gives 7 bits, of which the first is bit 6. -/
theorem stepped_bitidx_lt {b : Nat} (hb : b + 1 = a) :
    ((if s.phByte b = 0xFF then 7 else 8 : BitVec 4) - 1).toNat < 7 := by
  have hprev : b = a - 1 := by omega
  rw [hprev, hf.stuffed, if_pos rfl]
  decide

/-! ### `GetBit()` -/

section
variable {c : Cursor} (hc : c.SparesTop a)
include hc

/-- A cursor reached by `GetBit()` has stepped onto the byte at `a` with 7 bits, or not at all. -/
theorem sparesTop_of_getBit {c' : Cursor} {bit : Bool} (h : s.getBit c = some (bit, c')) : c'.SparesTop a := by
  obtain ⟨hin, hnext⟩ := State.window_of_getBit_ne_none (by rw [h]; exact Option.some_ne_none _)
  by_cases h0 : c.bitidx = 0
  · rw [s.getBit_of_bitidx_zero c h0 (hnext h0)] at h
    cases h
    intro ha
    exact Nat.le_of_lt (hf.stepped_bitidx_lt ((toNat_add_one_of_lt hin).symm.trans ha))
  · rw [s.getBit_of_bitidx_pos c h0 hin] at h
    cases h
    exact fun ha => Nat.le_of_lt (hc.bitidx_sub_one_lt h0 ha)

theorem sparesTop_of_readsTo {c' : Cursor} (h : s.ReadsTo c c') : c'.SparesTop a := by
  obtain ⟨k, hk⟩ := h
  induction k generalizing c with
  | zero => cases hk; exact hc
  | succ k ih =>
    rw [State.cursorAfter] at hk
    split at hk
    · cases hk
    · next hg => exact ih (hf.sparesTop_of_getBit hc hg) hk

theorem getBit_eq : (s.withPhmem m).getBit c = s.getBit c := by
  by_cases hn : s.getBit c = none
  · rw [hn]
    exact ((s.withPhmem m).getBit_eq_none_iff c).2 ((s.getBit_eq_none_iff c).1 hn)
  · obtain ⟨hin, hnext⟩ := State.window_of_getBit_ne_none hn
    by_cases h0 : c.bitidx = 0
    · rw [s.getBit_of_bitidx_zero c h0 (hnext h0), (s.withPhmem m).getBit_of_bitidx_zero c h0 (hnext h0)]
      have hcount : (if (s.withPhmem m).phByte c.pos.toNat = 0xFF then 7 else 8 : BitVec 4) =
          if s.phByte c.pos.toNat = 0xFF then 7 else 8 := if_congr (hf.read_eq_iff _) rfl rfl
      rw [hcount]
      exact congrArg (fun bit => some (bit, _)) (hf.getLsbD_read hf.stepped_bitidx_lt)
    · rw [s.getBit_of_bitidx_pos c h0 hin, (s.withPhmem m).getBit_of_bitidx_pos c h0 hin]
      exact congrArg (fun bit => some (bit, _)) (hf.getLsbD_read (hc.bitidx_sub_one_lt h0))

theorem takes_iff {c' : Cursor} {bits : List Bool} : (s.withPhmem m).Takes c bits c' ↔ s.Takes c bits c' := by
  induction bits generalizing c with
  | nil => rw [State.takes_nil_iff, State.takes_nil_iff]
  | cons b bits ih =>
    rw [State.takes_cons_iff, State.takes_cons_iff, hf.getBit_eq hc]
    exact exists_congr fun c₁ => and_congr_right fun hg => ih (hf.sparesTop_of_getBit hc hg)

/-! ### The fields -/

theorem getBits_eq (n : Nat) : (s.withPhmem m).getBits n 0 c = s.getBits n 0 c :=
  Option.ext fun r => by rw [State.getBits_eq_some_iff, State.getBits_eq_some_iff, hf.takes_iff hc]

theorem getNPasses_eq : (s.withPhmem m).getNPasses c = s.getNPasses c :=
  Option.ext fun r => by rw [State.getNPasses_eq_some_iff, State.getNPasses_eq_some_iff, hf.takes_iff hc]

theorem countOnes_eq (k n : Nat) : (s.withPhmem m).countOnes k n c = s.countOnes k n c :=
  Option.ext fun ⟨v, c'⟩ => by simp only [State.countOnes_eq_some_iff, hf.takes_iff hc]

theorem nodeCode_eq (room : Nat) (cur : Word) : (s.withPhmem m).nodeCode room cur c = s.nodeCode room cur c := by
  induction room generalizing cur c with
  | zero => rfl
  | succ room ih =>
    rw [State.nodeCode, State.nodeCode, hf.getBit_eq hc]
    split
    · rfl
    · rfl
    · next hg => exact ih (hf.sparesTop_of_getBit hc hg) _

theorem descend_eq (thr : Word) (stack : List Nat) (cur : Word) (f : NodeFile) :
    (s.withPhmem m).descend thr stack cur f c = s.descend thr stack cur f c := by
  induction stack generalizing cur f c with
  | nil => rfl
  | cons t stack ih =>
    simp only [State.descend]
    split
    · generalize (if cur < (f.node t).val then (f.node t).val else cur) = start
      rw [hf.nodeCode_eq hc]
      cases hcode : s.nodeCode (thr.toNat - start.toNat) start c with
      | none => rfl
      | some r =>
        obtain ⟨hreads, -⟩ := State.nodeCode_spec hcode (by omega)
        exact ih (hf.sparesTop_of_readsTo hc hreads) _ _
    · rfl

end

theorem flushed_eq : (s.withPhmem m).flushed = s.flushed := by
  by_cases hin : s.brPos.toNat < s.brEnd.toNat
  · by_cases hff : s.phByte s.brPos.toNat = 0xFF
    · have hff' := (hf.read_eq_iff _).2 hff
      by_cases hnext : s.brPos.toNat + 1 < s.brEnd.toNat
      · rw [State.flushed_of_eq hnext hff]
        exact State.flushed_of_eq (s := s.withPhmem m) hnext hff'
      · have hout := Nat.le_of_not_lt hnext
        rw [State.flushed_eq_none (.inr ⟨hff, hout⟩)]
        exact State.flushed_eq_none (s := s.withPhmem m) (.inr ⟨hff', hout⟩)
    · rw [State.flushed_of_ne hin hff]
      exact State.flushed_of_ne (s := s.withPhmem m) hin (mt (hf.read_eq_iff _).1 hff)
  · have hout := Nat.le_of_not_lt hin
    rw [State.flushed_eq_none (.inl hout)]
    exact State.flushed_eq_none (s := s.withPhmem m) (.inl hout)

end State.StuffedFlip
end

/-! ### The commands -/

section
variable (s : State) (m : Memory)

theorem ignoresCause_withPhmem : IgnoresCause (·.withPhmem m) :=
  ⟨fun _ => rfl, fun s c => by by_cases h : s.cause = .none <;> simp [State.raise, State.withPhmem, h]⟩

theorem State.withPhmem_cfg : (s.withPhmem m).cfg = s.cfg := rfl
theorem State.withPhmem_nodes : (s.withPhmem m).nodes = s.nodes := rfl
theorem State.cursor_withPhmem : (s.withPhmem m).cursor = s.cursor := rfl

theorem State.startValue_withPhmem (stack : List Nat) (top : Option Nat) :
    (s.withPhmem m).startValue stack top = s.startValue stack top := rfl

theorem State.walkUp_withPhmem (room : Nat) (n : Option Nat) (stack : List Nat) :
    (s.withPhmem m).walkUp room n stack = s.walkUp room n stack := by
  induction room generalizing n stack with
  | zero => cases n <;> rfl
  | succ room ih =>
    cases n with
    | none => rfl
    | some n =>
      rw [State.walkUp, State.walkUp, ih]
      rfl

theorem State.chainToRoot_withPhmem (k n : Nat) : (s.withPhmem m).chainToRoot k n = s.chainToRoot k n := by
  induction k generalizing n with
  | zero => rfl
  | succ k ih =>
    simp only [State.chainToRoot, ih]
    rfl

theorem State.exhaustedInRead_withPhmem : (s.withPhmem m).exhaustedInRead = s.exhaustedInRead.withPhmem m :=
  (ignoresCause_withPhmem m).raise (s.loseCursor.setResult _) .brExhausted

theorem State.exhaustedInFlush_withPhmem : (s.withPhmem m).exhaustedInFlush = s.exhaustedInFlush.withPhmem m :=
  (ignoresCause_withPhmem m).raise s.loseCursor .brExhausted

theorem State.exhaustedInDecode_withPhmem (n : Nat) :
    (s.withPhmem m).exhaustedInDecode n = (s.exhaustedInDecode n).withPhmem m := by
  simp only [State.exhaustedInDecode, State.exhaustedInRead_withPhmem, State.chainToRoot_withPhmem]
  rfl

theorem State.finishRead_withPhmem (r : Option (Nat × Cursor)) :
    (s.withPhmem m).finishRead r = (s.finishRead r).withPhmem m := by
  cases r with
  | none => exact s.exhaustedInRead_withPhmem m
  | some r => rfl

end

/-- Refusal under a change that does not touch it, in one state; see `IgnoresCause.unlessFaulted`. -/
theorem IgnoresCause.unlessFaulted_eq {f : State → State} (hf : IgnoresCause f) {s t t' : State} (ht : t' = f t) :
    (f s).unlessFaulted t' = f (s.unlessFaulted t) := by
  subst ht
  by_cases hc : s.cause = .none
  · rw [s.unlessFaulted_of_none _ hc, (f s).unlessFaulted_of_none _ ((hf.cause_eq s).trans hc)]
  · rw [s.unlessFaulted_of_ne _ hc, (f s).unlessFaulted_of_ne _ (by rwa [hf.cause_eq])]

section
variable {s : State} {a : Nat} {m : Memory} (hf : s.StuffedFlip a m) (hcur : s.cursor.SparesTop a)
include hf hcur

theorem State.StuffedFlip.ttDecide_eq (n : Nat) (thr : Word) :
    (s.withPhmem m).ttDecide n thr = (s.ttDecide n thr).withPhmem m := by
  have hcause := ignoresCause_withPhmem m
  refine hcause.requireData (s := s) ?_
  simp only [State.withPhmem_cfg, State.withPhmem_nodes, State.cursor_withPhmem, State.walkUp_withPhmem,
    State.startValue_withPhmem, hf.descend_eq hcur]
  rcases s.walkUp s.cfg.ttStack (some n) [] with _ | ⟨stack, top⟩
  · exact hcause.raise s .ttDepth
  · dsimp only
    cases s.descend thr stack (s.startValue stack top) s.nodes s.cursor with
    | none => exact s.exhaustedInDecode_withPhmem m n
    | some r => rfl

/-- A command that reads header bits does the same with the flipped byte. -/
theorem exec_withPhmem {i : Instr} (hi : i.readsHeader = true) {t : State} (h : exec i s = .next t) :
    exec i (s.withPhmem m) = .next (t.withPhmem m) := by
  have hcause := ignoresCause_withPhmem m
  cases i with
  | ttDecode node thr =>
    cases h
    exact congrArg Host.Outcome.next
      (hcause.unlessFaulted_eq (hcause.requireState rfl (hf.ttDecide_eq hcur node.toNat thr)))
  | brGetbits n =>
    cases h
    refine congrArg Host.Outcome.next
      (hcause.unlessFaulted_eq (hcause.requireField rfl (hcause.requireState rfl ?_)))
    exact (congrArg _ (hf.getBits_eq hcur n.toNat)).trans (s.finishRead_withPhmem m _)
  | brFlush =>
    cases h
    refine congrArg Host.Outcome.next (hcause.unlessFaulted_eq (hcause.requireState rfl ?_))
    rw [hf.flushed_eq]
    cases s.flushed with
    | none => exact s.exhaustedInFlush_withPhmem m
    | some c => rfl
  | brGetnpasses =>
    cases h
    refine congrArg Host.Outcome.next (hcause.unlessFaulted_eq (hcause.requireState rfl ?_))
    exact (congrArg _ (hf.getNPasses_eq hcur)).trans (s.finishRead_withPhmem m _)
  | brGetlblkinc =>
    cases h
    refine congrArg Host.Outcome.next (hcause.unlessFaulted_eq (hcause.requireState rfl ?_))
    exact (congrArg _ (hf.countOnes_eq hcur _ 0)).trans (s.finishRead_withPhmem m _)
  | _ => cases hi

end

/-- Settles O58: the command commutes with the flip, faulted or not. -/
theorem stuffedBitIsNotExamined : Obligations.StuffedBitIsNotExamined := by
  intro s t a i hi hwf ha hstuffed hlow hcur hexec other
  have hf : s.StuffedFlip a other := ⟨ha, hstuffed, hlow, fun b => s.phmem.read_write hwf.1 a b _⟩
  exact ⟨t.withPhmem other, exec_withPhmem hf hcur hi hexec, rfl, fun _ => rfl⟩

end Sys2Proof.Machine
end

section
/-! The class of a cause, and the refusal of a faulted block (60_exceptions.md R222, R223, R224, R228): a `RESET` word and the
`REGREAD` words of defined registers are the only ones with an effect. -/

namespace Sys2Proof.Machine

/-! ### Classes -/

/-- The table of 60_exceptions.md R222 by code. -/
theorem Cause.cls_eq_of_code (c : Cause) : c.cls.toNat =
    if c.code.toNat = 0 then 0 else if c.code.toNat ∈ [1, 2, 3, 4, 10] then 1
    else if c.code.toNat ∈ [5, 6] then 3 else 4 := by
  cases c <;> decide

/-- Settles O13: both fields of `STATUS` come from the cause alone. -/
theorem classOfCause : Obligations.ClassOfCause := by
  intro s
  rw [s.statusWord_code, s.statusWord_class]
  exact s.cause.cls_eq_of_code

/-! ### Refusal -/

/-- All that a command can do in a faulted block. -/
theorem exec_of_faulted {s : State} (hc : s.cause ≠ .none) (i : Instr) :
    exec i s = .next s ∨ (i = .reset ∧ exec i s = .next s.resetAction) ∨
      ∃ reg v, i = .regread reg ∧ registerDefined reg = true ∧ exec i s = .next (s.setResult v) := by
  cases i with
  | reset => exact .inr (.inl ⟨rfl, rfl⟩)
  | regread reg =>
    cases hreg : registerDefined reg with
    | false => exact .inl ((exec_regread_of_undefined hreg).trans (by rw [if_neg hc]))
    | true =>
      have hsome : s.readRegister reg ≠ none := fun e => by
        rw [s.readRegister_eq_none_iff, hreg] at e
        cases e
      obtain ⟨v, hv⟩ := Option.ne_none_iff_exists'.1 hsome
      exact .inr (.inr ⟨reg, v, rfl, hreg, exec_regread_of_some hv⟩)
  | _ => exact .inl (congrArg Host.Outcome.next (s.unlessFaulted_of_ne _ hc))

/-- All that a word can do in a faulted block. -/
theorem executeWord_of_faulted {s : State} (hc : s.cause ≠ .none) (w : CommandWord) :
    executeWord w s = .next s ∨ (w = encode .reset ∧ executeWord w s = .next s.resetAction) ∨
      ∃ reg v, w = encode (.regread reg) ∧ registerDefined reg = true ∧ executeWord w s = .next (s.setResult v) := by
  cases hdecode : decode w with
  | error e => exact .inl ((executeWord_of_error hdecode s).trans (by rw [if_neg hc]))
  | ok i =>
    have hw : w = encode i := (encodeReadsBackDecode w i hdecode).symm
    rw [executeWord_of_ok hdecode]
    rcases exec_of_faulted hc i with h | ⟨rfl, h⟩ | ⟨reg, v, rfl, hreg, h⟩
    · exact .inl h
    · exact .inr (.inl ⟨hw, h⟩)
    · exact .inr (.inr ⟨reg, v, hw, hreg, h⟩)

/-- Settles O14: the word is taken from the port, refused, and answered. -/
theorem faultedBlockRefuses : Obligations.FaultedBlockRefuses := by
  intro s w rest hport hc hreset hregread
  rcases executeWord_of_faulted (s := { s with port := rest }) hc w with h | ⟨hw, -⟩ | ⟨reg, v, hw, hreg, -⟩
  · rw [step_of_port s hport, serve, h]
    rfl
  · exact absurd hw hreset
  · exact absurd hw (hregread reg hreg)

/-! ### The recorded fault -/

theorem State.cause_hostWrite (s : State) (space : MemSpace) (a : Word) (v : Byte) :
    (s.hostWrite space a v).cause = s.cause := by
  by_cases ha : a.toNat < s.sizeOf space
  · rw [s.hostWrite_of_lt space ha, s.storeByte_eq]
  · rw [s.hostWrite_of_le space (Nat.le_of_not_lt ha)]

theorem State.cause_hostRead (s : State) (space : MemSpace) (a : Word) : (s.hostRead space a).cause = s.cause := by
  by_cases ha : a.toNat < s.sizeOf space
  · rw [s.hostRead_of_lt space ha]
  · rw [s.hostRead_of_le space (Nat.le_of_not_lt ha)]

/-- What is served to a faulted block leaves its cause, unless it is a `RESET` word. -/
theorem cause_of_serve_of_faulted {s t : State} (hc : s.cause ≠ .none) {e : PortEvent} (h : serve e s = .next t) :
    t.cause = s.cause ∨ t.cause = .none ∧ e = .command (encode .reset) := by
  cases e with
  | command w =>
    rw [serve] at h
    rcases executeWord_of_faulted hc w with hw | ⟨rfl, hw⟩ | ⟨reg, v, -, -, hw⟩ <;> rw [hw] at h <;> cases h
    · exact .inl rfl
    · exact .inr ⟨rfl, rfl⟩
    · exact .inl rfl
  | hostWrite space a v => cases h; exact .inl (s.cause_hostWrite space a v)
  | hostRead space a => cases h; exact .inl (s.cause_hostRead space a)

/-- Settles O15: a waiting block stays as it is, and of what is served only a `RESET` word clears the cause. -/
theorem onlyResetLeavesFault : Obligations.OnlyResetLeavesFault := by
  intro s t h hc
  cases hport : s.port with
  | nil =>
    rw [step, serveNext, hport] at h
    cases h
    exact .inl rfl
  | cons e rest =>
    rw [step_of_port s hport] at h
    rcases cause_of_serve_of_faulted (s := { s with port := rest }) hc h with hkept | ⟨hnone, rfl⟩
    · exact .inl hkept
    · exact .inr ⟨hnone, rest, rfl⟩

end Sys2Proof.Machine
end

section
/-! How a command ends in an unfaulted block (60_exceptions.md R223, R225, R229, R236): it completes, or one of its row's checks
fails before any effect, or an in-flight fault of its row draws unspecified values. `ends_of_exec` says so once for all
commands; the tables of causes and warnings and the frames of the faults are read off it. -/

namespace Sys2Proof

/-- The commands that read a field of header bits into `RESULT` and write nothing else but the cursor (43_bitstream.md R164,
R166, R167). -/
def Instr.readsField : Instr → Bool
  | .brGetbits _ => true
  | .brGetnpasses => true
  | .brGetlblkinc => true
  | _ => false

end Sys2Proof

namespace Sys2Proof.Machine

/-! ### Warnings -/

/-- A warning that only the opcode `setter` may set and only `RESET` and `CLRWARN` may clear (60_exceptions.md R229, R236),
before and after a word of opcode `opc`. -/
def WarningFollows (opc setter : BitVec 8) (before after : Bool) : Prop :=
  after ≠ before → if after then opc = setter else opc = opcodeOf .reset ∨ opc = opcodeOf .clrwarn

section
variable {opc setter : BitVec 8} {before after : Bool}

theorem WarningFollows.kept (h : after = before) : WarningFollows opc setter before after := fun hne => absurd h hne

theorem WarningFollows.set (h : opc = setter) : WarningFollows opc setter before true := fun _ => h

theorem WarningFollows.cleared (h : opc = opcodeOf .reset ∨ opc = opcodeOf .clrwarn) :
    WarningFollows opc setter before false := fun _ => h

end

/-- Both warnings of `t` follow those of `s` after a word of opcode `opc`. -/
structure State.WarningsFollow (s : State) (opc : BitVec 8) (t : State) : Prop where
  eph : WarningFollows opc (opcodeOf .brEph) s.warnEph t.warnEph
  bp : WarningFollows opc (opcodeOf (.mqCheckbp 0)) s.warnBp t.warnBp

theorem State.WarningsFollow.kept {s t : State} {opc : BitVec 8} (heph : t.warnEph = s.warnEph)
    (hbp : t.warnBp = s.warnBp) : s.WarningsFollow opc t := ⟨.kept heph, .kept hbp⟩

theorem State.WarningsFollow.cleared {s t : State} {opc : BitVec 8} (heph : t.warnEph = false) (hbp : t.warnBp = false)
    (hopc : opc = opcodeOf .reset ∨ opc = opcodeOf .clrwarn) : s.WarningsFollow opc t :=
  ⟨heph ▸ .cleared hopc, hbp ▸ .cleared hopc⟩

/-! ### The ends of a command -/

/-- BR_EXHAUSTED, by the command it is raised in (60_exceptions.md R225). -/
inductive State.Exhausts (s : State) : Instr → State → Prop
  | inRead {i : Instr} (hi : i.readsField = true) : s.Exhausts i s.exhaustedInRead
  | inFlush : s.Exhausts .brFlush s.exhaustedInFlush
  | inDecode (node : BitVec 24) (thr : Word) : s.Exhausts (.ttDecode node thr) (s.exhaustedInDecode node.toNat)

/-- MQ_RANGE, by the command it is raised in (60_exceptions.md R225). -/
inductive State.Overreads (s : State) : Instr → State → Prop
  | inInitdec (raw rst : Bool) (addr : Word) : s.Overreads (.mqInitdec raw rst addr) s.rangeInInitdec
  | inDecode (cxi : BitVec 5) (c : Fin 19) (hcxi : cxi.toNat = c.val) : s.Overreads (.mqDecode cxi) (s.rangeInDecode c)

/-- The ways a command can end in the unfaulted state `s`. -/
inductive State.Ends (s : State) (i : Instr) : State → Prop
  /-- It leaves no cause. -/
  | completed {t : State} (ht : t.cause = .none) (hwarn : s.WarningsFollow (opcodeOf i) t) : s.Ends i t
  /-- A check that its row lists fails before any effect. -/
  | rejected {c : Cause} (hpre : c ∈ preCheckCauses) (hlisted : c ∈ s.listedCauses i) : s.Ends i { s with cause := c }
  | exhausted {t : State} (h : s.Exhausts i t) : s.Ends i t
  | overread {t : State} (h : s.Overreads i t) : s.Ends i t

/-! ### What the in-flight faults leave open -/

section
variable {s t : State} {i : Instr} (hc : s.cause = .none)
include hc

theorem State.Exhausts.eq_open (h : s.Exhausts i t) : t = { s with
    cause := .brExhausted, brPos := t.brPos, brBitidx := t.brBitidx, result := t.result, nodes := t.nodes,
    draws := s.draws + 1 } := by
  cases h with
  | inRead hi => rw [s.exhaustedInRead_eq hc]
  | inFlush => rw [s.exhaustedInFlush_eq hc]
  | inDecode node thr => rw [s.exhaustedInDecode_eq _ hc]

theorem State.Exhausts.bitidx_le (h : s.Exhausts i t) : t.brBitidx.toNat ≤ 8 := by
  cases h with
  | inRead hi => rw [s.exhaustedInRead_eq hc]; exact freeBrBitidx_le _
  | inFlush => rw [s.exhaustedInFlush_eq hc]; exact freeBrBitidx_le _
  | inDecode node thr => rw [s.exhaustedInDecode_eq _ hc]; exact freeBrBitidx_le _

theorem State.Exhausts.result_brFlush (h : s.Exhausts .brFlush t) : t.result = s.result := by
  cases h with
  | inRead hi => cases hi
  | inFlush => rw [s.exhaustedInFlush_eq hc]

theorem State.Exhausts.nodes_eq (h : s.Exhausts i t) (hi : ∀ node thr, i ≠ .ttDecode node thr) : t.nodes = s.nodes := by
  cases h with
  | inRead _ => rw [s.exhaustedInRead_eq hc]
  | inFlush => rw [s.exhaustedInFlush_eq hc]
  | inDecode node thr => exact absurd rfl (hi node thr)

/-- `TT_DECODE` loses `VAL` and `VIS` of the chain from `NODE` to its root (log 6), and nothing else of the node file. -/
theorem State.Exhausts.node_ttDecode {node : BitVec 24} {thr : Word} (h : s.Exhausts (.ttDecode node thr) t)
    (hf : s.nodes.Pairwise (fun x y => x.1 < y.1)) (m : Nat) :
    (t.node m).valid = (s.node m).valid ∧ (t.node m).parent = (s.node m).parent ∧
      ((∀ k, s.ancestor node.toNat k ≠ some m) → t.node m = s.node m) := by
  cases h with
  | inRead hi => cases hi
  | inDecode =>
    obtain ⟨hvalid, hparent, hsame⟩ :=
      s.nodes.node_lose hf s.draws (s.chainToRoot s.cfg.ttNodes.toNat node.toNat) m
    rw [s.exhaustedInDecode_eq _ hc]
    refine ⟨hvalid, hparent, fun hoff => hsame fun hmem => ?_⟩
    obtain ⟨k, hk⟩ := s.mem_chainToRoot _ _ _ hmem
    exact hoff k hk

theorem State.Exhausts.cause (h : s.Exhausts i t) : t.cause = .brExhausted := congrArg State.cause (h.eq_open hc)

theorem State.Exhausts.warningsFollow (h : s.Exhausts i t) (opc : BitVec 8) : s.WarningsFollow opc t :=
  .kept (congrArg State.warnEph (h.eq_open hc) :) (congrArg State.warnBp (h.eq_open hc) :)

theorem State.Overreads.eq_open (h : s.Overreads i t) : t = { s with
    cause := .mqRange, mqA := t.mqA, mqC := t.mqC, mqBp := t.mqBp, raw := t.raw, mqinit := t.mqinit, cx := t.cx,
    result := t.result, draws := s.draws + 1 } := by
  cases h with
  | inInitdec raw rst addr => rw [s.rangeInInitdec_eq hc]
  | inDecode cxi c hcxi => rw [s.rangeInDecode_eq c hc]

theorem State.Overreads.cause (h : s.Overreads i t) : t.cause = .mqRange := congrArg State.cause (h.eq_open hc)

theorem State.Overreads.warningsFollow (h : s.Overreads i t) (opc : BitVec 8) : s.WarningsFollow opc t :=
  .kept (congrArg State.warnEph (h.eq_open hc) :) (congrArg State.warnBp (h.eq_open hc) :)

/-- MQ_RANGE in `MQ_INITDEC` keeps `RESULT` and leaves legal context states. -/
theorem State.rangeInInitdec_open : s.rangeInInitdec.result = s.result ∧
    ∀ c : Fin 19, (s.rangeInInitdec.cx.get c).toNat ≤ 93 := by
  rw [s.rangeInInitdec_eq hc]
  exact ⟨rfl, fun c => by simpa [Vector.get_eq_getElem] using freeContext_le s.draws c⟩

/-- MQ_RANGE in `MQ_DECODE` keeps the mode and every context but its own, which is left in a legal state. -/
theorem State.rangeInDecode_open (c : Fin 19) : (s.rangeInDecode c).raw = s.raw ∧ (s.rangeInDecode c).mqinit = s.mqinit ∧
    (s.rangeInDecode c).cx = s.cx.set c ((s.rangeInDecode c).cx.get c) ∧ ((s.rangeInDecode c).cx.get c).toNat ≤ 93 := by
  have hcx : (s.rangeInDecode c).cx = s.cx.set c (freeContext s.draws c.val) := by rw [s.rangeInDecode_eq c hc]
  have hget : (s.rangeInDecode c).cx.get c = freeContext s.draws c.val := by
    rw [hcx, Vector.get_eq_getElem]
    exact Vector.getElem_set_self _
  rw [hget, s.rangeInDecode_eq c hc]
  exact ⟨rfl, rfl, rfl, freeContext_le s.draws c⟩

end

/-! ### The rows -/

/-- Every row but that of `TT_DECODE` lists ILLEGAL_FIELD (60_exceptions.md R236). -/
theorem State.illegalField_mem_listedCauses (s : State) {i : Instr} (hi : ∀ node thr, i ≠ .ttDecode node thr) :
    .illegalField ∈ s.listedCauses i := by
  cases i with
  | ttDecode node thr => exact absurd rfl (hi node thr)
  | _ => exact List.mem_cons_self

/-- A cause that a row lists under a condition is listed where the condition holds. -/
theorem mem_append_of_not {p : Prop} [Decidable p] (hp : ¬ p) (l : List Cause) (c : Cause) :
    c ∈ l ++ if p then [] else [c] := by
  rw [if_neg hp]
  exact List.mem_append_right l List.mem_cons_self

theorem State.not_byteAligned_of_check {s : State} (h : (s.brinit && s.byteAligned) = false) :
    ¬ (s.brinit = true ∧ s.brBitidx = 8) :=
  mt s.brinit_and_byteAligned_iff.2 (ne_true_of_eq_false h)

theorem State.Exhausts.mem_listedCauses {s t : State} {i : Instr} (h : s.Exhausts i t) :
    .brExhausted ∈ s.listedCauses i := by
  cases h with
  | @inRead i hi =>
    cases i with
    | brGetbits n => simp [State.listedCauses]
    | brGetnpasses => simp [State.listedCauses]
    | brGetlblkinc => simp [State.listedCauses]
    | _ => cases hi
  | inFlush => simp [State.listedCauses]
  | inDecode node thr => simp [State.listedCauses]

theorem State.Overreads.mem_listedCauses {s t : State} {i : Instr} (h : s.Overreads i t) :
    .mqRange ∈ s.listedCauses i := by
  cases h <;> simp [State.listedCauses]

/-! ### How every command ends -/

namespace State.Ends

section
variable {s : State} (hc : s.cause = .none) {i : Instr}
include hc

/-! ### The shared operations -/

theorem raise {c : Cause} (hpre : c ∈ preCheckCauses) (hlisted : c ∈ s.listedCauses i) : s.Ends i (s.raise c) := by
  rw [s.raise_of_none c hc]
  exact .rejected hpre hlisted

theorem unlessFaulted {t : State} (ht : s.Ends i t) : s.Ends i (s.unlessFaulted t) := by
  rwa [s.unlessFaulted_of_none t hc]

theorem requireField {t : State} {ok : Bool} (hlisted : .illegalField ∈ s.listedCauses i) (ht : s.Ends i t) :
    s.Ends i (s.requireField ok t) :=
  State.requireField_of (raise hc (by decide) hlisted) fun _ => ht

theorem requireState {t : State} {ok : Bool} (hlisted : ok = false → .illegalState ∈ s.listedCauses i)
    (ht : s.Ends i t) : s.Ends i (s.requireState ok t) := by
  rcases s.requireState_cases t ok with ⟨-, e⟩ | ⟨hok, e⟩
  · rw [e]; exact ht
  · rw [e]; exact raise hc (by decide) (hlisted hok)

/-! ### The data parts of the commands -/

theorem finishRead (hi : i.readsField = true) (r : Option (Nat × Cursor)) : s.Ends i (s.finishRead r) := by
  cases r with
  | none => exact .exhausted (.inRead hi)
  | some p => exact .completed hc (.kept rfl rfl)

theorem mqDecide {cxi : BitVec 5} {c : Fin 19} (hcxi : cxi.toNat = c.val) : s.Ends (.mqDecode cxi) (s.mqDecide c) := by
  unfold State.mqDecide
  split
  · cases s.rawBit s.mqRegs with
    | none => exact .overread (.inDecode cxi c hcxi)
    | some p => exact .completed hc (.kept rfl rfl)
  · cases s.decideArith (s.cx.get c) s.mqRegs with
    | none => exact .overread (.inDecode cxi c hcxi)
    | some d => exact .completed hc (.kept rfl rfl)

theorem ttDecide (node : BitVec 24) (thr : Word) : s.Ends (.ttDecode node thr) (s.ttDecide node.toNat thr) := by
  unfold State.ttDecide
  split
  · cases s.walkUp s.cfg.ttStack (some node.toNat) [] with
    | none => exact raise hc (by decide) (by simp [State.listedCauses])
    | some p =>
      dsimp only
      cases s.descend thr p.1 (s.startValue p.1 p.2) s.nodes s.cursor with
      | none => exact .exhausted (.inDecode node thr)
      | some r => exact .completed hc (.kept rfl rfl)
  · exact raise hc (by decide) (by simp [State.listedCauses])

theorem segcopied (len : Half) (term : Bool) (dst : Word) :
    s.Ends (.brSegcopy len term dst) (s.segcopied len term dst) := by
  by_cases hseg : s.brPos.toNat + len.toNat ≤ s.brEnd.toNat
  · by_cases hplace : dst.toNat + len.toNat + (endMarker term).length ≤ s.cfg.cbmemSize.toNat
    · rw [State.segcopied_of_fits hseg hplace]
      exact .completed hc (.kept rfl rfl)
    · rw [State.segcopied_of_capacity hseg (Nat.lt_of_not_le hplace)]
      exact raise hc (by decide) (by simp [State.listedCauses])
  · rw [State.segcopied_of_overrun (Nat.lt_of_not_le hseg)]
    exact raise hc (by decide) (by simp [State.listedCauses])

end

end State.Ends

/-- How every command ends in an unfaulted block. -/
theorem ends_of_exec {i : Instr} {s t : State} (hc : s.cause = .none) (h : exec i s = .next t) : s.Ends i t := by
  cases i with
  | nop => cases h; exact .unlessFaulted hc (.completed hc (.kept rfl rfl))
  | reset => cases h; exact .completed rfl (.cleared rfl rfl (.inl rfl))
  | regread reg =>
    cases h
    split
    · exact .completed hc (.kept rfl rfl)
    · exact .unlessFaulted hc (.raise hc (by decide) (s.illegalField_mem_listedCauses nofun))
  | clrwarn => cases h; exact .unlessFaulted hc (.completed hc (.cleared rfl rfl (.inr rfl)))
  | mqInitctx => cases h; exact .unlessFaulted hc (.completed hc (.kept rfl rfl))
  | mqInitdec raw rst addr =>
    cases h
    refine .unlessFaulted hc ?_
    split
    · exact .overread (.inInitdec raw rst addr)
    · cases rst <;> exact .completed hc (.kept rfl rfl)
  | mqDecode cxi =>
    cases h
    refine .unlessFaulted hc ?_
    split
    · exact .raise hc (by decide) (s.illegalField_mem_listedCauses nofun)
    · next c hcxi =>
      exact .requireState hc (fun hinit => mem_append_of_not (ne_true_of_eq_false hinit) _ _)
        (.mqDecide hc (contextIndex_eq_some cxi c hcxi))
  | mqCheckbp expected =>
    cases h
    refine .unlessFaulted hc (.requireState hc (fun hinit => mem_append_of_not (ne_true_of_eq_false hinit) _ _) ?_)
    split
    · exact .completed hc (.kept rfl rfl)
    · exact .completed hc ⟨.kept rfl, .set rfl⟩
  | ttInit base w h' =>
    cases h
    refine .unlessFaulted hc (.requireField hc (s.illegalField_mem_listedCauses nofun) ?_)
    dsimp only
    split
    · exact .completed hc (.kept rfl rfl)
    · exact .raise hc (by decide) (by simp [State.listedCauses])
  | ttDecode node thr =>
    cases h
    exact .unlessFaulted hc
      (.requireState hc (fun hinit => mem_append_of_not (ne_true_of_eq_false hinit) _ _) (.ttDecide hc node thr))
  | brSetend stop =>
    cases h
    refine .unlessFaulted hc (.requireField hc (s.illegalField_mem_listedCauses nofun) ?_)
    exact .completed hc (.kept rfl rfl)
  | brStart pos => cases h; exact .unlessFaulted hc (.completed hc (.kept rfl rfl))
  | brGetbits n =>
    cases h
    exact .unlessFaulted hc (.requireField hc (s.illegalField_mem_listedCauses nofun)
      (.requireState hc (fun hinit => mem_append_of_not (ne_true_of_eq_false hinit) _ _) (.finishRead hc rfl _)))
  | brFlush =>
    cases h
    refine .unlessFaulted hc (.requireState hc (fun hinit => mem_append_of_not (ne_true_of_eq_false hinit) _ _) ?_)
    split
    · exact .exhausted .inFlush
    · exact .completed hc (.kept rfl rfl)
  | brGetnpasses =>
    cases h
    exact .unlessFaulted hc
      (.requireState hc (fun hinit => mem_append_of_not (ne_true_of_eq_false hinit) _ _) (.finishRead hc rfl _))
  | brGetlblkinc =>
    cases h
    exact .unlessFaulted hc
      (.requireState hc (fun hinit => mem_append_of_not (ne_true_of_eq_false hinit) _ _) (.finishRead hc rfl _))
  | brEph =>
    cases h
    refine .unlessFaulted hc (.requireState hc
      (fun hcheck => mem_append_of_not (State.not_byteAligned_of_check hcheck) _ _) ?_)
    split
    · exact .completed hc (.kept rfl rfl)
    · exact .completed hc ⟨.set rfl, .kept rfl⟩
  | brSegcopy len term dst =>
    cases h
    exact .unlessFaulted hc (.requireState hc
      (fun hcheck => mem_append_of_not (State.not_byteAligned_of_check hcheck) _ _) (.segcopied hc len term dst))

/-! ### What an end says of causes and warnings -/

section
variable {s t : State} {i : Instr} (hc : s.cause = .none)
include hc

/-- The cause a command leaves is one of its row. -/
theorem State.Ends.cause_mem (h : s.Ends i t) (ht : t.cause ≠ .none) : t.cause ∈ s.listedCauses i := by
  cases h with
  | completed hnone => exact absurd hnone ht
  | rejected hpre hlisted => exact hlisted
  | exhausted h => rw [h.cause hc]; exact h.mem_listedCauses
  | overread h => rw [h.cause hc]; exact h.mem_listedCauses

theorem State.Ends.warningsFollow (h : s.Ends i t) : s.WarningsFollow (opcodeOf i) t := by
  cases h with
  | completed hnone hwarn => exact hwarn
  | rejected hpre hlisted => exact .kept rfl rfl
  | exhausted h => exact h.warningsFollow hc _
  | overread h => exact h.warningsFollow hc _

/-- The cause of a check comes with no other effect: the in-flight causes are none of these. -/
theorem State.Ends.eq_of_preCheck (h : s.Ends i t) (ht : t.cause ∈ preCheckCauses) : t = { s with cause := t.cause } := by
  cases h with
  | completed hnone => rw [hnone] at ht; exact absurd ht (by decide)
  | rejected hpre hlisted => rfl
  | exhausted h => rw [h.cause hc] at ht; exact absurd ht (by decide)
  | overread h => rw [h.cause hc] at ht; exact absurd ht (by decide)

theorem State.Ends.exhausts (h : s.Ends i t) (ht : t.cause = .brExhausted) : s.Exhausts i t := by
  cases h with
  | completed hnone => rw [hnone] at ht; cases ht
  | rejected hpre hlisted => obtain rfl := ht; exact absurd hpre (by decide)
  | exhausted h => exact h
  | overread h => rw [h.cause hc] at ht; cases ht

theorem State.Ends.overreads (h : s.Ends i t) (ht : t.cause = .mqRange) : s.Overreads i t := by
  cases h with
  | completed hnone => rw [hnone] at ht; cases ht
  | rejected hpre hlisted => obtain rfl := ht; exact absurd hpre (by decide)
  | exhausted h => rw [h.cause hc] at ht; cases ht
  | overread h => exact h

end

/-- Settles O18: of the ends of a command only `State.Exhausts` has this cause. -/
theorem exhaustedLeavesOpenOnly : Obligations.ExhaustedLeavesOpenOnly := by
  intro i s t h hc ht hf
  have hexhausts : s.Exhausts i t := (ends_of_exec hc h).exhausts hc ht
  refine ⟨hexhausts.eq_open hc, hexhausts.bitidx_le hc, ?_, hexhausts.nodes_eq hc, ?_⟩
  · rintro rfl
    exact hexhausts.result_brFlush hc
  · rintro node thr rfl m
    exact hexhausts.node_ttDecode hc hf.1 m

/-- Settles O19: of the ends of a command only `State.Overreads` has this cause. -/
theorem rangeFaultLeavesOpenOnly : Obligations.RangeFaultLeavesOpenOnly := by
  intro i s t h hc ht
  have hoverreads : s.Overreads i t := (ends_of_exec hc h).overreads hc ht
  have hopen := hoverreads.eq_open hc
  cases hoverreads with
  | inInitdec raw rst addr =>
    obtain ⟨hresult, hcx⟩ := State.rangeInInitdec_open hc
    rw [hresult] at hopen
    exact .inl ⟨raw, rst, addr, rfl, hopen, hcx⟩
  | inDecode cxi c hcxi =>
    obtain ⟨hraw, hmqinit, hcx, hle⟩ := State.rangeInDecode_open hc c
    refine .inr ⟨cxi, c, rfl, hcxi, ?_, hle⟩
    rw [← hcx]
    rwa [hraw, hmqinit] at hopen

/-! ### Words -/

/-- How every word ends in an unfaulted block: a reserved opcode, or an end of a command with the word's opcode. -/
theorem ends_of_executeWord {w : CommandWord} {s t : State} (hc : s.cause = .none) (h : executeWord w s = .next t) :
    (reservedOpcode (opcField w) = true ∧ t = { s with cause := .illegalOpcode }) ∨
      ∃ i, opcodeOf i = opcField w ∧ s.Ends i t := by
  rcases decode_cases w with ⟨hres, hdecode⟩ | ⟨i, hopc, hdecode⟩
  · rw [executeWord_of_error hdecode, if_pos hc] at h
    cases h
    exact .inl ⟨hres, rfl⟩
  · refine .inr ?_
    cases hzeros : i.zerosHold (aField w) (bField w) with
    | false =>
      rw [hzeros] at hdecode
      rw [executeWord_of_error hdecode, if_pos hc] at h
      cases h
      have hrow : ∀ node thr, i ≠ .ttDecode node thr := by
        rintro node thr rfl
        cases hzeros
      exact ⟨i, hopc, .rejected (by decide) (s.illegalField_mem_listedCauses hrow)⟩
    | true =>
      rw [hzeros] at hdecode
      rw [executeWord_of_ok hdecode] at h
      exact ⟨_, (opcodeOf_withOperands i _ _).trans hopc, ends_of_exec hc h⟩

/-- Settles O17: a reserved opcode, or an end of a command with a cause of a check. -/
theorem preCheckFaultsChangeStatusOnly : Obligations.PreCheckFaultsChangeStatusOnly := by
  intro w s t h hc ht
  rcases ends_of_executeWord hc h with ⟨-, rfl⟩ | ⟨i, -, hends⟩
  · rfl
  · exact hends.eq_of_preCheck hc ht

/-- A row is one of the opcode: its commands differ in operands alone (30_encoding.md R73, R74). -/
theorem withOperands_of_opcodeOf_eq {i j : Instr} (h : opcodeOf i = opcodeOf j) :
    i.withOperands (operandA j) (operandB j) = j := by
  have hdecode : decodeFields (opcodeOf j) (operandA j) (operandB j) = .ok j := by
    rw [← decode_commandWord]
    exact decodeReadsBackEncode j
  rw [← h, decodeFields_of_row] at hdecode
  exact (zeroChecked_eq_ok_iff.1 hdecode).2

/-- The causes of a row do not depend on the operands (60_exceptions.md R236). -/
theorem State.listedCauses_of_opcodeOf_eq (s : State) {i j : Instr} (h : opcodeOf i = opcodeOf j) :
    s.listedCauses i = s.listedCauses j := by
  rw [← withOperands_of_opcodeOf_eq h]
  cases i <;> rfl

/-- The cause a word raises (60_exceptions.md R236). -/
theorem cause_of_executeWord {w : CommandWord} {s t : State} (hc : s.cause = .none) (h : executeWord w s = .next t)
    (ht : t.cause ≠ .none) : (reservedOpcode (opcField w) = true → t.cause = .illegalOpcode) ∧
      ∀ i, opcodeOf i = opcField w → t.cause ∈ s.listedCauses i := by
  rcases ends_of_executeWord hc h with ⟨hres, rfl⟩ | ⟨j, hj, hends⟩
  · exact ⟨fun _ => rfl, fun i hi => absurd hi ((reservedOpcode_iff _).1 hres i)⟩
  · refine ⟨fun hres => absurd hj ((reservedOpcode_iff _).1 hres j), fun i hi => ?_⟩
    rw [s.listedCauses_of_opcodeOf_eq (hi.trans hj.symm)]
    exact hends.cause_mem hc ht

/-- What a word, faulted or not, does to the warnings (60_exceptions.md R229, R236). -/
theorem warningsFollow_of_executeWord {w : CommandWord} {s t : State} (h : executeWord w s = .next t) :
    s.WarningsFollow (opcField w) t := by
  by_cases hc : s.cause = .none
  · rcases ends_of_executeWord hc h with ⟨-, rfl⟩ | ⟨i, hi, hends⟩
    · exact .kept rfl rfl
    · exact hi ▸ hends.warningsFollow hc
  · rcases executeWord_of_faulted hc w with hw | ⟨rfl, hw⟩ | ⟨reg, v, -, -, hw⟩ <;> cases hw.symm.trans h
    · exact .kept rfl rfl
    · exact .cleared rfl rfl (.inl (opcField_commandWord _ _ _))
    · exact .kept rfl rfl

/-- `RESET`, and `CLRWARN` in an unfaulted block, clear both warnings (40_control.md R92, R94). -/
theorem warnings_cleared {w : CommandWord} {s t : State} (h : executeWord w s = .next t)
    (hw : w = encode .reset ∨ w = encode .clrwarn ∧ s.cause = .none) : t.warnEph = false ∧ t.warnBp = false := by
  rcases hw with rfl | ⟨rfl, hc⟩
  · rw [executeWord_of_ok (decodeReadsBackEncode .reset)] at h
    cases h
    exact ⟨rfl, rfl⟩
  · rw [executeWord_of_ok (decodeReadsBackEncode .clrwarn), exec_clrwarn, s.unlessFaulted_of_none _ hc] at h
    cases h
    exact ⟨rfl, rfl⟩

/-- A faulted block refuses every opcode but those of `RESET` and `REGREAD` (60_exceptions.md R224). -/
theorem executeWord_refused {w : CommandWord} {s t : State} (h : executeWord w s = .next t) (hc : s.cause ≠ .none)
    (hreset : opcField w ≠ opcodeOf .reset) (hregread : opcField w ≠ opcodeOf (.regread 0)) : t = s := by
  rcases executeWord_of_faulted hc w with hw | ⟨rfl, -⟩ | ⟨reg, v, rfl, -, -⟩
  · cases hw.symm.trans h
    rfl
  · exact absurd (opcField_commandWord _ _ _) hreset
  · exact absurd (opcField_commandWord _ _ _) hregread

/-- Settles O16: the causes, the two warnings, what clears them, and the refusal. -/
theorem causesByCommand : Obligations.CausesByCommand := by
  intro w s t h
  obtain ⟨heph, hbp⟩ := warningsFollow_of_executeWord h
  exact ⟨fun hc ht => cause_of_executeWord hc h ht, heph, hbp, warnings_cleared h, executeWord_refused h⟩

end Sys2Proof.Machine
end

section
/-! Reset and power-on (70_reset_and_hazards.md R250, R251): `RESET` is power-on with the memories and parameters the block
holds, so what is said once of `State.powerOn` serves both. -/

namespace Sys2Proof

/-- The free parameters lie in the ranges of 00_scope.md R7, and each size fits its 32-bit register. -/
theorem Config.implemented_valid : Config.implemented.Valid := by
  simp only [Config.Valid, Config.implemented, BitVec.toNat_ofNat]
  omega

end Sys2Proof

namespace Sys2Proof.Machine

/-! ### The reset values -/

/-- `STATUS` reads 0 without a cause and without warnings (10_state.md R22). -/
theorem State.statusWord_eq_zero {s : State} (hc : s.cause = .none) (heph : s.warnEph = false) (hbp : s.warnBp = false) :
    s.statusWord = 0 := by
  rw [State.statusWord, State.faulted, hc, heph, hbp]
  decide

section
variable (cfg : Config) (ph cb : Memory)

theorem State.powerOn_statusWord : (State.powerOn cfg ph cb).statusWord = 0 :=
  State.statusWord_eq_zero rfl rfl rfl

/-- The node file at power-on lists no node (10_state.md R35). -/
theorem State.node_powerOn (n : Nat) : (State.powerOn cfg ph cb).node n = TagNode.atReset := rfl

/-- Every register and node at power-on holds its reset value (10_state.md R42). -/
theorem State.powerOn_atResetValues : (State.powerOn cfg ph cb).AtResetValues := by
  have hnode := State.node_powerOn cfg ph cb
  exact ⟨State.powerOn_statusWord cfg ph cb, rfl, rfl, rfl, rfl, rfl, rfl, initialContexts_get, rfl, rfl, rfl, rfl,
    fun n => by rw [hnode n]; exact ⟨rfl, rfl, rfl, rfl⟩⟩

end

/-- The reset values do not depend on the model's own fields, which the reset action keeps and power-on empties. -/
theorem State.resetAction_atResetValues (s : State) : s.resetAction.AtResetValues :=
  State.powerOn_atResetValues s.cfg s.phmem s.cbmem

/-- `RESET` is never refused (60_exceptions.md R224). -/
theorem exec_reset (s : State) : exec .reset s = .next s.resetAction := rfl

/-- Settles O21: `RESET` is the reset action, which gives the values of power-on. -/
theorem resetAction : Obligations.ResetAction :=
  ⟨fun s => ⟨s.resetAction, exec_reset s, s.resetAction_atResetValues, s.resetAction_phmem, s.resetAction_cbmem,
      s.resetAction_cfg⟩,
    fun cfg ph cb => ⟨State.powerOn_atResetValues cfg ph cb, rfl, rfl, rfl⟩⟩

/-! ### The invariant -/

theorem sparseWf_nil {α : Type} [DecidableEq α] (d : α) (size : Nat) : sparseWf d size [] :=
  ⟨.nil, List.forall_mem_nil _, List.forall_mem_nil _⟩

/-- Power-on meets every clause of the invariant by its reset values, and those on parameters and memories by what is given
of them (10_state.md R43). -/
theorem State.Inv.powerOn {cfg : Config} {ph cb : Memory} (hcfg : cfg.Valid) (hph : ph.wf cfg.phmemSize.toNat)
    (hcb : cb.wf cfg.cbmemSize.toNat) : (State.powerOn cfg ph cb).Inv where
  config := hcfg
  contexts := initialContexts_le
  bitidx := Nat.le_refl 8
  window := Nat.zero_le _
  interval := nofun
  parents := nofun
  phmem := hph
  cbmem := hcb
  nodes := sparseWf_nil _ _

/-- Settles O23: the model's reset state is one power-on of many. -/
theorem powerOnHasInvariant : Obligations.PowerOnHasInvariant :=
  ⟨fun _ _ _ hcfg hph hcb => .powerOn hcfg hph hcb,
    .powerOn Config.implemented_valid (sparseWf_nil _ _) (sparseWf_nil _ _)⟩

end Sys2Proof.Machine
end
